-- ==== Sys2Proof/Word.lean ====
section
/-! DEFINITION. The word types of VIBCORE: the 64-bit command word (R80), the 32-bit register and the
binary32 pattern (R30, R54), and the byte of a byte-wide transport (R65). -/

namespace Sys2Proof

/-- A command word (R80). -/
abbrev Word := BitVec 64

/-- A 32-bit integer or status register (R30, R54). -/
abbrev Reg := BitVec 32

/-- The bit pattern of one binary32 datum: what a `Num` register or a buffer word holds under
`ARITH = F32` (R7, R30, R62). -/
abbrev F32 := BitVec 32

/-- One byte on a byte-wide transport (R65). -/
abbrev Byte := BitVec 8

end Sys2Proof
end

