-- ==== Sys2Proof/Syntax.lean ====
section
/-! DEFINITION. The command set VIBCORE-1 (R85): one constructor per row of the opcode table, and the
assembler's lines and value literals (R90, R91). -/

namespace Sys2Proof

/-- The commands of R85. Each operand has exactly the width of its field (R82 to R84). -/
inductive Instr where
  /-- NOP, format N (R81, R150). -/
  | nop
  /-- PREPARE, format P: the sample rate `SRATE` and the block size `BLK` (R82, R151). -/
  | prepare (sr : BitVec 32) (blk : BitVec 24)
  /-- PROCESS, format V: the binary32 pattern of one input sample (R83, R130). -/
  | process (bits : F32)
  /-- SETFREQ, format V: the binary32 pattern of a frequency in Hz (R83, R141). -/
  | setfreq (bits : F32)
  /-- SETWIDTH, format V: the binary32 pattern of a width in seconds (R83, R142). -/
  | setwidth (bits : F32)
  /-- SETGAIN, format V: the binary32 pattern of a linear gain (R83, R143). -/
  | setgain (bits : F32)
  deriving DecidableEq, Repr

/-- A decimal floating literal: `(-1)^neg × digits × 10^exp` (R90). -/
structure Decimal where
  neg : Bool
  digits : Nat
  exp : Int
  deriving DecidableEq, Repr

/-- A `<value>` of the assembler (R90). -/
inductive Value where
  /-- A decimal literal. -/
  | decimal (d : Decimal)
  /-- `inf` and `-inf`. -/
  | inf (neg : Bool)
  /-- `nan`. -/
  | nan
  /-- `bits(0xHHHHHHHH)`, a raw pattern. -/
  | bits (b : Nat)
  deriving DecidableEq, Repr

/-- One line of the assembler: a command, a raw word (R90), or a pseudo-instruction (R91). -/
inductive AsmLine where
  | nop
  | prepare (sr blk : Nat)
  | process (v : Value)
  | setfreq (v : Value)
  | setwidth (v : Value)
  | setgain (v : Value)
  | word64 (w : Nat)
  | block (vs : List Value)
  | silence (n : Nat)
  | setgaindb (g : Decimal)
  deriving DecidableEq, Repr

end Sys2Proof
end

