-- ==== Sys2Proof/Decode.lean ====
section
/-! DEFINITION. Decoding a command word (R80 to R89), the encoder written from the same formats
(R81 to R83, R90), the byte order of a byte-wide transport (R65), and the host's table-word decoder. -/

namespace Sys2Proof

/-- The outcome of decoding (R89): a command, an illegal opcode (R86), or a nonzero reserved field
(R87). -/
inductive Decoded where
  | instr (i : Instr)
  | illegal
  | reserved
  deriving DecidableEq, Repr

/-- `OPC`, bits 63:56 (R80). -/
def opcField (w : Word) : BitVec 8 := w.extractLsb' 56 8

/-- Bits 55:32: `BLK` of format P (R82), the reserved field of format V (R83). -/
def midField (w : Word) : BitVec 24 := w.extractLsb' 32 24

/-- Bits 31:0: `SRATE` of format P (R82), `VAL` of format V (R83). -/
def lowField (w : Word) : BitVec 32 := w.extractLsb' 0 32

/-- Bits 55:0: the reserved field of format N (R81). -/
def restField (w : Word) : BitVec 56 := w.extractLsb' 0 56

/-- Decoding, a total function of the 64 bits, with the tests in the order of R89. -/
def decode (w : Word) : Decoded :=
  if 0x06#8 ≤ opcField w then .illegal
  else if opcField w = 0x00#8 then
    if restField w ≠ 0#56 then .reserved else .instr .nop
  else if opcField w = 0x01#8 then .instr (.prepare (lowField w) (midField w))
  else if midField w ≠ 0#24 then .reserved
  else if opcField w = 0x02#8 then .instr (.process (lowField w))
  else if opcField w = 0x03#8 then .instr (.setfreq (lowField w))
  else if opcField w = 0x04#8 then .instr (.setwidth (lowField w))
  else .instr (.setgain (lowField w))

/-- The word of opcode `opc` whose other two fields are `mid` (55:32) and `low` (31:0):
`{opc, mid, low}` (R90). -/
def packWord (opc : BitVec 8) (mid : BitVec 24) (low : BitVec 32) : Word := opc ++ mid ++ low

/-- The command word of an instruction (R81 to R83, R90). -/
def encode : Instr → Word
  | .nop => packWord 0x00#8 0#24 0#32
  | .prepare sr blk => packWord 0x01#8 blk sr
  | .process bits => packWord 0x02#8 0#24 bits
  | .setfreq bits => packWord 0x03#8 0#24 bits
  | .setwidth bits => packWord 0x04#8 0#24 bits
  | .setgain bits => packWord 0x05#8 0#24 bits

/-- A 64-bit word on a byte-wide transport: eight bytes, byte 0 is bits 7:0 (R65). -/
def wordBytes (w : Word) : List Byte :=
  [w.extractLsb' 0 8, w.extractLsb' 8 8, w.extractLsb' 16 8, w.extractLsb' 24 8,
   w.extractLsb' 32 8, w.extractLsb' 40 8, w.extractLsb' 48 8, w.extractLsb' 56 8]

/-- The command word that eight bytes carry, first byte least significant (R65). A list of another
length carries no command, since a command is always a whole word (R66). -/
def wordOfBytes : List Byte → Option Word
  | [b0, b1, b2, b3, b4, b5, b6, b7] => some (b7 ++ b6 ++ b5 ++ b4 ++ b3 ++ b2 ++ b1 ++ b0)
  | _ => none

/-- A 32-bit register value on a byte-wide transport (R65). -/
def regBytes (v : Reg) : List Byte :=
  [v.extractLsb' 0 8, v.extractLsb' 8 8, v.extractLsb' 16 8, v.extractLsb' 24 8]

/-- Decoding the bytes of a transported command (R65, R89). -/
def decodeBytes (bs : List Byte) : Option Decoded := (wordOfBytes bs).map decode

/-- The command word whose `nbits` low bits are those of `w`, every bit above them 0. -/
def tableWord (nbits w : Nat) : Word := BitVec.ofNat 64 (w % 2 ^ nbits)

/-- The instruction the decoder reads from the opcode table's numbering of a word: the word's bytes
in transport order (R65), given to the decoder. -/
def decodeTableWord (nbits w : Nat) : Option Instr :=
  match decodeBytes (wordBytes (tableWord nbits w)) with
  | some (.instr i) => some i
  | _ => none

end Sys2Proof
end

