-- ==== Sys2Proof/Config.lean ====
section
/-! DEFINITION. What an implementation fixes: the parameters of R5 with VIBCORE's values, the
arithmetic a model takes as an argument (R7), and the values the spec leaves free: the NaN an invalid
operation gives (R9) and SIN2PI (R13), which are constants without a body. -/

namespace Sys2Proof

/-- A non-negative rational constant of the spec, `num / den` (R5). -/
structure Ratio where
  num : Nat
  den : Nat
  deriving DecidableEq, Repr

/-- The numeric parameters of R5. `WIDTH_MAX` is `MAX_WIDTH` and needs no field of its own. -/
structure Params where
  /-- `MAX_WIDTH`, seconds; also `WIDTH_MAX`. -/
  maxWidth : Ratio
  /-- `CAP_FACTOR`. -/
  capFactor : Ratio
  /-- `GUARD`, samples. -/
  guard : Nat
  /-- `K`, the smoother's retention. -/
  k : Ratio
  /-- `TRANS_TIME`, seconds. -/
  transTime : Ratio
  /-- `FREQ_MIN`, Hz. -/
  freqMin : Ratio
  /-- `FREQ_MAX`, Hz. -/
  freqMax : Ratio
  /-- `WIDTH_MIN`, seconds. -/
  widthMin : Ratio
  /-- `GAIN_MIN_LIN`. -/
  gainMin : Ratio
  /-- `GAIN_MAX_LIN`. -/
  gainMax : Ratio
  /-- `DEF_FREQ`, Hz. -/
  defFreq : Ratio
  /-- `DEF_WIDTH`, seconds. -/
  defWidth : Ratio
  /-- `DEF_GAIN`. -/
  defGain : Ratio
  /-- `MAX_CAPACITY`, buffer words. -/
  maxCapacity : Nat
  /-- `SR_MAX`, Hz. -/
  srMax : Nat
  /-- `ID_VALUE`. -/
  idValue : Reg
  deriving DecidableEq, Repr

/-- The values VIBCORE takes (R5). -/
def Params.vibcore : Params where
  maxWidth := ⟨2, 5⟩
  capFactor := ⟨3, 2⟩
  guard := 3
  k := ⟨19, 20⟩
  transTime := ⟨1, 5⟩
  freqMin := ⟨1, 100⟩
  freqMax := ⟨20, 1⟩
  widthMin := ⟨1, 2000⟩
  gainMin := ⟨4244337, 134217728⟩
  gainMax := ⟨10, 1⟩
  defFreq := ⟨2, 1⟩
  defWidth := ⟨1, 125⟩
  defGain := ⟨1, 1⟩
  maxCapacity := 131072
  srMax := 2 ^ 24
  idValue := 0x56430001#32

/-- The arithmetic `ARITH` chooses (R7): the type `N` of a `Num` and each primitive of R8 to R15 on
it. Every operation is its own rounded step (R8). -/
structure Arith (N : Type) where
  /-- `RND(x + y)` (R8, R9). -/
  add : N → N → N
  /-- `RND(x - y)`. -/
  sub : N → N → N
  /-- `RND(x × y)`. -/
  mul : N → N → N
  /-- `RND(x / y)`. -/
  div : N → N → N
  /-- `SQRT` (R14). -/
  sqrt : N → N
  /-- `SIN2PI` (R13). -/
  sin2pi : N → N
  /-- `cnum(q)` (R10). -/
  cnum : Ratio → N
  /-- `toNum(n)` (R11). -/
  toNum : Int → N
  /-- `f32(b)` of a finite pattern (R15). -/
  ofBits : F32 → N
  /-- The numeric comparison `x <= y` (R12). -/
  le : N → N → Bool
  /-- `floor(x)`, for a finite `x` (R12). -/
  floor : N → Option Int
  /-- `RND(x - m × floor(x / m))`, the remainder of R102 rounded once. -/
  rem : N → Nat → N
  /-- Whether a word is the +0 that PREPARE leaves in the buffer (R154). -/
  isPosZero : N → Bool

/-- The sign and the fraction (less one) of the NaN that the `n`-th sample step's invalid operations
give. R9 fixes no payload, so it is a free value (log 5). -/
opaque Config.nanChoice : Nat → Bool × Fin 8388607

/-- The sign and the magnitude pattern of SIN2PI at a phase in `[0, 1)` other than a quarter phase.
The type bounds the magnitude by 1 (pattern 0x3F800000), which is property (S1) of R13; nothing else
is fixed (log 6). -/
opaque Config.sineInside : F32 → Bool × Fin 1065353217

/-- SIN2PI at a pattern outside `[0, 1)`, of which R13 says nothing (log 6). -/
opaque Config.sineOutside : F32 → F32

end Sys2Proof
end

