-- ==== Sys2Proof/WellFormed.lean ====
section
/-! DEFINITION. Well-formedness checks: of a command (its operands have the widths of their fields by
their types, R82 and R83), of an assembler line (R90) and of the parameters (R6); and the configuration of
a model, which carries the check of its parameters. -/

namespace Sys2Proof

/-- A command is well formed when each operand fits its field (R82, R83). The types of the
constructors already say so, hence every term of `Instr` passes; an ill-formed operand can be written
only in an assembler line, where `AsmLine.wellFormed` refuses it. -/
def Instr.wellFormed : Instr → Bool
  | .nop => true
  | .prepare sr blk => sr.toNat < 2 ^ 32 && blk.toNat < 2 ^ 24
  | .process bits => bits.toNat < 2 ^ 32
  | .setfreq bits => bits.toNat < 2 ^ 32
  | .setwidth bits => bits.toNat < 2 ^ 32
  | .setgain bits => bits.toNat < 2 ^ 32

/-- A raw pattern has 32 bits (R90). -/
def Value.wellFormed : Value → Bool
  | .bits b => b < 2 ^ 32
  | _ => true

/-- The ranges of an assembler line's operands (R90). -/
def AsmLine.wellFormed : AsmLine → Bool
  | .prepare sr blk => sr < 2 ^ 32 && blk < 2 ^ 24
  | .process v => v.wellFormed
  | .setfreq v => v.wellFormed
  | .setwidth v => v.wellFormed
  | .setgain v => v.wellFormed
  | .word64 w => w < 2 ^ 64
  | .block vs => vs.all Value.wellFormed
  | .nop => true
  | .silence _ => true
  | .setgaindb _ => true

/-- A fraction with a denominator. -/
def Ratio.wellFormed (q : Ratio) : Bool := 0 < q.den

/-- A positive fraction. -/
def Ratio.positive (q : Ratio) : Bool := q.wellFormed && 0 < q.num

/-- `p <= q` of two fractions. -/
def Ratio.le (p q : Ratio) : Bool := p.num * q.den ≤ q.num * p.den

/-- `p < q` of two fractions. -/
def Ratio.lt (p q : Ratio) : Bool := p.num * q.den < q.num * p.den

/-- R6, first to third bullets: GUARD, K and the positive parameters. -/
def Params.constantsOk (P : Params) : Bool :=
  3 ≤ P.guard
    && P.k.wellFormed && P.k.lt ⟨1, 1⟩
    && P.maxWidth.positive && P.transTime.positive && P.capFactor.positive
    && P.freqMin.positive && P.freqMax.positive && P.widthMin.positive
    && P.gainMin.wellFormed && P.gainMax.wellFormed
    && P.defFreq.wellFormed && P.defWidth.wellFormed && P.defGain.wellFormed

/-- R6, fourth bullet: the order of the range bounds. -/
def Params.rangesOk (P : Params) : Bool :=
  P.freqMin.le P.freqMax && P.widthMin.le P.maxWidth && P.gainMin.le P.gainMax

/-- R6, fifth bullet: the defaults lie in the setters' ranges. -/
def Params.defaultsOk (P : Params) : Bool :=
  P.freqMin.le P.defFreq && P.defFreq.le P.freqMax
    && P.widthMin.le P.defWidth && P.defWidth.le P.maxWidth
    && P.gainMin.le P.defGain && P.defGain.le P.gainMax

/-- R6, sixth and seventh bullets: the capacity and the sample rate. -/
def Params.limitsOk (P : Params) : Bool :=
  1 ≤ P.maxCapacity && P.maxCapacity ≤ 2 ^ 20 && P.srMax ≤ 2 ^ 24

/-- The constraints of R6. -/
def Params.wellFormed (P : Params) : Bool :=
  P.constantsOk && P.rangesOk && P.defaultsOk && P.limitsOk

/-- A configuration of the model: the arithmetic that `ARITH` chooses (R7) and parameters that meet R6. No
configuration of either arithmetic can be made of parameters that break a constraint. -/
structure Config (N : Type) extends Arith N, Params where
  /-- The parameters meet R6. -/
  valid : toParams.wellFormed = true

end Sys2Proof
end

