-- ==== Sys2Proof/Machine/Binary32.lean ====
section
/-! DEFINITION. The arithmetic `ARITH = F32` (R7 to R15): IEEE 754 binary32 on bit patterns, each
operation rounded once to nearest, ties to even, with gradual underflow. Every finite datum is a whole
number of units of 2^-149, so exact results are computed on integers and rounded by `roundMag`. -/

namespace Sys2Proof.Binary32

/-- Units of 2^-149 in 1. -/
def unitScale : Nat := 2 ^ 149

/-- The magnitude pattern of an infinity (R15). -/
def infMag : Nat := 0x7F800000

/-- Bits 30:0 of a pattern, as a number (R15). -/
def magBits (b : F32) : Nat := b.toNat % 2 ^ 31

/-- Bit 31, the sign (R15). -/
def signBit (b : F32) : Bool := b.toNat / 2 ^ 31 = 1

/-- The pattern with sign `neg` and magnitude bits `m`. -/
def pack (neg : Bool) (m : Nat) : F32 := BitVec.ofNat 32 (neg.toNat * 2 ^ 31 + m)

/-- The value of a finite magnitude pattern, in units of 2^-149: the fraction alone for a subnormal
(exponent field 0), otherwise the fraction with its leading 1, scaled by the exponent (R15). -/
def magUnits (m : Nat) : Nat :=
  if m / 2 ^ 23 = 0 then m % 2 ^ 23 else (2 ^ 23 + m % 2 ^ 23) * 2 ^ (m / 2 ^ 23 - 1)

/-- `isFinite(b)`: bits 30:23 are not all ones (R15). -/
def isFinite (b : F32) : Bool := magBits b < infMag

/-- A NaN: exponent field all ones, fraction not zero (R15). -/
def isNaN (b : F32) : Bool := infMag < magBits b

/-- A binary32 datum taken apart: a NaN, an infinity, or a sign and a number of units of 2^-149. -/
inductive Datum where
  | nan
  | inf (neg : Bool)
  | fin (neg : Bool) (units : Nat)
  deriving DecidableEq, Repr

/-- The datum a pattern encodes (R15). -/
def unpack (b : F32) : Datum :=
  if isNaN b then .nan
  else if isFinite b then .fin (signBit b) (magUnits (magBits b))
  else .inf (signBit b)

/-- A sign and a magnitude as an integer. -/
def signed (neg : Bool) (u : Nat) : Int :=
  match neg with
  | true => -(u : Int)
  | false => u

/-- The exact value of a finite pattern in units of 2^-149, and 0 of any other. -/
def units (b : F32) : Int :=
  match unpack b with
  | .fin neg u => signed neg u
  | _ => 0

/-- `RND` of the non-negative value `n / d` units (R9), as magnitude bits. The quotient is cut to 24
significant bits (fewer below 2^24 units, where the unit itself is the last place), rounded to
nearest with ties to even; a carry out of the significand moves to the next exponent by the layout of
the bits, and a magnitude past the largest finite one becomes the infinity's. -/
def roundMag (n d : Nat) : Nat :=
  let k := Nat.log2 (n / d) - 23
  let w := d * 2 ^ k
  let q := n / w
  let r := n % w
  min (k * 2 ^ 23 + (if w < 2 * r || (2 * r == w && q % 2 == 1) then q + 1 else q)) infMag

/-- `RND` of the value of sign `neg` and magnitude `n / d` units (R9). -/
def roundTo (neg : Bool) (n d : Nat) : F32 := pack neg (roundMag n d)

/-- The infinity of a sign. -/
def infinity (neg : Bool) : F32 := pack neg infMag

/-- The NaN of a free choice: its sign, and its fraction less one (R9, log 5). -/
def nanOf (c : Bool × Fin 8388607) : F32 := pack c.1 (infMag + 1 + c.2.val)

/-- `RND(x + y)` (R8, R9). `nan` is the value an invalid operation gives. A sum that is exactly zero is
+0 unless both operands are negative zeros. -/
def add (nan x y : F32) : F32 :=
  match unpack x, unpack y with
  | .nan, _ => nan
  | _, .nan => nan
  | .inf s, .inf t => if s = t then infinity s else nan
  | .inf s, .fin _ _ => infinity s
  | .fin _ _, .inf t => infinity t
  | .fin s m, .fin t n =>
    if signed s m + signed t n = 0 then pack (s && t) 0
    else roundTo (signed s m + signed t n < 0) (signed s m + signed t n).natAbs 1

/-- The pattern with the other sign. -/
def negate (x : F32) : F32 := x ^^^ 0x80000000#32

/-- `RND(x - y)` (R8, R9). -/
def sub (nan x y : F32) : F32 := add nan x (negate y)

/-- `RND(x × y)` (R8, R9). The sign is the exclusive-or of the signs, of a zero result too. -/
def mul (nan x y : F32) : F32 :=
  match unpack x, unpack y with
  | .nan, _ => nan
  | _, .nan => nan
  | .inf s, .inf t => infinity (s != t)
  | .inf s, .fin t n => if n = 0 then nan else infinity (s != t)
  | .fin s m, .inf t => if m = 0 then nan else infinity (s != t)
  | .fin s m, .fin t n => roundTo (s != t) (m * n) unitScale

/-- `RND(x / y)` (R8, R9). A finite nonzero value over a zero is an infinity, and 0/0 and inf/inf are
invalid: PRESUMED, IEEE 754 (log 7). -/
def div (nan x y : F32) : F32 :=
  match unpack x, unpack y with
  | .nan, _ => nan
  | _, .nan => nan
  | .inf _, .inf _ => nan
  | .inf s, .fin t _ => infinity (s != t)
  | .fin s _, .inf t => pack (s != t) 0
  | .fin s m, .fin t n =>
    if n = 0 then (if m = 0 then nan else infinity (s != t))
    else roundTo (s != t) (m * unitScale) n

/-- The integer square root of `m`, for `m < 4 ^ fuel`, one bit of the root for each unit of fuel. -/
def isqrt : Nat → Nat → Nat
  | 0, _ => 0
  | fuel + 1, m =>
    if (2 * isqrt fuel (m / 4) + 1) * (2 * isqrt fuel (m / 4) + 1) ≤ m
    then 2 * isqrt fuel (m / 4) + 1 else 2 * isqrt fuel (m / 4)

/-- Twice the integer square root of `m`, plus one where `m` is no square: twice the root, cut to a
half, on the same side of every integer as the root itself. -/
def stickyRoot (m : Nat) : Nat :=
  2 * isqrt 216 m + (if isqrt 216 m * isqrt 216 m = m then 0 else 1)

/-- `SQRT`, correctly rounded (R14). The root of `u` units is the root of `u × 2^149` units. A zero keeps
its sign, and the root of a negative number is invalid: PRESUMED, IEEE 754 (log 7). -/
def sqrt (nan x : F32) : F32 :=
  match unpack x with
  | .nan => nan
  | .inf neg => if neg then nan else infinity false
  | .fin neg u =>
    if u = 0 then pack neg 0
    else if neg then nan
    else roundTo false (stickyRoot (u * unitScale)) 2

/-- `cnum(q)`: the constant rounded once (R10). -/
def cnum (q : Ratio) : F32 := roundTo false (q.num * unitScale) q.den

/-- `toNum(n)` (R11). -/
def toNum (n : Int) : F32 := roundTo (n < 0) (n.natAbs * unitScale) 1

/-- A datum's place in the numeric order (R12): an infinity lies past every finite value, and a NaN has
none. -/
def orderKey (b : F32) : Option Int :=
  match unpack b with
  | .nan => none
  | .inf neg => some (signed neg (2 ^ 278))
  | .fin neg u => some (signed neg u)

/-- `x <= y`, numeric, so that +0 = -0 (R12). A comparison with a NaN does not hold; R123 shows that no
comparison meets one. -/
def le (x y : F32) : Bool :=
  match orderKey x, orderKey y with
  | some a, some b => a ≤ b
  | _, _ => false

/-- `floor(x)`, exact, of a finite `x` (R12). -/
def floor (x : F32) : Option Int :=
  match unpack x with
  | .fin neg u => some (signed neg u / (unitScale : Int))
  | _ => none

/-- `RND(x - m × floor(x / m))`, computed exactly and rounded once (R102). -/
def rem (nan x : F32) (m : Nat) : F32 :=
  match unpack x with
  | .fin neg u => roundTo false (signed neg u % ((m : Int) * (unitScale : Int))).natAbs 1
  | _ => nan

/-- Whether a phase lies in `[0, 1)` (R13). -/
def inUnit (p : F32) : Bool :=
  match unpack p with
  | .fin neg u => 0 ≤ signed neg u && signed neg u < (unitScale : Int)
  | _ => false

/-- `SIN2PI` (R13): 0, 1, 0 and -1 at the phases 0, 1/4, 1/2 and 3/4 (S2), a free value of magnitude at
most 1 at any other phase in `[0, 1)` (S1), and a free value elsewhere (log 6). -/
def sin2pi (p : F32) : F32 :=
  if inUnit p then
    if magBits p = 0 then 0x00000000#32
    else if p = 0x3E800000#32 then 0x3F800000#32
    else if p = 0x3F000000#32 then 0x00000000#32
    else if p = 0x3F400000#32 then 0xBF800000#32
    else pack (Config.sineInside p).1 (Config.sineInside p).2.val
  else Config.sineOutside p

/-- The arithmetic F32, in which every invalid operation gives `nan` (R7, R9). -/
def arith (nan : F32) : Arith F32 where
  add := add nan
  sub := sub nan
  mul := mul nan
  div := div nan
  sqrt := sqrt nan
  sin2pi := sin2pi
  cnum := cnum
  toNum := toNum
  ofBits := id
  le := le
  floor := floor
  rem := rem nan
  isPosZero := fun b => b = 0x00000000#32

/-- VIBCORE's configuration: F32 and the parameter values of R5. -/
def config (nan : F32) : Config F32 :=
  { arith nan with toParams := Params.vibcore, valid := by decide }

end Sys2Proof.Binary32
end

