-- ==== Sys2Proof/Machine/State.lean ====
section
/-! DEFINITION. The architectural state of VIBCORE (R30), for any arithmetic (R7): the engine's record,
and the machine's state, which is that record under F32 with the host's events not yet taken. Also the
reasons a step can stop, and the state after hardware reset (R180). -/

namespace Sys2Proof.Machine

/-- Why the model stops. Both are failures of a model, not hardware behaviour (R169), in states that no
run from reset reaches (log 8). -/
inductive Fault where
  /-- A buffer index outside `0 .. CAP-1` (R61), or a read position with no floor. Raised by `bufRead`,
  `bufWrite` and `interp`. Safe: the spec's rules show that it cannot occur. -/
  | bufferIndex
  /-- A crossfade step with `CNT >= TLEN` (R56, R115). Raised by `transitionStep`. Safe: the spec's rules
  show that it cannot occur. -/
  | counterRange
  deriving DecidableEq, Repr

/-- Why the model gives no meaning. -/
inductive Refusal where
  /-- An instruction that has no meaning yet. Raised by no arm of `exec`. Safe. -/
  | notModelled (mnemonic : String)
  /-- A configuration that breaks R6, refused when the model is built. Raised by `build`. Safe. -/
  | configuration
  deriving DecidableEq, Repr

/-- The fields of STATUS (R50, log 10). Its reserved bits have no storage: they read 0. -/
structure Status where
  /-- Bit 0. -/
  prepared : Bool
  /-- Bit 1, the crossfader's state (R46). -/
  trans : Bool
  /-- Bits 7:4, the result code of the most recent command (R160). -/
  last : BitVec 4
  /-- Bits 11:8, the cause of the most recent PREPARE rejection (R153). -/
  cfgCause : BitVec 4
  /-- Bit 16, set once any command has reported an error (R161). -/
  sticky : Bool
  deriving DecidableEq, Repr

/-- The state R30 lists, with `Num` values of type `N`. ID and MAXCAP are constants and have no storage
(R52, R53). -/
structure Engine (N : Type) where
  /-- FREQ (R31). -/
  freq : N
  /-- WIDTH (R32). -/
  width : N
  /-- GAIN (R33). -/
  gain : N
  /-- SR (R34). -/
  sr : Reg
  /-- MAXBLK (R35). -/
  maxblk : Reg
  /-- CAP (R36). -/
  cap : Reg
  /-- TLEN (R37). -/
  tlen : Reg
  /-- BUF (R38): index and word, in the canonical form of `bufWf`. -/
  buf : List (Nat × N)
  /-- WCUR (R39). -/
  wcur : Reg
  /-- PHASE (R40). -/
  phase : N
  /-- SFREQ (R41). -/
  sfreq : N
  /-- SWIDTH (R42). -/
  swidth : N
  /-- SGAIN (R43). -/
  sgain : N
  /-- AW (R44). -/
  aw : N
  /-- PW (R45). -/
  pw : N
  /-- CNT (R47). -/
  cnt : Reg
  /-- OUT_L (R48). -/
  outL : N
  /-- OUT_R (R49). -/
  outR : N
  /-- STATUS (R50). -/
  status : Status
  /-- FIRSTERR_LO (R51). -/
  firstErrLo : Reg
  /-- FIRSTERR_HI (R51). -/
  firstErrHi : Reg
  deriving DecidableEq, Repr

/-- What the host does to the block between two commands' executions: it issues a command word (R2,
R80) or applies the hardware reset (R180). -/
inductive HostEvent where
  | command (w : Word)
  | reset
  deriving DecidableEq, Repr

/-- The machine: the state of R30 under `ARITH = F32`, and two fields of the model's own. -/
structure State extends Engine F32 where
  /-- The model's own: the host's events not yet taken, oldest first (log 1). -/
  pending : List HostEvent
  /-- The model's own: numbers the free NaN values already used (log 5). -/
  nanTick : Nat
  deriving DecidableEq, Repr

/-- The engine after hardware reset (R180). Nothing is listed in the buffer, whose contents R180 leaves
unspecified (log 3). -/
def Engine.reset {N : Type} (C : Config N) : Engine N where
  freq := C.cnum C.defFreq
  width := C.cnum C.defWidth
  gain := C.cnum C.defGain
  sr := 0#32
  maxblk := 0#32
  cap := 0#32
  tlen := 0#32
  buf := []
  wcur := 0#32
  phase := C.toNum 0
  sfreq := C.toNum 0
  swidth := C.toNum 0
  sgain := C.toNum 0
  aw := C.toNum 0
  pw := C.toNum 0
  cnt := 0#32
  outL := C.toNum 0
  outR := C.toNum 0
  status := { prepared := false, trans := false, last := 0#4, cfgCause := 0#4, sticky := false }
  firstErrLo := 0#32
  firstErrHi := 0#32

/-- The machine right after hardware reset (R180): no host event is pending (log 1). -/
def State.reset : State where
  toEngine := Engine.reset (Binary32.config 0x7FC00000#32)
  pending := []
  nanTick := 0

end Sys2Proof.Machine
end

