-- ==== Sys2Proof/Machine/Flags.lean ====
section
/-! DEFINITION. STATUS and the error capture: the result codes (R160), the primitive `report` (R161), and
STATUS as the read port shows it (R50). -/

namespace Sys2Proof.Machine

/-- The result codes (R160). -/
inductive ResultCode where
  | ok
  | okClamped
  | illegalOpcode
  | reservedBits
  | notPrepared
  | configRejected
  | nonfiniteOperand
  | nonfiniteInput
  deriving DecidableEq, Repr

/-- The number of a result code (R160). -/
def ResultCode.code : ResultCode → BitVec 4
  | .ok => 0#4
  | .okClamped => 1#4
  | .illegalOpcode => 2#4
  | .reservedBits => 3#4
  | .notPrepared => 4#4
  | .configRejected => 5#4
  | .nonfiniteOperand => 6#4
  | .nonfiniteInput => 7#4

/-- Whether a code's class is "error": codes 2 and above (R160, R161). -/
def ResultCode.isError (c : ResultCode) : Bool := 2#4 ≤ c.code

/-- Bits 31:0 of a command word, what FIRSTERR_LO captures (R51). -/
def wordLo (w : Word) : Reg := w.extractLsb' 0 32

/-- Bits 63:32 of a command word, what FIRSTERR_HI captures (R51). -/
def wordHi (w : Word) : Reg := w.extractLsb' 32 32

variable {N : Type}

/-- `report(code)` for the command word `w` being executed (R161): the code goes to LAST; an error code
sets STICKY, and the first one since reset captures the word. -/
def report (c : ResultCode) (w : Word) (e : Engine N) : Engine N :=
  if c.isError then
    { e with
      status := { e.status with last := c.code, sticky := true }
      firstErrLo := if e.status.sticky then e.firstErrLo else wordLo w
      firstErrHi := if e.status.sticky then e.firstErrHi else wordHi w }
  else { e with status := { e.status with last := c.code } }

/-- A bit as a 32-bit value. -/
def bit (b : Bool) : Reg := if b then 1#32 else 0#32

/-- STATUS as read: every field at its place, every reserved bit 0 (R50). -/
def Status.word (st : Status) : Reg :=
  bit st.prepared ||| bit st.trans <<< 1 ||| st.last.setWidth 32 <<< 4
    ||| st.cfgCause.setWidth 32 <<< 8 ||| bit st.sticky <<< 16

end Sys2Proof.Machine
end

