-- ==== Sys2Proof/Machine/Operands.lean ====
section
/-! DEFINITION. Operands and numeric helpers: comparisons, `min`, `max` and the clamp over any
arithmetic (R12, R140), and the operand of format V (R84). -/

namespace Sys2Proof.Machine

variable {N : Type}

/-- Numeric `x < y` (R12). -/
def numLt (C : Config N) (x y : N) : Bool := C.le x y && !C.le y x

/-- Numeric `x = y` (R12). -/
def numEq (C : Config N) (x y : N) : Bool := C.le x y && C.le y x

/-- `max` (R12). -/
def numMax (C : Config N) (x y : N) : N := if numLt C x y then y else x

/-- `min` (R12). -/
def numMin (C : Config N) (x y : N) : N := if numLt C y x then y else x

/-- `min(max(v, lo), hi)` (R140). -/
def clamp (C : Config N) (lo hi v : N) : N := numMin C (numMax C v lo) hi

/-- The input sample of PROCESS: the operand's datum, or +0 where it is not finite (R84, R130). -/
def inputSample (C : Config N) (bits : F32) : N :=
  if Binary32.isFinite bits then C.ofBits bits else C.toNum 0

/-- An unsigned register as an integer (R11). -/
def regInt (r : Reg) : Int := (r.toNat : Int)

end Sys2Proof.Machine
end

