-- ==== Sys2Proof/Machine/Ops.lean ====
section
/-! DEFINITION. The named operations on the state: the delay buffer (R38, R61 to R64), the read port
(R54), taking the next host event (R69), the hardware reset (R180), the effect of a word that is no
command (R86, R87), and building a configuration (R6). VIBCORE has no exception to take and none to
return from (R164): `report` in Flags.lean is the one shared operation by which an error is recorded. -/

namespace Sys2Proof.Machine

variable {N : Type}

/-- The words of a buffer list: the listed one, or what an unlisted index reads as, +0 (log 3). -/
def bufLookup (zero : N) : List (Nat × N) → Nat → N
  | [], _ => zero
  | (j, v) :: rest, i => if j = i then v else bufLookup zero rest i

/-- The list with `(i, v)` in front, unless `v` is the word an unlisted index reads as. -/
def bufCons (isZero : N → Bool) (i : Nat) (v : N) (rest : List (Nat × N)) : List (Nat × N) :=
  if isZero v then rest else (i, v) :: rest

/-- A buffer list with the word at `i` set to `v`, in canonical form. -/
def bufInsert (isZero : N → Bool) (i : Nat) (v : N) : List (Nat × N) → List (Nat × N)
  | [] => bufCons isZero i v []
  | (j, u) :: rest =>
    if i < j then bufCons isZero i v ((j, u) :: rest)
    else if i = j then bufCons isZero i v rest
    else (j, u) :: bufInsert isZero i v rest

/-- The canonical form of the buffer: indices strictly rise, each is an index of the buffer (R38), and no
listed word is the one an unlisted index reads as. -/
def bufWf (C : Config N) (b : List (Nat × N)) : Bool :=
  decide (b.Pairwise (fun x y => x.1 < y.1))
    && b.all (fun c => c.1 < C.maxCapacity && !C.isPosZero c.2)

/-- `BufRead(i)` (R61). -/
def bufRead (C : Config N) (e : Engine N) (i : Int) : Except Fault N :=
  if 0 ≤ i ∧ i < regInt e.cap then .ok (bufLookup (C.toNum 0) e.buf i.toNat)
  else .error .bufferIndex

/-- `BufWrite(i, v)` (R61). -/
def bufWrite (C : Config N) (i : Int) (v : N) (e : Engine N) : Except Fault (Engine N) :=
  if 0 ≤ i ∧ i < regInt e.cap then
    .ok { e with buf := bufInsert C.isPosZero i.toNat v e.buf }
  else .error .bufferIndex

/-- PREPARE's loop `for j in 0 .. cap - 1: BufWrite(j, +0)`: every word below `cap` reads +0 and every
other word stays (R63, R154). -/
def bufClear (cap : Nat) (b : List (Nat × N)) : List (Nat × N) := b.filter (fun c => cap ≤ c.1)

/-- The index of logical position `j` in a buffer of `cap` words: the non-negative `j mod cap` (R12,
R64). -/
def circular (cap : Reg) (j : Int) : Int := j % regInt cap

/-- What the read port shows of a register: a `Num` value or a 32-bit word (R54). -/
inductive PortValue (N : Type) where
  | num (v : N)
  | word (b : Reg)
  deriving DecidableEq, Repr

/-- The read port's map (R54). -/
def portValue (C : Config N) (e : Engine N) (a : BitVec 8) : PortValue N :=
  match a.toNat with
  | 0x00 => .word C.idValue
  | 0x01 => .word e.status.word
  | 0x02 => .num e.outL
  | 0x03 => .num e.outR
  | 0x04 => .num e.freq
  | 0x05 => .num e.width
  | 0x06 => .num e.gain
  | 0x07 => .word e.sr
  | 0x08 => .word e.maxblk
  | 0x09 => .word e.cap
  | 0x0A => .word e.tlen
  | 0x0B => .word e.wcur
  | 0x0C => .num e.phase
  | 0x0D => .num e.sfreq
  | 0x0E => .num e.swidth
  | 0x0F => .num e.sgain
  | 0x10 => .num e.aw
  | 0x11 => .num e.pw
  | 0x12 => .word e.cnt
  | 0x13 => .word (BitVec.ofNat 32 C.maxCapacity)
  | 0x14 => .word e.firstErrLo
  | 0x15 => .word e.firstErrHi
  | _ => .word 0#32

/-- The 32 bits of a port value under F32: a `Num` reads as its pattern (R54). -/
def PortValue.bits : PortValue F32 → Reg
  | .num v => v
  | .word b => b

/-- The NaN that the invalid operations of the state's next sample step give (R9, log 5). -/
def freeNaN (s : State) : F32 := Binary32.nanOf (Config.nanChoice s.nanTick)

/-- The configuration the machine runs with: F32, the parameters of R5, and the state's free NaN. -/
def State.config (s : State) : Config F32 := Binary32.config (freeNaN s)

/-- The read port: an 8-bit address to 32 bits, a function of the state (R54, R55). -/
def readPort (s : State) (a : BitVec 8) : Reg := (portValue s.config s.toEngine a).bits

/-- A read of the port as the bytes of a byte-wide transport (R65). -/
def readPortBytes (s : State) (a : BitVec 8) : List Byte := regBytes (readPort s a)

/-- The machine's outcome of an engine's: the new engine in the same machine, or the fault. -/
def State.withEngine (s : State) : Except Fault (Engine F32) → Host.Outcome State Fault Refusal
  | .ok e => .next { s with toEngine := e }
  | .error f => .fault f

/-- The host's next event, taken off the stream (R69). -/
def takeEvent (s : State) : Option (HostEvent × State) :=
  match s.pending with
  | [] => none
  | ev :: rest => some (ev, { s with pending := rest })

/-- Hardware reset, between two commands (R180). The host's later events stay, and the free NaN values
already used stay used (log 11). -/
def hardwareReset (s : State) : State where
  toEngine := State.reset.toEngine
  pending := s.pending
  nanTick := s.nanTick

/-- A word with an illegal opcode: `report(ILLEGAL_OPCODE)` and no other effect (R86). -/
def illegalWord (w : Word) (s : State) : State :=
  { s with toEngine := report .illegalOpcode w s.toEngine }

/-- A word with a legal opcode and a nonzero reserved field: `report(RESERVED_BITS)` and no other
effect (R87). -/
def reservedWord (w : Word) (s : State) : State :=
  { s with toEngine := report .reservedBits w s.toEngine }

/-- Building the model with the arithmetic `A`, R7's argument `ARITH`, and parameters `P`: a configuration
that breaks R6 is refused, under F32 and under REAL alike (R6, R169). -/
def build (A : Arith N) (P : Params) : Except Refusal (Config N) :=
  if h : P.wellFormed = true then .ok { A with toParams := P, valid := h } else .error .configuration

end Sys2Proof.Machine
end

