-- ==== Sys2Proof/Machine/Lifecycle.lean ====
section
/-! DEFINITION. NOP (R150) and PREPARE (R151 to R157), over any arithmetic, and their meanings on the
machine. -/

namespace Sys2Proof.Machine

variable {N : Type}

/-- NOP on the engine: `report(OK)` (R150). -/
def nop (w : Word) (e : Engine N) : Engine N := report .ok w e

/-- The PREPARE rejection causes (R153). -/
inductive Cause where
  | srZero
  | srRange
  | capRange
  | reach
  | tlenZero
  | phase
  deriving DecidableEq, Repr

/-- The number of a cause, for STATUS.CFGCAUSE (R153). -/
def Cause.code : Cause → BitVec 4
  | .srZero => 1#4
  | .srRange => 2#4
  | .capRange => 3#4
  | .reach => 4#4
  | .tlenZero => 5#4
  | .phase => 6#4

/-- `ceil(a / b)` of natural numbers (R12). -/
def ceilDiv (a b : Nat) : Nat := (a + (b - 1)) / b

/-- `N = ceil(CAP_FACTOR × MAX_WIDTH × sr)`, exact (R152). -/
def capacityOf (P : Params) (sr : Nat) : Nat :=
  ceilDiv (P.capFactor.num * P.maxWidth.num * sr) (P.capFactor.den * P.maxWidth.den)

/-- `L = floor(TRANS_TIME × sr)`, exact (R152). -/
def transitionOf (P : Params) (sr : Nat) : Nat := P.transTime.num * sr / P.transTime.den

/-- `ceil(MAX_WIDTH × sr) + GUARD + 3`, the capacity that the taps' reach needs (R111, R153). -/
def reachOf (P : Params) (sr : Nat) : Nat :=
  ceilDiv (P.maxWidth.num * sr) P.maxWidth.den + P.guard + 3

/-- `PREPARE_CHECK(sr)`: the first check that fails, in the order of R153. -/
def prepareCheck (P : Params) (sr : Nat) : Option Cause :=
  if sr = 0 then some .srZero
  else if P.srMax < sr then some .srRange
  else if P.maxCapacity < capacityOf P sr then some .capRange
  else if capacityOf P sr < reachOf P sr then some .reach
  else if transitionOf P sr = 0 then some .tlenZero
  else if sr * P.freqMax.den ≤ 2 * P.freqMax.num then some .phase
  else none

/-- `PREPARE_INIT()` (R154). -/
def prepareInit (C : Config N) (e : Engine N) : Engine N :=
  { e with
    buf := bufClear e.cap.toNat e.buf
    wcur := 0#32
    phase := C.toNum 0
    sfreq := e.freq
    swidth := e.width
    sgain := e.gain
    aw := e.width
    pw := e.width
    status := { e.status with trans := false }
    cnt := 0#32
    outL := C.toNum 0
    outR := C.toNum 0 }

/-- The configuration registers of a PREPARE that is accepted (R151). -/
def setSizes (P : Params) (sr : BitVec 32) (blk : BitVec 24) (e : Engine N) : Engine N :=
  { e with
    sr := sr
    maxblk := blk.setWidth 32
    cap := BitVec.ofNat 32 (capacityOf P sr.toNat)
    tlen := BitVec.ofNat 32 (transitionOf P sr.toNat) }

/-- STATUS.PREPARED and STATUS.CFGCAUSE set to the outcome of a PREPARE (R151). -/
def setPrepared (prepared : Bool) (cause : BitVec 4) (e : Engine N) : Engine N :=
  { e with status := { e.status with prepared := prepared, cfgCause := cause } }

/-- PREPARE on the engine, for the command word `w` (R151, R155). -/
def prepare (C : Config N) (sr : BitVec 32) (blk : BitVec 24) (w : Word) (e : Engine N) : Engine N :=
  match prepareCheck C.toParams sr.toNat with
  | some cause => report .configRejected w (setPrepared false cause.code e)
  | none => report .ok w (setPrepared true 0#4 (prepareInit C (setSizes C.toParams sr blk e)))

/-- The meaning of NOP (R150). -/
def execNop (s : State) : Host.Outcome State Fault Refusal :=
  s.withEngine (.ok (nop (encode .nop) s.toEngine))

/-- The meaning of PREPARE (R151). -/
def execPrepare (sr : BitVec 32) (blk : BitVec 24) (s : State) : Host.Outcome State Fault Refusal :=
  s.withEngine (.ok (prepare s.config sr blk (encode (.prepare sr blk)) s.toEngine))

end Sys2Proof.Machine
end

