-- ==== Sys2Proof/Machine/DataPath.lean ====
section
/-! DEFINITION. The data path of the sample step (R100 to R121), over any arithmetic (R7). Each function
follows the pseudocode of its rule operation by operation, in the order R8 fixes. -/

namespace Sys2Proof.Machine

variable {N : Type}

/-- `cnum(1/2)` (R108). -/
def half (C : Config N) : N := C.cnum ⟨1, 2⟩

/-- `MODF(x, m)` (R102). -/
def modf (C : Config N) (x : N) (m : Nat) : N :=
  if numEq C (C.rem x m) (C.toNum m) then C.toNum 0 else C.rem x m

/-- The argument of MODF in `READPOS(d)` (R103). -/
def readArg (C : Config N) (e : Engine N) (d : N) : N :=
  C.sub
    (C.add (C.sub (C.toNum (regInt e.wcur)) (C.mul d (C.toNum (regInt e.sr))))
      (C.toNum (regInt e.cap)))
    (C.toNum C.guard)

/-- `READPOS(d)` (R103). -/
def readPos (C : Config N) (e : Engine N) (d : N) : N := modf C (readArg C e d) e.cap.toNat

/-- The cubic of R105 at offset `a` through the taps `s0` to `s3`: `((t0 + t1) + t2) + t3`. -/
def cubic (C : Config N) (a s0 s1 s2 s3 : N) : N :=
  let am1 := C.sub a (C.toNum 1)
  let am2 := C.sub a (C.toNum 2)
  let ap1 := C.add a (C.toNum 1)
  let t0 := C.div (C.mul (C.mul (C.mul a am1) am2) s0) (C.toNum (-6))
  let t1 := C.div (C.mul (C.mul (C.mul am1 ap1) am2) s1) (C.toNum 2)
  let t2 := C.div (C.mul (C.mul (C.mul a ap1) am2) s2) (C.toNum (-2))
  let t3 := C.div (C.mul (C.mul (C.mul a ap1) am1) s3) (C.toNum 6)
  C.add (C.add (C.add t0 t1) t2) t3

/-- `INTERP(pos)`: the four taps around `floor(pos)`, each index circular, and the cubic through them
(R104, R105). -/
def interp (C : Config N) (e : Engine N) (pos : N) : Except Fault N :=
  match C.floor pos with
  | none => .error .bufferIndex
  | some i => do
    let s0 ← bufRead C e (circular e.cap (i - 1))
    let s1 ← bufRead C e i
    let s2 ← bufRead C e (circular e.cap (i + 1))
    let s3 ← bufRead C e (circular e.cap (i + 2))
    .ok (cubic C (C.sub pos (C.toNum i)) s0 s1 s2 s3)

/-- `DELAY(w)` at phase `p` (R108). -/
def delay (C : Config N) (p w : N) : N :=
  C.mul w (C.add (half C) (C.mul (half C) (C.sin2pi p)))

/-- `SAMPLE(w)` (R110). -/
def sample (C : Config N) (e : Engine N) (w : N) : Except Fault N :=
  interp C e (readPos C e (delay C e.phase w))

/-- `SMOOTH(p, s)` (R112). -/
def smooth (C : Config N) (p s : N) : N :=
  C.add (C.mul (C.sub (C.toNum 1) (C.cnum C.k)) p) (C.mul (C.cnum C.k) s)

/-- The three smoothers of a sample step (R112). -/
def smoothAll (C : Config N) (e : Engine N) : Engine N :=
  { e with
    sfreq := smooth C e.freq e.sfreq
    swidth := smooth C e.width e.swidth
    sgain := smooth C e.gain e.sgain }

/-- `TRIGGER()`, the edge from Idle to Transitioning (R114). -/
def trigger (C : Config N) (e : Engine N) : Engine N :=
  if !e.status.trans && !numEq C e.swidth e.aw then
    { e with pw := e.aw, aw := e.swidth, cnt := 0#32, status := { e.status with trans := true } }
  else e

/-- `WEIGHTS(c, L)` (R115). -/
def weights (C : Config N) (c len : Nat) : N × N :=
  let r := C.div (C.toNum c) (C.toNum len)
  (C.sqrt (C.sub (C.toNum 1) r), C.sqrt r)

/-- The equal-power blend `(f1 × yp) + (f2 × ya)` at counter `c` of a transition of length `len`
(R116). -/
def blend (C : Config N) (c len : Nat) (yp ya : N) : N :=
  C.add (C.mul (weights C c len).1 yp) (C.mul (weights C c len).2 ya)

/-- The counter's increment and the edge from Transitioning to Idle (R116). -/
def countStep (e : Engine N) : Engine N :=
  if e.cnt + 1#32 = e.tlen then
    { e with cnt := e.cnt + 1#32, pw := e.aw, status := { e.status with trans := false } }
  else { e with cnt := e.cnt + 1#32 }

/-- `TRANSITION_STEP(yp, ya)` (R116): the blended value, and the state after the count. The rule's inputs
have `CNT < TLEN` (R115); another counter is a model fault (R169, log 8). -/
def transitionStep (C : Config N) (yp ya : N) (e : Engine N) : Except Fault (N × Engine N) :=
  if e.cnt.toNat < e.tlen.toNat then
    .ok (blend C e.cnt.toNat e.tlen.toNat yp ya, countStep e)
  else .error .counterRange

/-- The crossfader's part of a sample step: the active-width read alone when Idle (R117), and with the
previous-width read and the blend when Transitioning (R116, R130). -/
def crossfade (C : Config N) (e : Engine N) : Except Fault (N × Engine N) := do
  let ya ← sample C e e.aw
  if e.status.trans then do
    let yp ← sample C e e.pw
    transitionStep C yp ya e
  else .ok (ya, e)

/-- `OUTPUT(y)` (R120). -/
def output (C : Config N) (y : N) (e : Engine N) : Engine N :=
  { e with outL := C.mul y e.sgain, outR := C.mul y e.sgain }

/-- `WRITE_PATH(x)` (R100). -/
def writePath (C : Config N) (x : N) (e : Engine N) : Except Fault (Engine N) := do
  let e' ← bufWrite C (regInt e.wcur) x e
  .ok { e' with wcur := BitVec.ofNat 32 ((e.wcur.toNat + 1) % e.cap.toNat) }

/-- The phase one sample later: `p + f / sr`, less 1 where that reaches 1 (R121). -/
def nextPhase (C : Config N) (p f : N) (sr : Reg) : N :=
  let ph := C.add p (C.div f (C.toNum (regInt sr)))
  if C.le (C.toNum 1) ph then C.sub ph (C.toNum 1) else ph

/-- `LFO_ADVANCE()` (R121). -/
def lfoAdvance (C : Config N) (e : Engine N) : Engine N :=
  { e with phase := nextPhase C e.phase e.sfreq e.sr }

/-- One sample step on input `x`, in the order of R130: smoothers, trigger, reads and crossfade, output,
write path, LFO advance. -/
def sampleStep (C : Config N) (x : N) (e : Engine N) : Except Fault (Engine N) := do
  let (y, e1) ← crossfade C (trigger C (smoothAll C e))
  let e2 ← writePath C x (output C y e1)
  .ok (lfoAdvance C e2)

end Sys2Proof.Machine
end

