-- ==== Sys2Proof/Machine/Process.lean ====
section
/-! DEFINITION. PROCESS, the sample step (R130 to R137), over any arithmetic, and its meaning on the
machine. -/

namespace Sys2Proof.Machine

variable {N : Type}

/-- The code of a sample step that ran: OK, or NONFINITE_INPUT where the operand was replaced (R130,
R132). -/
def inputCode (bits : F32) : ResultCode :=
  if Binary32.isFinite bits then .ok else .nonfiniteInput

/-- PROCESS on the engine, for the command word `w` (R130). -/
def process (C : Config N) (bits : F32) (w : Word) (e : Engine N) : Except Fault (Engine N) :=
  if e.status.prepared then do
    let e' ← sampleStep C (inputSample C bits) e
    .ok (report (inputCode bits) w e')
  else .ok (report .notPrepared w e)

/-- The free NaN values used once a PROCESS is taken: one by a sample step, none by a PROCESS that is
refused (log 5). -/
def nextTick (s : State) : Nat := if s.status.prepared then s.nanTick + 1 else s.nanTick

/-- The meaning of PROCESS (R130). -/
def execProcess (bits : F32) (s : State) : Host.Outcome State Fault Refusal :=
  State.withEngine { s with nanTick := nextTick s }
    (process s.config bits (encode (.process bits)) s.toEngine)

end Sys2Proof.Machine
end

