-- ==== Sys2Proof/Machine/Setters.lean ====
section
/-! DEFINITION. The parameter setters SETFREQ, SETWIDTH and SETGAIN (R140 to R145), over any arithmetic,
and their meanings on the machine. -/

namespace Sys2Proof.Machine

variable {N : Type}

/-- The code of a finite operand: OK_CLAMPED where the clamp changed it, numerically (R140). -/
def clampCode (C : Config N) (lo hi v : N) : ResultCode :=
  if numEq C (clamp C lo hi v) v then .ok else .okClamped

/-- `SET(REG, bits, lo, hi)` (R140), where `put` writes REG. -/
def setParam (C : Config N) (put : N → Engine N → Engine N) (lo hi : N) (bits : F32) (w : Word)
    (e : Engine N) : Engine N :=
  if Binary32.isFinite bits then
    report (clampCode C lo hi (C.ofBits bits)) w (put (clamp C lo hi (C.ofBits bits)) e)
  else report .nonfiniteOperand w e

/-- A write of FREQ (R31). -/
def putFreq (v : N) (e : Engine N) : Engine N := { e with freq := v }

/-- A write of WIDTH (R32). -/
def putWidth (v : N) (e : Engine N) : Engine N := { e with width := v }

/-- A write of GAIN (R33). -/
def putGain (v : N) (e : Engine N) : Engine N := { e with gain := v }

/-- SETFREQ on the engine: the range is `[FREQ_MIN, FREQ_MAX]` (R141). -/
def setFreq (C : Config N) (bits : F32) (w : Word) (e : Engine N) : Engine N :=
  setParam C putFreq (C.cnum C.freqMin) (C.cnum C.freqMax) bits w e

/-- SETWIDTH on the engine: the range is `[WIDTH_MIN, WIDTH_MAX]`, and `WIDTH_MAX` is `MAX_WIDTH`
(R142). -/
def setWidth (C : Config N) (bits : F32) (w : Word) (e : Engine N) : Engine N :=
  setParam C putWidth (C.cnum C.widthMin) (C.cnum C.maxWidth) bits w e

/-- SETGAIN on the engine: the range is `[GAIN_MIN_LIN, GAIN_MAX_LIN]`, linear (R143). -/
def setGain (C : Config N) (bits : F32) (w : Word) (e : Engine N) : Engine N :=
  setParam C putGain (C.cnum C.gainMin) (C.cnum C.gainMax) bits w e

/-- The meaning of SETFREQ (R141). -/
def execSetfreq (bits : F32) (s : State) : Host.Outcome State Fault Refusal :=
  s.withEngine (.ok (setFreq s.config bits (encode (.setfreq bits)) s.toEngine))

/-- The meaning of SETWIDTH (R142). -/
def execSetwidth (bits : F32) (s : State) : Host.Outcome State Fault Refusal :=
  s.withEngine (.ok (setWidth s.config bits (encode (.setwidth bits)) s.toEngine))

/-- The meaning of SETGAIN (R143). -/
def execSetgain (bits : F32) (s : State) : Host.Outcome State Fault Refusal :=
  s.withEngine (.ok (setGain s.config bits (encode (.setgain bits)) s.toEngine))

end Sys2Proof.Machine
end

