-- ==== Sys2Proof/Machine/Dispatch.lean ====
section
/-! DEFINITION. The dispatch of a decoded command to its meaning: one arm per constructor of Instr. -/

namespace Sys2Proof.Machine

/-- A command executed to completion (R2, R85). -/
def exec (i : Instr) (s : State) : Host.Outcome State Fault Refusal :=
  match i with
  | .nop => Sys2Proof.Machine.execNop s
  | .prepare sr blk => Sys2Proof.Machine.execPrepare sr blk s
  | .process bits => Sys2Proof.Machine.execProcess bits s
  | .setfreq bits => Sys2Proof.Machine.execSetfreq bits s
  | .setwidth bits => Sys2Proof.Machine.execSetwidth bits s
  | .setgain bits => Sys2Proof.Machine.execSetgain bits s

end Sys2Proof.Machine
end

