-- ==== Sys2Proof/Machine/Step.lean ====
section
/-! DEFINITION. One step of the machine: the host's next event is taken off the stream, and a command
word is decoded and executed. -/

namespace Sys2Proof.Machine

/-- One step. With no event pending the block holds its state (R175, log 2). A hardware reset acts
between commands (R180). A command word is decoded (R89); a word that is no command only reports (R86,
R87); a command runs to completion (R2, R67). -/
def step (s : State) : Host.Outcome State Fault Refusal :=
  match takeEvent s with
  | none => .next s
  | some (.reset, s') => .next (hardwareReset s')
  | some (.command w, s') =>
    match decode w with
    | .illegal => .next (illegalWord w s')
    | .reserved => .next (reservedWord w s')
    | .instr i => exec i s'

/-- The state in which the next step takes the command word numbered `w` in the opcode table: the word
stands at the head of the host's stream (log 1). -/
def State.withFetchWord (s : State) (nbits w : Nat) : State :=
  { s with pending := .command (tableWord nbits w) :: s.pending }

end Sys2Proof.Machine
end

