-- ==== Sys2Proof/Machine/Assembler.lean ====
section
/-! DEFINITION. The assembler of R90 and R91: the text of a line, its value literals, its
pseudo-instructions, and the command words it stands for. The block does none of this; its step never
calls it (log 13). -/

namespace Sys2Proof.Assembler

/-- The numerator and denominator of a decimal literal's magnitude. -/
def decimalRatio (d : Decimal) : Ratio := ⟨d.digits * 10 ^ d.exp.toNat, 10 ^ (-d.exp).toNat⟩

/-- The binary32 nearest a decimal literal, ties to even (R90). -/
def decimalBits (d : Decimal) : F32 :=
  Binary32.roundTo d.neg ((decimalRatio d).num * Binary32.unitScale) (decimalRatio d).den

/-- The pattern of a value (R90). -/
def valueBits : Value → F32
  | .decimal d => decimalBits d
  | .inf false => 0x7F800000#32
  | .inf true => 0xFF800000#32
  | .nan => 0x7FC00000#32
  | .bits b => BitVec.ofNat 32 b

/-- How `(u / 2^s)` compares with `10^(g/20)`: both are raised to the power 20 times the denominator of
`g`, which leaves natural numbers (R91). -/
def compareDb (g : Decimal) (u s : Nat) : Ordering :=
  let p := (decimalRatio g).num
  let e := 20 * (decimalRatio g).den
  if g.neg then compare (u ^ e * 10 ^ p) (2 ^ (s * e)) else compare (u ^ e) (10 ^ p * 2 ^ (s * e))

/-- The largest finite magnitude pattern whose value is at most `10^(g/20)`, bit by bit from `2^bits`
downwards. -/
def dbFloor (g : Decimal) : Nat → Nat → Nat
  | 0, acc => acc
  | b + 1, acc =>
    if acc + 2 ^ b < Binary32.infMag
        && (compareDb g (Binary32.magUnits (acc + 2 ^ b)) 149).isLE then
      dbFloor g b (acc + 2 ^ b)
    else dbFloor g b acc

/-- The binary32 nearest `10^(g/20)`, ties to even: the pattern below it, or the next one, by the side
on which the middle of the two lies (R91). -/
def dbBits (g : Decimal) : F32 :=
  let m := dbFloor g 31 0
  match compareDb g (Binary32.magUnits m + Binary32.magUnits (m + 1)) 150 with
  | .lt => BitVec.ofNat 32 (m + 1)
  | .eq => BitVec.ofNat 32 (if m % 2 = 0 then m else m + 1)
  | .gt => BitVec.ofNat 32 m

/-- The words of a well-formed line: a command's encoding, or a pseudo-instruction's expansion (R90,
R91). -/
def lineWords : AsmLine → List Word
  | .nop => [encode .nop]
  | .prepare sr blk => [encode (.prepare (BitVec.ofNat 32 sr) (BitVec.ofNat 24 blk))]
  | .process v => [encode (.process (valueBits v))]
  | .setfreq v => [encode (.setfreq (valueBits v))]
  | .setwidth v => [encode (.setwidth (valueBits v))]
  | .setgain v => [encode (.setgain (valueBits v))]
  | .word64 w => [BitVec.ofNat 64 w]
  | .block vs => vs.map (fun v => encode (.process (valueBits v)))
  | .silence n => List.replicate n (encode (.process 0x00000000#32))
  | .setgaindb g => [encode (.setgain (dbBits g))]

/-- Assembling a line; an operand outside its range is refused (R90). -/
def assemble (l : AsmLine) : Option (List Word) :=
  if l.wellFormed then some (lineWords l) else none

/-- A piece of a line: a word of characters or a comma. -/
inductive Token where
  | word (cs : List Char)
  | comma
  deriving DecidableEq, Repr

/-- A word, unless it is empty. -/
def wordToken (cs : List Char) : List Token := if cs.isEmpty then [] else [.word cs.reverse]

/-- The pieces of a line, up to a comment; `cur` is the word being read, last character first. -/
def tokens : List Char → List Char → List Token
  | cur, [] => wordToken cur
  | cur, c :: cs =>
    if c = ';' then wordToken cur
    else if c = ',' then wordToken cur ++ .comma :: tokens [] cs
    else if c = ' ' || c = '\t' then wordToken cur ++ tokens [] cs
    else tokens (c :: cur) cs

/-- A digit's value, below the base. -/
def digit (base : Nat) (c : Char) : Option Nat :=
  let v :=
    if '0' ≤ c && c ≤ '9' then c.toNat - '0'.toNat
    else if 'a' ≤ c && c ≤ 'f' then c.toNat - 'a'.toNat + 10
    else if 'A' ≤ c && c ≤ 'F' then c.toNat - 'A'.toNat + 10
    else base
  if v < base then some v else none

/-- The number that digits denote, after `acc`. -/
def digits (base : Nat) : Nat → List Char → Option Nat
  | acc, [] => some acc
  | acc, c :: cs =>
    match digit base c with
    | some v => digits base (acc * base + v) cs
    | none => none

/-- A non-empty string of digits. -/
def digitString (base : Nat) (cs : List Char) : Option Nat :=
  if cs.isEmpty then none else digits base 0 cs

/-- An unsigned integer, decimal or `0x` and hexadecimal digits (R90). -/
def integer : List Char → Option Nat
  | '0' :: 'x' :: cs => digitString 16 cs
  | cs => digitString 10 cs

/-- A sign and the rest. -/
def sign : List Char → Bool × List Char
  | '-' :: cs => (true, cs)
  | '+' :: cs => (false, cs)
  | cs => (false, cs)

/-- The part before the first character that `p` holds of, and the part after it, if there is one. -/
def splitAt (p : Char → Bool) : List Char → List Char × Option (List Char)
  | [] => ([], none)
  | c :: cs => if p c then ([], some cs) else ((c :: (splitAt p cs).1), (splitAt p cs).2)

/-- A decimal exponent: none given is 0. -/
def exponent : Option (List Char) → Option Int
  | none => some 0
  | some cs => (digitString 10 (sign cs).2).map (fun n => if (sign cs).1 then -(n : Int) else n)

/-- A decimal floating literal, optionally signed, with optional exponent (R90). -/
def decimal (cs : List Char) : Option Decimal :=
  let (neg, body) := sign cs
  let (mantissa, expPart) := splitAt (fun c => c = 'e' || c = 'E') body
  let (whole, fracPart) := splitAt (fun c => c = '.') mantissa
  let frac := fracPart.getD []
  match digitString 10 (whole ++ frac), exponent expPart with
  | some n, some e => some ⟨neg, n, e - frac.length⟩
  | _, _ => none

/-- `bits(0x…)`: the hexadecimal digits up to the closing parenthesis (R90). R90 writes eight of them.
DESIGN CHOICE (log 13): any number of digits is read, and `Value.wellFormed` refuses a value of 2^32 or
more. -/
def rawBits : List Char → Option Nat
  | 'b' :: 'i' :: 't' :: 's' :: '(' :: '0' :: 'x' :: cs =>
    match splitAt (fun c => c = ')') cs with
    | (ds, some []) => digitString 16 ds
    | _ => none
  | _ => none

/-- A `<value>` (R90). -/
def value (cs : List Char) : Option Value :=
  if cs = ['i', 'n', 'f'] then some (.inf false)
  else if cs = ['-', 'i', 'n', 'f'] then some (.inf true)
  else if cs = ['n', 'a', 'n'] then some .nan
  else
    match rawBits cs with
    | some b => some (.bits b)
    | none => (decimal cs).map .decimal

/-- Values separated by commas (R91). -/
def values : List Token → Option (List Value)
  | [] => some []
  | [.word v] => (value v).map (fun x => [x])
  | .word v :: .comma :: rest =>
    match value v, rest, values rest with
    | some x, _ :: _, some xs => some (x :: xs)
    | _, _, _ => none
  | _ => none

/-- One value operand. -/
def oneValue (mk : Value → AsmLine) : List Token → Option AsmLine
  | [.word v] => (value v).map mk
  | _ => none

/-- The operands of the mnemonic `m` (R90, R91). R90 calls the operand of `.word64` `<hex64>` and does not say
how digits without `0x` read. DESIGN CHOICE (log 13): they are a decimal integer, as in `prepare`; so is
the count of `silence`. -/
def operands (m : List Char) (rest : List Token) : Option AsmLine :=
  if m = ['n', 'o', 'p'] then (if rest.isEmpty then some .nop else none)
  else if m = ['p', 'r', 'e', 'p', 'a', 'r', 'e'] then
    match rest with
    | [.word a, .comma, .word b] =>
      match integer a, integer b with
      | some sr, some blk => some (.prepare sr blk)
      | _, _ => none
    | _ => none
  else if m = ['p', 'r', 'o', 'c', 'e', 's', 's'] then oneValue .process rest
  else if m = ['s', 'e', 't', 'f', 'r', 'e', 'q'] then oneValue .setfreq rest
  else if m = ['s', 'e', 't', 'w', 'i', 'd', 't', 'h'] then oneValue .setwidth rest
  else if m = ['s', 'e', 't', 'g', 'a', 'i', 'n'] then oneValue .setgain rest
  else if m = ['.', 'w', 'o', 'r', 'd', '6', '4'] then
    match rest with
    | [.word a] => (integer a).map .word64
    | _ => none
  else if m = ['b', 'l', 'o', 'c', 'k'] then (values rest).map .block
  else if m = ['s', 'i', 'l', 'e', 'n', 'c', 'e'] then
    match rest with
    | [.word a] => (integer a).map .silence
    | _ => none
  else if m = ['s', 'e', 't', 'g', 'a', 'i', 'n', 'd', 'b'] then
    match rest with
    | [.word a] => (decimal a).map .setgaindb
    | _ => none
  else none

/-- A line of text: no command, one line, or an error (R90). -/
def parseLine (cs : List Char) : Option (List AsmLine) :=
  match tokens [] cs with
  | [] => some []
  | .word m :: rest => (operands m rest).map (fun l => [l])
  | .comma :: _ => none

/-- The words of a line of text. -/
def assembleLine (cs : List Char) : Option (List Word) :=
  match parseLine cs with
  | some [] => some []
  | some (l :: _) => assemble l
  | none => none

/-- The words of a program, line by line in order (R90). -/
def assembleProgram : List (List Char) → Option (List Word)
  | [] => some []
  | l :: ls =>
    match assembleLine l, assembleProgram ls with
    | some ws, some rest => some (ws ++ rest)
    | _, _ => none

end Sys2Proof.Assembler
end

