-- ==== Sys2Proof/Machine/Stream.lean ====
section
/-! DEFINITION. The command set over any configuration (R7): one command word, and a stream of them, on
the engine's record. Under `ARITH = REAL` this is the reference semantics the spec states its exact laws
of. Also the host's block call as a stream (R133). -/

namespace Sys2Proof.Machine

variable {N : Type}

/-- A decoded command on the engine, for the command word `w` (R85). -/
def runInstr (C : Config N) (i : Instr) (w : Word) (e : Engine N) : Except Fault (Engine N) :=
  match i with
  | .nop => .ok (nop w e)
  | .prepare sr blk => .ok (prepare C sr blk w e)
  | .process bits => process C bits w e
  | .setfreq bits => .ok (setFreq C bits w e)
  | .setwidth bits => .ok (setWidth C bits w e)
  | .setgain bits => .ok (setGain C bits w e)

/-- A command word on the engine (R86, R87, R89). -/
def runWord (C : Config N) (w : Word) (e : Engine N) : Except Fault (Engine N) :=
  match decode w with
  | .illegal => .ok (report .illegalOpcode w e)
  | .reserved => .ok (report .reservedBits w e)
  | .instr i => runInstr C i w e

/-- A stream of command words, each executed to completion before the next (R2, R69). -/
def runWords (C : Config N) : List Word → Engine N → Except Fault (Engine N)
  | [], e => .ok e
  | w :: ws, e => do
    let e' ← runWord C w e
    runWords C ws e'

/-- The source's block call `process(inputSamples[0..n), ...)` as a stream (R133). -/
def blockWords (samples : List F32) : List Word := samples.map (fun b => encode (.process b))

end Sys2Proof.Machine
end

