-- ==== Sys2Proof/Machine/Reals.lean ====
section
/-! DEFINITION. The arithmetic `ARITH = REAL` (R7): exact operations on the real numbers, the reference
semantics of the data path. The machine's step does not use it; it is the configuration of the spec's
exact laws (log 4). -/

namespace Sys2Proof.Reals

/-- The real number a finite binary32 pattern denotes (R15). -/
noncomputable def ofBits (b : F32) : ℝ := (Binary32.units b : ℝ) / 2 ^ 149

/-- The real number a ratio denotes (R10). -/
noncomputable def cnum (q : Ratio) : ℝ := (q.num : ℝ) / (q.den : ℝ)

open Classical in
/-- The arithmetic REAL: every operation exact (R7, R8, R12 to R15). -/
noncomputable def arith : Arith ℝ where
  add := fun x y => x + y
  sub := fun x y => x - y
  mul := fun x y => x * y
  div := fun x y => x / y
  sqrt := Real.sqrt
  sin2pi := fun p => Real.sin (2 * Real.pi * p)
  cnum := cnum
  toNum := fun n => (n : ℝ)
  ofBits := ofBits
  le := fun x y => decide (x ≤ y)
  floor := fun x => some ⌊x⌋
  rem := fun x m => x - m * ⌊x / m⌋
  isPosZero := fun x => decide (x = 0)

/-- The configuration REAL with VIBCORE's parameter values (R5). -/
noncomputable def config : Config ℝ :=
  { arith with toParams := Params.vibcore, valid := by decide }

end Sys2Proof.Reals
end

