-- ==== Sys2Proof/Safety.lean ====
section
/-! DEFINITION. The terms that claims use: the invariants of R56, runs and what is observed of them
(R193), the free merge of the host's two paths (R70), and states that differ only in buffer words no
command can read (R181). -/

namespace Sys2Proof.Machine

/-- `lo <= v <= hi`, numerically, so `v` is no NaN (R12). -/
def between (lo hi v : F32) : Prop := Binary32.le lo v = true ∧ Binary32.le v hi = true

/-- The frequency range of R31, `[0x3C23D70A, 0x41A00000]` (R141). -/
def freqOk (v : F32) : Prop := between 0x3C23D70A#32 0x41A00000#32 v

/-- The width range of R32, `[0x3A03126F, 0x3ECCCCCD]` (R142). -/
def widthOk (v : F32) : Prop := between 0x3A03126F#32 0x3ECCCCCD#32 v

/-- The gain range of R33, `[0x3D0186E2, 0x41200000]` (R143). -/
def gainOk (v : F32) : Prop := between 0x3D0186E2#32 0x41200000#32 v

/-- `0 <= p < 1` (R40). -/
def phaseOk (p : F32) : Prop := Binary32.inUnit p = true

/-- The legal values of one arithmetic: the ranges of FREQ, WIDTH and GAIN (R31 to R33), which SFREQ, SWIDTH,
SGAIN, AW and PW share (R56 item 4), that of PHASE (R40), and the buffer words that are listed (R62, log
3). -/
structure Legal (N : Type) where
  freq : N → Prop
  width : N → Prop
  gain : N → Prop
  phase : N → Prop
  word : N → Prop
  /-- The reset value +0 of the engine registers (R180). -/
  zero : N

/-- The legal values under F32. -/
def Legal.f32 : Legal F32 where
  freq := freqOk
  width := widthOk
  gain := gainOk
  phase := phaseOk
  word := fun v => v ≠ 0#32 ∧ Binary32.isFinite v = true
  zero := 0#32

/-- The legal values under REAL, where `cnum(q)` is `q` (R10). -/
def Legal.real : Legal ℝ where
  freq := fun v => 1 / 100 ≤ v ∧ v ≤ 20
  width := fun v => 1 / 2000 ≤ v ∧ v ≤ 2 / 5
  gain := fun v => 4244337 / 134217728 ≤ v ∧ v ≤ 10
  phase := fun v => 0 ≤ v ∧ v < 1
  word := fun v => v ≠ 0
  zero := 0

variable {N : Type}

/-- What holds from the first accepted PREPARE after reset on, while prepared and after a rejected PREPARE
too: the sizes of an accepted rate (R34, R152, R153, R155), the cursor inside the buffer (R39), and the
smoothed and committed values in the ranges of the raw ones (R56 item 4). -/
structure Sized (L : Legal N) (e : Engine N) : Prop where
  rateLow : 41 ≤ e.sr.toNat
  rateHigh : e.sr.toNat ≤ 218453
  cap : e.cap.toNat = (3 * e.sr.toNat + 4) / 5
  tlen : e.tlen.toNat = e.sr.toNat / 5
  wcur : e.wcur.toNat < e.cap.toNat
  sfreq : L.freq e.sfreq
  swidth : L.width e.swidth
  sgain : L.gain e.sgain
  aw : L.width e.aw
  pw : L.width e.pw

/-- What holds until a PREPARE is accepted: the configuration and engine registers as reset left them
(R180). -/
structure Unsized (L : Legal N) (e : Engine N) : Prop where
  prepared : e.status.prepared = false
  trans : e.status.trans = false
  maxblk : e.maxblk = 0#32
  cap : e.cap = 0#32
  tlen : e.tlen = 0#32
  wcur : e.wcur = 0#32
  cnt : e.cnt = 0#32
  phase : e.phase = L.zero
  sfreq : e.sfreq = L.zero
  swidth : e.swidth = L.zero
  sgain : e.sgain = L.zero
  aw : e.aw = L.zero
  pw : e.pw = L.zero
  outL : e.outL = L.zero

/-- The invariant of the engine in one arithmetic: R56, with the facts of R35, R47, R49, R51, R62, R160 and
R153 about the other fields, and the buffer's canonical form. SR is 0 exactly until a PREPARE has been
accepted since reset (R34). -/
structure InvOf (L : Legal N) (e : Engine N) : Prop where
  /-- R56 item 1. -/
  freq : L.freq e.freq
  width : L.width e.width
  gain : L.gain e.gain
  /-- R56 items 2 and 4. -/
  sized : e.sr ≠ 0#32 → Sized L e
  /-- R180, as log 12 says of item 4; PREPARED = 1 implies that SR is not 0. -/
  unsized : e.sr = 0#32 → Unsized L e
  /-- R122. -/
  phase : L.phase e.phase
  /-- R56 item 3. -/
  trans : e.status.trans = true → e.cnt.toNat < e.tlen.toNat
  idle : e.status.trans = false → e.pw = e.aw
  /-- R47. -/
  cnt : e.cnt.toNat ≤ e.tlen.toNat
  /-- R56 item 5, of MAXBLK; SR, CAP, TLEN, WCUR and CNT follow. -/
  maxblk : e.maxblk.toNat < 2 ^ 24
  /-- The buffer's canonical form, and R62. -/
  buf : e.buf.Pairwise (fun x y => x.1 < y.1)
  words : ∀ c ∈ e.buf, c.1 < 131072 ∧ L.word c.2
  /-- R49, R134. -/
  outputs : e.outR = e.outL
  /-- R160: codes 8 to 15 are never written. R153: causes 7 to 15 are never produced. -/
  last : e.status.last.toNat < 8
  cause : e.status.cfgCause.toNat < 7
  /-- R51: nothing is captured before STICKY is set. -/
  capture : e.status.sticky = false → e.firstErrLo = 0#32 ∧ e.firstErrHi = 0#32

/-- The invariant of the machine (F32). -/
abbrev Inv (e : Engine F32) : Prop := InvOf Legal.f32 e

/-- The invariant of the reference semantics (REAL). -/
abbrev RealInv (e : Engine ℝ) : Prop := InvOf Legal.real e

/-- The five items of R56, of one state. Item 4 is said of every state but those in which no PREPARE has been
accepted since reset, where SR is 0 and R180 gives the five registers +0 (log 12). -/
structure RangeItems (L : Legal N) (e : Engine N) : Prop where
  item1 : L.freq e.freq ∧ L.width e.width ∧ L.gain e.gain
  item2 : e.status.prepared = true →
    1 ≤ e.cap.toNat ∧ e.cap.toNat ≤ 131072 ∧ ⌈(2 / 5 : ℚ) * e.sr.toNat⌉ + 3 + 3 ≤ (e.cap.toNat : ℤ) ∧
    1 ≤ e.tlen.toNat ∧ e.wcur.toNat < e.cap.toNat ∧ e.sr ≠ 0#32
  phase : L.phase e.phase
  item3 : (e.status.trans = true → e.cnt.toNat < e.tlen.toNat) ∧
    (e.status.trans = false → e.pw = e.aw)
  item4 : e.sr ≠ 0#32 → L.freq e.sfreq ∧ L.width e.swidth ∧ L.gain e.sgain ∧ L.width e.aw ∧ L.width e.pw
  item4Reset : e.sr = 0#32 → e.sfreq = L.zero ∧ e.swidth = L.zero ∧ e.sgain = L.zero ∧ e.aw = L.zero ∧
    e.pw = L.zero
  item5 : e.sr.toNat < 2 ^ 24 ∧ e.maxblk.toNat < 2 ^ 24 ∧ e.cap.toNat < 2 ^ 24 ∧ e.tlen.toNat < 2 ^ 24 ∧
    e.wcur.toNat < 2 ^ 24 ∧ e.cnt.toNat < 2 ^ 24

/-- A step that gives a next state: neither a fault nor a refusal (R164, R169). -/
def Completes (o : Host.Outcome State Fault Refusal) : Prop := ∃ t, o = .next t

/-- The outcome of the host's events `evs`, each taken by one step, from the registers of `s`. -/
def runEvents (evs : List HostEvent) (s : State) : Host.Outcome State Fault Refusal :=
  Host.Core.run Sys2Proof.core evs.length { s with pending := evs }

/-- A stream of command words as host events (R2). -/
def commandEvents (ws : List Word) : List HostEvent := ws.map .command

/-- What is observed after a command: STATUS.LAST, and after a PROCESS OUT_L and OUT_R (R193). -/
structure Observation where
  last : BitVec 4
  out : Option (F32 × F32)
  deriving DecidableEq, Repr

/-- The observation of the state `t` after the word `w` (R193). -/
def observe (w : Word) (t : State) : Observation where
  last := t.status.last
  out :=
    match decode w with
    | .instr (.process _) => some (t.outL, t.outR)
    | _ => none

/-- The observations of a run of the command words `ws` from `s`, and its final state; `none` where a
step does not complete (R193). -/
def observeRun : List Word → State → Option (List Observation × State)
  | [], s => some ([], s)
  | w :: ws, s =>
    match step { s with pending := [.command w] } with
    | .next t => (observeRun ws t).map (fun r => (observe w t :: r.1, r.2))
    | _ => none

/-- A merge of two streams that keeps each one's own order (R70). -/
inductive Merge {α : Type} : List α → List α → List α → Prop where
  | nil : Merge [] [] []
  | left (x : α) {xs ys zs : List α} : Merge xs ys zs → Merge (x :: xs) ys (x :: zs)
  | right (y : α) {xs ys zs : List α} : Merge xs ys zs → Merge xs (y :: ys) (y :: zs)

/-- The commands of the control path: the three setters (R70). -/
def isSetter : Instr → Bool
  | .setfreq _ => true
  | .setwidth _ => true
  | .setgain _ => true
  | _ => false

/-- The buffer word at `i`, of those in use or not. -/
def bufWord (e : Engine F32) (i : Nat) : F32 := bufLookup 0x00000000#32 e.buf i

/-- The buffer in canonical form. -/
def bufSorted (e : Engine F32) : Prop :=
  e.buf.Pairwise (fun x y => x.1 < y.1) ∧ ∀ c ∈ e.buf, c.2 ≠ 0#32

/-- Two machines that agree on everything but buffer words that no command can read: all words before a
PREPARE succeeds, and words at `CAP` and above while prepared (R38, R181). -/
structure SameReadable (s t : State) : Prop where
  rest : t = { s with buf := t.buf }
  left : bufSorted s.toEngine
  right : bufSorted t.toEngine
  words : s.status.prepared = true → ∀ i, i < s.cap.toNat →
    bufWord s.toEngine i = bufWord t.toEngine i

/-- A pattern that is a zero of either sign. -/
def isZero (b : F32) : Prop := Binary32.magBits b = 0

/-- The distance of a buffer index behind the cursor: 1 is the most recently written word and CAP is the
word at WCUR (R111). -/
def distance (e : Engine F32) (index : Int) : Int :=
  (regInt e.wcur - index - 1) % regInt e.cap + 1

/-- The operands of the PROCESS commands among the words `ws`, in order (R133). -/
def processOperands (ws : List Word) : List F32 :=
  ws.filterMap fun w =>
    match decode w with
    | .instr (.process bits) => some bits
    | _ => none

/-- A word that is no PREPARE. -/
def notPrepare (w : Word) : Prop := ∀ sr blk, decode w ≠ .instr (.prepare sr blk)

/-- STATUS, FIRSTERR_LO and FIRSTERR_HI after a command reports the error code `c`, and nothing else
changed; the command word's halves are `hi` and `lo` (R161). -/
def reportError (c : BitVec 4) (hi lo : Reg) (s : State) : State :=
  { s with
    status := { s.status with last := c, sticky := true }
    firstErrHi := if s.status.sticky then s.firstErrHi else hi
    firstErrLo := if s.status.sticky then s.firstErrLo else lo }

/-- STATUS.LAST after a command reports the success code `c`, and nothing else changed (R161). -/
def reportSuccess (c : BitVec 4) (s : State) : State :=
  { s with status := { s.status with last := c } }

/-- What R140 says of one setter: its command `mk`, its register's write `put`, its range `lo` to `hi`,
and bits 63:32 of its word. Values are compared exactly, in units of 2^-149. -/
def SetterLaw (mk : F32 → Instr) (put : F32 → State → State) (lo hi : F32) (top : Reg) : Prop :=
  ∀ (bits : F32) (s : State),
    (Binary32.isFinite bits = false → exec (mk bits) s = .next (reportError 6#4 top bits s)) ∧
    (Binary32.isFinite bits = true →
      (Binary32.units lo ≤ Binary32.units bits → Binary32.units bits ≤ Binary32.units hi →
        exec (mk bits) s = .next (reportSuccess 0#4 (put bits s))) ∧
      (Binary32.units bits < Binary32.units lo →
        exec (mk bits) s = .next (reportSuccess 1#4 (put lo s))) ∧
      (Binary32.units hi < Binary32.units bits →
        exec (mk bits) s = .next (reportSuccess 1#4 (put hi s))))

/-- The rational number a parameter denotes (R5). -/
def ratio (q : Ratio) : ℚ := (q.num : ℚ) / q.den

/-- The values that R180's table gives the registers, with the two constants; BUF has none there. -/
def ResetValues (t : State) : Prop :=
  t.freq = 0x40000000#32 ∧ t.width = 0x3C03126F#32 ∧ t.gain = 0x3F800000#32 ∧
  t.sr = 0#32 ∧ t.maxblk = 0#32 ∧ t.cap = 0#32 ∧ t.tlen = 0#32 ∧ t.wcur = 0#32 ∧
  t.phase = 0#32 ∧ t.sfreq = 0#32 ∧ t.swidth = 0#32 ∧ t.sgain = 0#32 ∧ t.aw = 0#32 ∧
  t.pw = 0#32 ∧ t.cnt = 0#32 ∧ t.outL = 0#32 ∧ t.outR = 0#32 ∧
  readPort t 0x01#8 = 0x00000000#32 ∧ t.firstErrLo = 0#32 ∧ t.firstErrHi = 0#32 ∧
  readPort t 0x00#8 = 0x56430001#32 ∧ readPort t 0x13#8 = 131072#32

/-- R121's phase under F32, operation by operation: the quotient, the sum, the comparison with 1 and the
difference. -/
def phaseAfter (nan p f : F32) (sr : Reg) : F32 :=
  if Binary32.le 0x3F800000#32 (Binary32.add nan p (Binary32.div nan f (Binary32.toNum sr.toNat))) = true
  then Binary32.sub nan (Binary32.add nan p (Binary32.div nan f (Binary32.toNum sr.toNat))) 0x3F800000#32
  else Binary32.add nan p (Binary32.div nan f (Binary32.toNum sr.toNat))

/-- `r` is the exact value `v` rounded once (R9): below the middle past the largest finite value it is finite,
no finite datum is nearer, and where another one is as near its last bit is 0; from that middle on it is the
infinity of `v`'s sign. -/
def RoundedOnce (v : ℝ) (r : F32) : Prop :=
  (|v| < 2 ^ 128 - 2 ^ 103 → Binary32.isFinite r = true ∧
    ∀ z : F32, Binary32.isFinite z = true →
      |v - Reals.ofBits r| ≤ |v - Reals.ofBits z| ∧
      (|v - Reals.ofBits r| = |v - Reals.ofBits z| → Reals.ofBits z ≠ Reals.ofBits r → r.toNat % 2 = 0)) ∧
  (2 ^ 128 - 2 ^ 103 ≤ v → r = 0x7F800000#32) ∧
  (v ≤ -(2 ^ 128 - 2 ^ 103) → r = 0xFF800000#32)

/-- The part of a sample step that is the same in Idle and Transitioning (R130): the smoothers, the
output of the crossfaded value `y` under the new gain, the input written at the old cursor, the cursor
and the phase advanced, and the report. -/
def stepCommon (bits y : F32) (s : State) : State :=
  { s with
    sfreq := smooth s.config s.freq s.sfreq
    swidth := smooth s.config s.width s.swidth
    sgain := smooth s.config s.gain s.sgain
    outL := s.config.mul y (smooth s.config s.gain s.sgain)
    outR := s.config.mul y (smooth s.config s.gain s.sgain)
    buf := bufInsert s.config.isPosZero s.wcur.toNat
      (if Binary32.isFinite bits then bits else 0x00000000#32) s.buf
    wcur := BitVec.ofNat 32 ((s.wcur.toNat + 1) % s.cap.toNat)
    phase := phaseAfter (freeNaN s) s.phase (smooth s.config s.freq s.sfreq) s.sr
    status := { s.status with
      last := if Binary32.isFinite bits then 0#4 else 7#4
      sticky := s.status.sticky || !Binary32.isFinite bits }
    firstErrHi := if s.status.sticky || Binary32.isFinite bits then s.firstErrHi else 0x02000000#32
    firstErrLo := if s.status.sticky || Binary32.isFinite bits then s.firstErrLo else bits
    nanTick := s.nanTick + 1 }

/-- R187's situation under REAL: the smoothed width has left the committed one towards the raw width and
has not reached it. -/
def Gliding (e : Engine ℝ) : Prop :=
  e.swidth ≠ e.width ∧ 0 ≤ (e.swidth - e.width) * (e.aw - e.width)
    ∧ |e.swidth - e.width| ≤ |e.aw - e.width|

end Sys2Proof.Machine
end

