-- ==== Sys2Proof/Certificates/Slice0/Obligations.lean ====
section
/-! DEFINITION. The statements for the provers, from the numbered rules of the spec. OBLIGATIONS.json lists
them with the rules they cite. -/

open Sys2Proof Sys2Proof.Machine

/-! ### Encoding (30_encoding.md) -/

/-- Decoding the word of a well-formed command gives the command back (R80 to R85, R89, R90). -/
def Obligations.DecodeOfEncode : Prop :=
  ∀ i : Instr, i.wellFormed = true → decode (encode i) = .instr i

/-- A word that decodes to a command is that command's word: no bit of it is ignored (R81 to R83, R89). -/
def Obligations.EncodeOfDecode : Prop :=
  ∀ (w : Word) (i : Instr), decode w = .instr i → encode i = w

/-- R85: the match and mask pairs decide which command a word is, an opcode of 0x06 to 0xFF is illegal, any
other word has a nonzero reserved field, and the source's block call is one PROCESS for each sample. -/
def Obligations.DecodeFollowsOpcodeTable : Prop :=
  ∀ w : Word,
    (decode w = .instr .nop ↔ w &&& 0xFFFFFFFFFFFFFFFF#64 = 0x0000000000000000#64) ∧
    ((∃ sr blk, decode w = .instr (.prepare sr blk)) ↔
      w &&& 0xFF00000000000000#64 = 0x0100000000000000#64) ∧
    ((∃ b, decode w = .instr (.process b)) ↔ w &&& 0xFFFFFFFF00000000#64 = 0x0200000000000000#64) ∧
    ((∃ b, decode w = .instr (.setfreq b)) ↔ w &&& 0xFFFFFFFF00000000#64 = 0x0300000000000000#64) ∧
    ((∃ b, decode w = .instr (.setwidth b)) ↔ w &&& 0xFFFFFFFF00000000#64 = 0x0400000000000000#64) ∧
    ((∃ b, decode w = .instr (.setgain b)) ↔ w &&& 0xFFFFFFFF00000000#64 = 0x0500000000000000#64) ∧
    (decode w = .illegal ↔ 6 ≤ w.toNat / 2 ^ 56) ∧
    (decode w = .reserved ↔ w.toNat / 2 ^ 56 < 6 ∧ ∀ i, decode w ≠ .instr i) ∧
    ∀ samples : List F32, (blockWords samples).map decode = samples.map (fun b => .instr (.process b))

/-- R84: the operands are the word's fields, unsigned, neither scaled nor shifted. -/
def Obligations.DecodedOperandFields : Prop :=
  (∀ w sr blk, decode w = .instr (.prepare sr blk) →
    sr.toNat = w.toNat % 2 ^ 32 ∧ blk.toNat = w.toNat / 2 ^ 32 % 2 ^ 24) ∧
  (∀ w b, (decode w = .instr (.process b) ∨ decode w = .instr (.setfreq b) ∨
      decode w = .instr (.setwidth b) ∨ decode w = .instr (.setgain b)) →
    b.toNat = w.toNat % 2 ^ 32)

/-- The encoding examples, from the assembler's text to the word, and what the words decode to: R92's table,
which the spec marks as its own derivation from R81 to R83 and R90. -/
def Obligations.EncodingExamples : Prop :=
  Assembler.assembleLine "nop".toList = some [0x0000000000000000#64] ∧
  Assembler.assembleLine "prepare 48000, 512".toList = some [0x010002000000BB80#64] ∧
  Assembler.assembleLine "prepare 80, 16".toList = some [0x0100001000000050#64] ∧
  Assembler.assembleLine "process 1.0".toList = some [0x020000003F800000#64] ∧
  Assembler.assembleLine "process -0.5".toList = some [0x02000000BF000000#64] ∧
  Assembler.assembleLine "setfreq 20.0".toList = some [0x0300000041A00000#64] ∧
  Assembler.assembleLine "setwidth 0.125".toList = some [0x040000003E000000#64] ∧
  Assembler.assembleLine "setgain 1.0".toList = some [0x050000003F800000#64] ∧
  Assembler.assembleLine ".word64 0x0700000000000000".toList = some [0x0700000000000000#64] ∧
  decode 0x0700000000000000#64 = .illegal ∧
  Assembler.assembleLine ".word64 0x0400000100000000".toList = some [0x0400000100000000#64] ∧
  decode 0x0400000100000000#64 = .reserved

/-- Words written out from the encodings decode to the commands they stand for (R80 to R85). -/
def Obligations.WrittenWordsDecode : Prop :=
  decode 0x0000000000000000#64 = .instr .nop ∧
  decode 0x010002000000BB80#64 = .instr (.prepare 48000#32 512#24) ∧
  decode 0x020000003F800000#64 = .instr (.process 0x3F800000#32) ∧
  decode 0x0300000041A00000#64 = .instr (.setfreq 0x41A00000#32) ∧
  decode 0x040000003E000000#64 = .instr (.setwidth 0x3E000000#32) ∧
  decode 0x05000000C0400000#64 = .instr (.setgain 0xC0400000#32) ∧
  decode 0x00FFFFFFFFFFFFFF#64 = .reserved ∧
  decode 0xFFFFFFFFFFFFFFFF#64 = .illegal

/-- R65: on a byte-wide transport byte `k` of a command word is its bits `8k+7:8k`, eight bytes carry the
word back, and byte `k` of a register value is its bits `8k+7:8k`. -/
def Obligations.TransportIsLittleEndian : Prop :=
  (∀ w : Word, (wordBytes w).length = 8 ∧ wordOfBytes (wordBytes w) = some w ∧
    ∀ k, k < 8 → ((wordBytes w).getD k 0#8).toNat = w.toNat / 2 ^ (8 * k) % 2 ^ 8) ∧
  (∀ v : Reg, (regBytes v).length = 4 ∧
    ∀ k, k < 4 → ((regBytes v).getD k 0#8).toNat = v.toNat / 2 ^ (8 * k) % 2 ^ 8)

/-! ### The step -/

/-- A step runs the decoded command: with a command word at the head of the host's stream that decodes to
a well-formed command, the step is that command's meaning, on the state whose stream is the rest (R2,
R69, R89). -/
def Obligations.StepRunsDecoded : Prop :=
  ∀ (s : State) (w : Word) (rest : List HostEvent) (i : Instr),
    s.pending = .command w :: rest → decode w = .instr i → i.wellFormed = true →
    step s = exec i { s with pending := rest }

/-- R86: a word with an illegal opcode has no effect except `report(ILLEGAL_OPCODE)`. -/
def Obligations.IllegalWordOnlyReports : Prop :=
  ∀ (s : State) (w : Word) (rest : List HostEvent),
    s.pending = .command w :: rest → 6 ≤ w.toNat / 2 ^ 56 →
    step s = .next (reportError 2#4 (w.extractLsb' 32 32) (w.extractLsb' 0 32)
      { s with pending := rest })

/-- R87: a word with a legal opcode and a nonzero reserved field (bits 55:0 of format N, bits 55:32 of
format V) has no effect except `report(RESERVED_BITS)`, and format P has no reserved field. -/
def Obligations.ReservedWordOnlyReports : Prop :=
  (∀ w : Word, w.toNat / 2 ^ 56 = 1 → ∃ sr blk, decode w = .instr (.prepare sr blk)) ∧
  ∀ (s : State) (w : Word) (rest : List HostEvent),
    s.pending = .command w :: rest →
    (w.toNat / 2 ^ 56 = 0 ∧ w.toNat % 2 ^ 56 ≠ 0 ∨
      2 ≤ w.toNat / 2 ^ 56 ∧ w.toNat / 2 ^ 56 ≤ 5 ∧ w.toNat / 2 ^ 32 % 2 ^ 24 ≠ 0) →
    step s = .next (reportError 3#4 (w.extractLsb' 32 32) (w.extractLsb' 0 32)
      { s with pending := rest })

/-- R180: a hardware reset between two commands leaves every register at the value of the table and the
constants as they are, and so does the state the machine starts from; no command clears STICKY or a captured
FIRSTERR. That the host's pending list holds the reset too, and that the reset keeps the rest of that
list, is the model's choice (log 11; the list itself is the model's field, log 1). -/
def Obligations.HardwareResetSetsEverything : Prop :=
  ResetValues State.reset ∧
  (∀ (s : State) (rest : List HostEvent), s.pending = .reset :: rest →
    ∃ t, step s = .next t ∧ t.pending = rest ∧ ResetValues t) ∧
  (∀ (s t : State) (w : Word) (rest : List HostEvent), s.pending = .command w :: rest →
    step s = .next t → s.status.sticky = true →
    t.status.sticky = true ∧ t.firstErrLo = s.firstErrLo ∧ t.firstErrHi = s.firstErrHi)

/-! ### The read port and STATUS (10_state.md) -/

/-- R54: what each address of the read port shows; a reserved address reads 0, and nothing shows the
buffer. -/
def Obligations.ReadPortMap : Prop :=
  ∀ s : State,
    readPort s 0x00#8 = 0x56430001#32 ∧ readPort s 0x01#8 = s.status.word ∧
    readPort s 0x02#8 = s.outL ∧ readPort s 0x03#8 = s.outR ∧
    readPort s 0x04#8 = s.freq ∧ readPort s 0x05#8 = s.width ∧ readPort s 0x06#8 = s.gain ∧
    readPort s 0x07#8 = s.sr ∧ readPort s 0x08#8 = s.maxblk ∧ readPort s 0x09#8 = s.cap ∧
    readPort s 0x0A#8 = s.tlen ∧ readPort s 0x0B#8 = s.wcur ∧ readPort s 0x0C#8 = s.phase ∧
    readPort s 0x0D#8 = s.sfreq ∧ readPort s 0x0E#8 = s.swidth ∧ readPort s 0x0F#8 = s.sgain ∧
    readPort s 0x10#8 = s.aw ∧ readPort s 0x11#8 = s.pw ∧ readPort s 0x12#8 = s.cnt ∧
    readPort s 0x13#8 = 131072#32 ∧ readPort s 0x14#8 = s.firstErrLo ∧
    readPort s 0x15#8 = s.firstErrHi ∧
    (∀ a : BitVec 8, 0x16 ≤ a.toNat → readPort s a = 0#32) ∧
    (∀ (a : BitVec 8) (b : List (Nat × F32)), readPort { s with buf := b } a = readPort s a)

/-- R50: every field of STATUS at its place, and every reserved bit reads 0. -/
def Obligations.StatusWordLayout : Prop :=
  ∀ s : State,
    (readPort s 0x01#8).extractLsb' 0 1 = BitVec.ofBool s.status.prepared ∧
    (readPort s 0x01#8).extractLsb' 1 1 = BitVec.ofBool s.status.trans ∧
    (readPort s 0x01#8).extractLsb' 2 2 = 0#2 ∧
    (readPort s 0x01#8).extractLsb' 4 4 = s.status.last ∧
    (readPort s 0x01#8).extractLsb' 8 4 = s.status.cfgCause ∧
    (readPort s 0x01#8).extractLsb' 12 4 = 0#4 ∧
    (readPort s 0x01#8).extractLsb' 16 1 = BitVec.ofBool s.status.sticky ∧
    (readPort s 0x01#8).extractLsb' 17 15 = 0#15

/-! ### Result codes (60_exceptions.md) -/

/-- R160 and R161, of every command word: LAST is one of the eight codes, an error code sets STICKY and nothing
clears it, and FIRSTERR holds the first erring word, which later errors do not overwrite. -/
def Obligations.EveryCommandReports : Prop :=
  ∀ (s t : State) (w : Word) (rest : List HostEvent),
    s.pending = .command w :: rest → step s = .next t →
    t.status.last.toNat < 8 ∧
    t.status.sticky = (s.status.sticky || decide (2 ≤ t.status.last.toNat)) ∧
    (s.status.sticky = false → 2 ≤ t.status.last.toNat →
      t.firstErrLo.toNat = w.toNat % 2 ^ 32 ∧ t.firstErrHi.toNat = w.toNat / 2 ^ 32) ∧
    (s.status.sticky = true ∨ t.status.last.toNat < 2 →
      t.firstErrLo = s.firstErrLo ∧ t.firstErrHi = s.firstErrHi)

/-- R162: the checks' order, as the code each command word ends with. -/
def Obligations.ResultCodePriority : Prop :=
  ∀ (s t : State) (w : Word) (rest : List HostEvent),
    s.pending = .command w :: rest → step s = .next t →
    t.status.last =
      match decode w with
      | .illegal => 2#4
      | .reserved => 3#4
      | .instr .nop => 0#4
      | .instr (.prepare sr _) => if 41 ≤ sr.toNat ∧ sr.toNat ≤ 218453 then 0#4 else 5#4
      | .instr (.process b) =>
        if s.status.prepared = false then 4#4
        else if Binary32.isFinite b = false then 7#4 else 0#4
      | .instr (.setfreq b) =>
        if Binary32.isFinite b = false then 6#4
        else if Binary32.units 0x3C23D70A#32 ≤ Binary32.units b ∧
          Binary32.units b ≤ Binary32.units 0x41A00000#32 then 0#4 else 1#4
      | .instr (.setwidth b) =>
        if Binary32.isFinite b = false then 6#4
        else if Binary32.units 0x3A03126F#32 ≤ Binary32.units b ∧
          Binary32.units b ≤ Binary32.units 0x3ECCCCCD#32 then 0#4 else 1#4
      | .instr (.setgain b) =>
        if Binary32.isFinite b = false then 6#4
        else if Binary32.units 0x3D0186E2#32 ≤ Binary32.units b ∧
          Binary32.units b ≤ Binary32.units 0x41200000#32 then 0#4 else 1#4

/-- R163: every error except NONFINITE_INPUT leaves everything but STATUS and FIRSTERR as it was, TRANS
among it, and PREPARED and CFGCAUSE too unless the code is CONFIG_REJECTED. -/
def Obligations.ErrorsAreCompleteOrNothing : Prop :=
  ∀ (s t : State) (w : Word) (rest : List HostEvent),
    s.pending = .command w :: rest → step s = .next t →
    2 ≤ t.status.last.toNat → t.status.last ≠ 7#4 →
    t.freq = s.freq ∧ t.width = s.width ∧ t.gain = s.gain ∧ t.sr = s.sr ∧ t.maxblk = s.maxblk ∧
    t.cap = s.cap ∧ t.tlen = s.tlen ∧ t.buf = s.buf ∧ t.wcur = s.wcur ∧ t.phase = s.phase ∧
    t.sfreq = s.sfreq ∧ t.swidth = s.swidth ∧ t.sgain = s.sgain ∧ t.aw = s.aw ∧ t.pw = s.pw ∧
    t.cnt = s.cnt ∧ t.outL = s.outL ∧ t.outR = s.outR ∧ t.status.trans = s.status.trans ∧
    (t.status.last ≠ 5#4 → t.status.prepared = s.status.prepared ∧
      t.status.cfgCause = s.status.cfgCause) ∧
    (t.status.last = 5#4 → t.status.prepared = false ∧ t.status.cfgCause ≠ 0#4)

/-! ### NOP and PREPARE (43_lifecycle.md) -/

/-- R150: NOP writes STATUS.LAST and nothing else; with nonzero bits 55:0 its word is RESERVED_BITS
instead. -/
def Obligations.NopOnlyReports : Prop :=
  (∀ s : State, exec .nop s = .next (reportSuccess 0#4 s)) ∧
  (∀ w : Word, w.toNat / 2 ^ 56 = 0 → w.toNat % 2 ^ 56 ≠ 0 → decode w = .reserved)

/-- R157: a PREPARE at an accepted rate completes, with every register as R157 lists it, the raw
parameters, STICKY and FIRSTERR unchanged, and no buffer word at CAP or above written. -/
def Obligations.PrepareAccepted : Prop :=
  ∀ (sr : BitVec 32) (blk : BitVec 24) (s : State), 41 ≤ sr.toNat → sr.toNat ≤ 218453 →
    ∃ t, exec (.prepare sr blk) s = .next t ∧
      t.sr = sr ∧ t.maxblk.toNat = blk.toNat ∧ t.cap.toNat = (3 * sr.toNat + 4) / 5 ∧
      t.tlen.toNat = sr.toNat / 5 ∧
      (∀ i, i < t.cap.toNat → bufWord t.toEngine i = 0#32) ∧
      (∀ i, t.cap.toNat ≤ i → bufWord t.toEngine i = bufWord s.toEngine i) ∧
      t.wcur = 0#32 ∧ t.phase = 0#32 ∧ t.cnt = 0#32 ∧ t.outL = 0#32 ∧ t.outR = 0#32 ∧
      t.sfreq = s.freq ∧ t.swidth = s.width ∧ t.sgain = s.gain ∧ t.aw = s.width ∧ t.pw = s.width ∧
      t.status = { prepared := true, trans := false, last := 0#4, cfgCause := 0#4,
                   sticky := s.status.sticky } ∧
      t.freq = s.freq ∧ t.width = s.width ∧ t.gain = s.gain ∧
      t.firstErrLo = s.firstErrLo ∧ t.firstErrHi = s.firstErrHi ∧
      t.pending = s.pending ∧ t.nanTick = s.nanTick

/-- R155: a PREPARE at any other rate changes PREPARED, CFGCAUSE (to the cause that R153 lists for the
rate), LAST, and STICKY with the first-error capture, and nothing else; every PROCESS after it reports
NOT_PREPARED. -/
def Obligations.PrepareRejected : Prop :=
  ∀ (sr : BitVec 32) (blk : BitVec 24) (s : State), (sr.toNat < 41 ∨ 218453 < sr.toNat) →
    exec (.prepare sr blk) s = .next (reportError 5#4 (0x01#8 ++ blk) sr
      { s with status := { s.status with
          prepared := false
          cfgCause :=
            if sr.toNat = 0 then 1#4
            else if 2 ^ 24 < sr.toNat then 2#4
            else if 218454 ≤ sr.toNat then 3#4
            else if sr.toNat ≤ 26 ∨ sr.toNat = 28 then 4#4
            else 6#4 } }) ∧
    ∀ (bits : F32) (t : State), exec (.prepare sr blk) s = .next t →
      exec (.process bits) t = .next (reportError 4#4 0x02000000#32 bits t)

/-- R152: the sizes are the exact ceiling and floor of the rational products, for any parameters that R6
allows, with the values of R152's table. -/
def Obligations.SizesAreExact : Prop :=
  (∀ P : Params, P.wellFormed = true → ∀ sr : Nat,
    (capacityOf P sr : ℤ) = ⌈(P.capFactor.num : ℚ) / P.capFactor.den *
      ((P.maxWidth.num : ℚ) / P.maxWidth.den) * sr⌉ ∧
    (transitionOf P sr : ℤ) = ⌊(P.transTime.num : ℚ) / P.transTime.den * sr⌋) ∧
  (∀ sr : Nat, (capacityOf Params.vibcore sr : ℤ) = ⌈(3 * sr : ℚ) / 5⌉ ∧
    (transitionOf Params.vibcore sr : ℤ) = ⌊(sr : ℚ) / 5⌋) ∧
  (∀ r ∈ [(48000, 28800, 9600), (44100, 26460, 8820), (192000, 115200, 38400),
      (218453, 131072, 43690), (80, 48, 16), (41, 25, 8)],
    capacityOf Params.vibcore r.1 = r.2.1 ∧ transitionOf Params.vibcore r.1 = r.2.2)

/-- R156: a successful PREPARE stores `blk` in MAXBLK and in nothing else, and no other command's result
depends on MAXBLK (R35). -/
def Obligations.BlockSizeIsInert : Prop :=
  (∀ (sr : BitVec 32) (blk blk' : BitVec 24) (s t : State), 41 ≤ sr.toNat → sr.toNat ≤ 218453 →
    exec (.prepare sr blk) s = .next t →
    exec (.prepare sr blk') s = .next { t with maxblk := blk'.setWidth 32 }) ∧
  (∀ (i : Instr) (b : Reg) (s t : State), (∀ sr blk, i ≠ .prepare sr blk) →
    exec i s = .next t → exec i { s with maxblk := b } = .next { t with maxblk := b })

/-! ### The setters (42_setters.md) -/

/-- R140 to R143: each setter refuses a non-finite operand, keeps an operand in its range, replaces one
outside by the nearer bound, reports OK or OK_CLAMPED by that, and changes nothing but its register and
the report. -/
def Obligations.SettersClampAndReport : Prop :=
  SetterLaw .setfreq (fun v s => { s with freq := v }) 0x3C23D70A#32 0x41A00000#32 0x03000000#32 ∧
  SetterLaw .setwidth (fun v s => { s with width := v }) 0x3A03126F#32 0x3ECCCCCD#32 0x04000000#32 ∧
  SetterLaw .setgain (fun v s => { s with gain := v }) 0x3D0186E2#32 0x41200000#32 0x05000000#32

/-! ### PROCESS (41_process.md) -/

/-- R184: while unprepared, after a rejected PREPARE too, a PROCESS does nothing except report
NOT_PREPARED. -/
def Obligations.ProcessUnprepared : Prop :=
  (∀ (bits : F32) (s : State), s.status.prepared = false →
    exec (.process bits) s = .next (reportError 4#4 0x02000000#32 bits s)) ∧
  (∀ (sr : BitVec 32) (blk : BitVec 24) (s t : State), exec (.prepare sr blk) s = .next t →
    t.status.last = 5#4 → t.status.prepared = false)

/-- R130 with R117: an Idle sample step that fires no trigger. Its one read, of the active width, sees
the cursor, phase and buffer from before the step; no register of the sweep-width state changes. The phase
is R121's, operation by operation (`phaseAfter`); under REAL it is the sum, less 1 exactly where that reaches
1; V-LFO-1 to V-LFO-3 are its examples. -/
def Obligations.ProcessIdleStep : Prop :=
  (∀ (bits y : F32) (s : State), s.status.prepared = true → s.status.trans = false →
     numEq s.config (smooth s.config s.width s.swidth) s.aw = true →
     s.wcur.toNat < s.cap.toNat → sample s.config s.toEngine s.aw = .ok y →
     exec (.process bits) s = .next (stepCommon bits y s)) ∧
  (∀ (p f : ℝ) (sr : Reg), nextPhase Reals.config p f sr =
    if 1 ≤ p + f / sr.toNat then p + f / sr.toNat - 1 else p + f / sr.toNat) ∧
  (∀ nan : F32, nextPhase (Binary32.config nan) 0x3F400000#32 0x41A00000#32 80#32 = 0x00000000#32 ∧
    nextPhase (Binary32.config nan) 0x00000000#32 0x40000000#32 44100#32 = 0x383E37C6#32 ∧
    nextPhase (Binary32.config nan) 0x3F7FFFFF#32 0x33000000#32 1#32 = 0x00000000#32)

/-- R130 with R114 and R116: the Idle sample step whose smoothed width differs from the committed one. It
fires the trigger, blends at counter 0 the read of the width that was committed and of the new one, and
counts; with TLEN = 1 it is also the transition's last step. -/
def Obligations.ProcessTriggerStep : Prop :=
  ∀ (bits yp ya : F32) (s : State), s.status.prepared = true → s.status.trans = false →
    numEq s.config (smooth s.config s.width s.swidth) s.aw = false →
    s.wcur.toNat < s.cap.toNat → 1 ≤ s.tlen.toNat →
    sample s.config s.toEngine s.aw = .ok yp →
    sample s.config s.toEngine (smooth s.config s.width s.swidth) = .ok ya →
    exec (.process bits) s = .next
      (let t := stepCommon bits (blend s.config 0 s.tlen.toNat yp ya) s
       { t with
         aw := smooth s.config s.width s.swidth
         pw := if s.tlen = 1#32 then smooth s.config s.width s.swidth else s.aw
         cnt := 1#32
         status := { t.status with trans := decide (s.tlen ≠ 1#32) } })

/-- R130 with R116 and R118: a Transitioning sample step. The active width stays whatever the smoothed
width does, the counter advances, and the step that makes it TLEN commits the width and ends the
transition. -/
def Obligations.ProcessTransitionStep : Prop :=
  ∀ (bits yp ya : F32) (s : State), s.status.prepared = true → s.status.trans = true →
    s.wcur.toNat < s.cap.toNat → s.cnt.toNat < s.tlen.toNat →
    sample s.config s.toEngine s.pw = .ok yp → sample s.config s.toEngine s.aw = .ok ya →
    exec (.process bits) s = .next
      (let t := stepCommon bits (blend s.config s.cnt.toNat s.tlen.toNat yp ya) s
       { t with
         pw := if s.cnt.toNat + 1 = s.tlen.toNat then s.aw else s.pw
         cnt := s.cnt + 1#32
         status := { t.status with trans := decide (s.cnt.toNat + 1 ≠ s.tlen.toNat) } })

/-- R132: with a prepared engine (in a state that meets the invariant of R56), PROCESS completes its sample
step whatever its operand, and reports OK for a finite one and NONFINITE_INPUT for another. -/
def Obligations.ProcessCompletes : Prop :=
  ∀ (bits : F32) (s : State), Inv s.toEngine → s.status.prepared = true →
    ∃ t, exec (.process bits) s = .next t ∧
      t.status.last = (if Binary32.isFinite bits = true then 0#4 else 7#4)

/-- R131: what a PROCESS never writes, and what it writes only in the cases of R131's list. -/
def Obligations.ProcessFrame : Prop :=
  ∀ (bits : F32) (s t : State), exec (.process bits) s = .next t →
    t.freq = s.freq ∧ t.width = s.width ∧ t.gain = s.gain ∧ t.sr = s.sr ∧ t.maxblk = s.maxblk ∧
    t.cap = s.cap ∧ t.tlen = s.tlen ∧ t.status.prepared = s.status.prepared ∧
    t.status.cfgCause = s.status.cfgCause ∧ t.pending = s.pending ∧
    (s.status.prepared = false → t = reportError 4#4 0x02000000#32 bits s) ∧
    (Binary32.isFinite bits = true → s.status.prepared = true →
      t.status.sticky = s.status.sticky ∧ t.firstErrLo = s.firstErrLo ∧
      t.firstErrHi = s.firstErrHi) ∧
    (s.status.trans = true → t.aw = s.aw) ∧
    (s.status.trans = true → t.status.trans = true → t.pw = s.pw) ∧
    (s.status.trans = false → numEq s.config (smooth s.config s.width s.swidth) s.aw = true →
      t.aw = s.aw ∧ t.pw = s.pw ∧ t.cnt = s.cnt ∧ t.status.trans = false) ∧
    (bufSorted s.toEngine → ∀ i, i ≠ s.wcur.toNat → bufWord t.toEngine i = bufWord s.toEngine i)

/-- R134: OUT_R equals OUT_L, bit for bit: no step makes them differ. -/
def Obligations.OutputsStayEqual : Prop :=
  (∀ s t : State, s.outR = s.outL → step s = .next t → t.outR = t.outL) ∧
  State.reset.outR = State.reset.outL

/-! ### The delay buffer (20_memory.md, 40_datapath.md) -/

/-- R61: BufWrite sets one word of the buffer in use and no other, and BufRead gives the word; outside
`0 .. CAP-1` both are refused. -/
def Obligations.BufferReadAfterWrite : Prop :=
  ∀ (nan v : F32) (e : Engine F32) (i j : ℤ), bufSorted e →
    (0 ≤ i ∧ i < regInt e.cap →
      ∃ e', bufWrite (Binary32.config nan) i v e = .ok e' ∧ bufSorted e' ∧ e' = { e with buf := e'.buf } ∧
        (j = i → bufRead (Binary32.config nan) e' j = .ok v) ∧
        (j ≠ i → bufRead (Binary32.config nan) e' j = bufRead (Binary32.config nan) e j)) ∧
    (i < 0 ∨ regInt e.cap ≤ i →
      bufWrite (Binary32.config nan) i v e = .error .bufferIndex ∧
      bufRead (Binary32.config nan) e i = .error .bufferIndex)

/-- R101, the wraparound law: from a freshly prepared buffer, after any commands but PREPARE, the word `j`
behind the cursor is the `j`-th latest input, or +0 where fewer have been written. -/
def Obligations.WraparoundLaw : Prop :=
  ∀ (s t : State) (ws : List Word), Inv s.toEngine → s.status.prepared = true → s.wcur = 0#32 →
    (∀ i, i < s.cap.toNat → bufWord s.toEngine i = 0#32) → (∀ w ∈ ws, notPrepare w) →
    runEvents (commandEvents ws) s = .next t →
    ∀ j : Nat, 1 ≤ j → j ≤ t.cap.toNat →
      bufRead t.config t.toEngine (circular t.cap (regInt t.wcur - j)) =
        .ok ((((processOperands ws).map
          (fun b => if Binary32.isFinite b then b else 0#32)).reverse).getD (j - 1) 0#32)

/-- R181: no command can tell apart two machines that differ only in words no PREPARE has cleared: after
any step they again differ at most there. -/
def Obligations.UnreadableBufferIsUnobservable : Prop :=
  ∀ s t s' : State, SameReadable s t → step s = .next s' →
    ∃ t', step t = .next t' ∧ SameReadable s' t'

/-! ### Invariants (10_state.md R56) -/

/-- The invariant holds at reset, in both modes: R56 (the spec's own derivation) with item 4 as log 12 reads
it, for R180 resets SFREQ, SWIDTH, SGAIN, AW and PW to +0, outside item 4's ranges. -/
def Obligations.ResetMeetsInvariant : Prop :=
  Inv State.reset.toEngine ∧ RealInv (Engine.reset Reals.config)

/-- Every step keeps the invariant of R56 (the spec's own derivation; item 4 as log 12 reads it), and under
REAL every command word does. -/
def Obligations.StepKeepsInvariant : Prop :=
  (∀ s t : State, Inv s.toEngine → step s = .next t → Inv t.toEngine) ∧
  (∀ (w : Word) (e r : Engine ℝ), RealInv e → runWord Reals.config w e = .ok r → RealInv r)

/-- R164, R169: in a state that meets the invariant no event stops the block: the step is a next state, and
under REAL every command word completes. -/
def Obligations.StepNeverStops : Prop :=
  (∀ s : State, Inv s.toEngine → Completes (step s)) ∧
  (∀ (w : Word) (e : Engine ℝ), RealInv e → ∃ r, runWord Reals.config w e = .ok r)

/-- R56 (the spec's own derivation): every state reachable from hardware reset, by any stream of commands and
resets under F32 and by any stream of commands under REAL, is a next state of the run and satisfies the five
items (item 4 as log 12 says). -/
def Obligations.ReachableStatesInRange : Prop :=
  (∀ evs : List HostEvent, ∃ t, runEvents evs State.reset = .next t ∧ RangeItems Legal.f32 t.toEngine) ∧
  (∀ ws : List Word, ∃ r, runWords Reals.config ws (Engine.reset Reals.config) = .ok r ∧
    RangeItems Legal.real r)

/-! ### Streams -/

/-- R119 (d): a transition lasts exactly TLEN sample steps, whatever setters come between them; the active
width stays and the counter counts the steps. -/
def Obligations.TransitionLength : Prop :=
  ∀ (s t : State) (ws : List Word), Inv s.toEngine → s.status.prepared = true →
    s.status.trans = true → (∀ w ∈ ws, notPrepare w) →
    s.cnt.toNat + (processOperands ws).length ≤ s.tlen.toNat →
    runEvents (commandEvents ws) s = .next t →
    t.aw = s.aw ∧ t.cnt.toNat = s.cnt.toNat + (processOperands ws).length ∧
    (t.cnt.toNat < t.tlen.toNat → t.status.trans = true ∧ t.pw = s.pw) ∧
    (t.cnt.toNat = t.tlen.toNat → t.status.trans = false ∧ t.pw = s.aw)

/-- R136: silence in, silence out, whatever setters come between: from a prepared engine whose buffer in
use and output are zeros, PROCESS commands whose operands are zeros or not finite keep both zero. -/
def Obligations.SilenceInSilenceOut : Prop :=
  ∀ (s t : State) (ws : List Word), Inv s.toEngine → s.status.prepared = true →
    (∀ i, i < s.cap.toNat → isZero (bufWord s.toEngine i)) → isZero s.outL →
    (∀ w ∈ ws, notPrepare w) →
    (∀ b ∈ processOperands ws, isZero b ∨ Binary32.isFinite b = false) →
    runEvents (commandEvents ws) s = .next t →
    isZero t.outL ∧ isZero t.outR ∧ ∀ i, i < t.cap.toNat → isZero (bufWord t.toEngine i)

/-- R70: the host's merge of its two paths is free, and no merge can corrupt the buffer: two merges of the
same PROCESS commands and the same setters end with the same buffer, cursor and raw parameters. -/
def Obligations.MergeOrderKeepsBuffer : Prop :=
  ∀ (s t t' : State) (audio control : List Instr) (ws ws' : List Word), Inv s.toEngine →
    (∀ i ∈ audio, ∃ b, i = .process b) → (∀ i ∈ control, isSetter i = true) →
    Merge (audio.map encode) (control.map encode) ws →
    Merge (audio.map encode) (control.map encode) ws' →
    runEvents (commandEvents ws) s = .next t → runEvents (commandEvents ws') s = .next t' →
    t.buf = t'.buf ∧ t.wcur = t'.wcur ∧ t.freq = t'.freq ∧ t.width = t'.width ∧ t.gain = t'.gain

/-- The step on a command word is the command set's reference semantics of that word under the F32
configuration (R2, R7, R69). -/
def Obligations.StepIsReferenceCommand : Prop :=
  ∀ (s : State) (w : Word) (rest : List HostEvent), s.pending = .command w :: rest →
    (∀ e, runWord s.config w s.toEngine = .ok e →
      ∃ n, step s = .next { toEngine := e, pending := rest, nanTick := n }) ∧
    (∀ f, runWord s.config w s.toEngine = .error f → step s = .fault f)

/-! ### Arithmetic (00_scope.md) -/

/-- R9: a rounding takes the nearest pattern, the even one on a tie, and the infinity exactly from the
middle above the largest finite pattern; the argument is `n / d` units of 2^-149. -/
def Obligations.RoundingIsNearestEven : Prop :=
  ∀ n d : Nat, 0 < d →
    (Binary32.roundMag n d < Binary32.infMag → ∀ m : Nat,
      |(n : ℤ) - d * Binary32.magUnits (Binary32.roundMag n d)| ≤
        |(n : ℤ) - d * Binary32.magUnits m| ∧
      (m ≠ Binary32.roundMag n d →
        |(n : ℤ) - d * Binary32.magUnits (Binary32.roundMag n d)| =
          |(n : ℤ) - d * Binary32.magUnits m| → Binary32.roundMag n d % 2 = 0)) ∧
    (Binary32.roundMag n d = Binary32.infMag ↔
      d * (2 ^ 25 - 1) * 2 ^ 253 ≤ 2 * n)

/-- R8, R9, R14: a sum, difference, product, quotient or root of finite values is one rounding of the exact
result: the nearest finite datum, the even one on a tie, and an infinity exactly from the middle past the
largest finite value on. -/
def Obligations.OperationsRoundOnce : Prop :=
  ∀ nan x y : F32, Binary32.isFinite x = true → Binary32.isFinite y = true →
    let v := Reals.ofBits
    RoundedOnce (v x + v y) (Binary32.add nan x y) ∧
    RoundedOnce (v x - v y) (Binary32.sub nan x y) ∧
    RoundedOnce (v x * v y) (Binary32.mul nan x y) ∧
    (v y ≠ 0 → RoundedOnce (v x / v y) (Binary32.div nan x y)) ∧
    (0 ≤ v x → Binary32.isFinite (Binary32.sqrt nan x) = true ∧
      RoundedOnce (Real.sqrt (v x)) (Binary32.sqrt nan x))

/-- R9: the sign of an exact zero result: a sum of operands of opposite sign is +0, and a product or
quotient carries the exclusive-or of the signs. -/
def Obligations.ZeroResultSigns : Prop :=
  ∀ nan x y : F32, Binary32.isFinite x = true → Binary32.isFinite y = true →
    (Binary32.signBit x ≠ Binary32.signBit y → Binary32.units x + Binary32.units y = 0 →
      Binary32.add nan x y = 0x00000000#32) ∧
    (Binary32.units x * Binary32.units y = 0 →
      Binary32.mul nan x y =
        if Binary32.signBit x = Binary32.signBit y then 0x00000000#32 else 0x80000000#32) ∧
    (Binary32.units x = 0 → Binary32.units y ≠ 0 →
      Binary32.div nan x y =
        if Binary32.signBit x = Binary32.signBit y then 0x00000000#32 else 0x80000000#32)

/-- R13: (S1) and (S2) of SIN2PI, in both modes. -/
def Obligations.SineProperties : Prop :=
  (∀ p : F32, Binary32.inUnit p = true →
    Binary32.le 0xBF800000#32 (Binary32.sin2pi p) = true ∧
    Binary32.le (Binary32.sin2pi p) 0x3F800000#32 = true) ∧
  isZero (Binary32.sin2pi 0x00000000#32) ∧ Binary32.sin2pi 0x3E800000#32 = 0x3F800000#32 ∧
  isZero (Binary32.sin2pi 0x3F000000#32) ∧ Binary32.sin2pi 0x3F400000#32 = 0xBF800000#32 ∧
  (∀ p : ℝ, Reals.config.sin2pi p = Real.sin (2 * Real.pi * p)) ∧
  (∀ p : ℝ, -1 ≤ Reals.config.sin2pi p ∧ Reals.config.sin2pi p ≤ 1) ∧
  Reals.config.sin2pi 0 = 0 ∧ Reals.config.sin2pi (1 / 4) = 1 ∧
  Reals.config.sin2pi (1 / 2) = 0 ∧ Reals.config.sin2pi (3 / 4) = -1

/-- R6, R7, R169: building the model, for either arithmetic, refuses exactly the parameters that break a
constraint of R6 (or are no fractions at all), and accepts VIBCORE's; no configuration holds others. -/
def Obligations.BadConfigurationRefused : Prop :=
  (∀ (N : Type) (A : Arith N) (P : Params), P.wellFormed = false →
    build A P = .error .configuration) ∧
  (∀ (N : Type) (A : Arith N) (P : Params), P.wellFormed = true →
    ∃ C, build A P = .ok C ∧ C.toArith = A ∧ C.toParams = P) ∧
  (∀ P : Params, P.wellFormed = true ↔
    (∀ q ∈ [P.maxWidth, P.capFactor, P.k, P.transTime, P.freqMin, P.freqMax, P.widthMin, P.gainMin,
      P.gainMax, P.defFreq, P.defWidth, P.defGain], 0 < q.den) ∧
    3 ≤ P.guard ∧ ratio P.k < 1 ∧
    0 < ratio P.maxWidth ∧ 0 < ratio P.transTime ∧ 0 < ratio P.capFactor ∧ 0 < ratio P.freqMin ∧
    0 < ratio P.freqMax ∧ 0 < ratio P.widthMin ∧
    ratio P.freqMin ≤ ratio P.freqMax ∧ ratio P.widthMin ≤ ratio P.maxWidth ∧
    ratio P.gainMin ≤ ratio P.gainMax ∧
    ratio P.freqMin ≤ ratio P.defFreq ∧ ratio P.defFreq ≤ ratio P.freqMax ∧
    ratio P.widthMin ≤ ratio P.defWidth ∧ ratio P.defWidth ≤ ratio P.maxWidth ∧
    ratio P.gainMin ≤ ratio P.defGain ∧ ratio P.defGain ≤ ratio P.gainMax ∧
    1 ≤ P.maxCapacity ∧ P.maxCapacity ≤ 2 ^ 20 ∧ P.srMax ≤ 2 ^ 24) ∧
  (∀ nan : F32, build (Binary32.arith nan) Params.vibcore = .ok (Binary32.config nan)) ∧
  build Reals.arith Params.vibcore = .ok Reals.config ∧
  (∀ (N : Type) (C : Config N), C.toParams.wellFormed = true)

/-! ### The data path (40_datapath.md) -/

/-- R102, R103, R110: MODF lies in `[0, m)` in both modes, and is exact below `2m` under F32 and everywhere
under REAL; the read position is MODF of `((WCUR - d × SR) + CAP) - GUARD`, operation by operation, with its
exact value under REAL and V-RP-1 as an example; a sample is the interpolation at the read position of the
delay. -/
def Obligations.ModfRange : Prop :=
  (∀ (nan x : F32) (m : Nat), Binary32.isFinite x = true → 1 ≤ m → m ≤ 2 ^ 24 →
    let r := modf (Binary32.config nan) x m
    Binary32.isFinite r = true ∧ 0 ≤ Binary32.units r ∧ Binary32.units r < m * 2 ^ 149 ∧
    (0 ≤ Binary32.units x → Binary32.units x < 2 * m * 2 ^ 149 →
      Binary32.units r = Binary32.units x % (m * 2 ^ 149))) ∧
  (∀ (x : ℝ) (m : Nat), 1 ≤ m →
    modf Reals.config x m = x - m * ⌊x / m⌋ ∧ 0 ≤ modf Reals.config x m ∧ modf Reals.config x m < m) ∧
  (∀ (nan x : F32) (m : Nat), Binary32.isFinite x = true → 1 ≤ m → m ≤ 2 ^ 24 →
    ∃ r, RoundedOnce (Reals.ofBits x - m * ⌊Reals.ofBits x / m⌋) r ∧
      modf (Binary32.config nan) x m = if Reals.ofBits r = m then 0x00000000#32 else r) ∧
  (∀ (nan d : F32) (e : Engine F32), readPos (Binary32.config nan) e d =
    modf (Binary32.config nan)
      (Binary32.sub nan
        (Binary32.add nan
          (Binary32.sub nan (Binary32.toNum e.wcur.toNat) (Binary32.mul nan d (Binary32.toNum e.sr.toNat)))
          (Binary32.toNum e.cap.toNat))
        0x40400000#32)
      e.cap.toNat) ∧
  (∀ (d : ℝ) (e : Engine ℝ), 1 ≤ e.cap.toNat →
    let x : ℝ := e.wcur.toNat - d * e.sr.toNat + e.cap.toNat - 3
    readPos Reals.config e d = x - e.cap.toNat * ⌊x / e.cap.toNat⌋ ∧
    (0 ≤ x → x < e.cap.toNat → readPos Reals.config e d = x) ∧
    (e.cap.toNat ≤ x → x < 2 * e.cap.toNat → readPos Reals.config e d = x - e.cap.toNat)) ∧
  (∀ (N : Type) (C : Config N) (e : Engine N) (w : N),
    sample C e w = interp C e (readPos C e (delay C e.phase w))) ∧
  (∀ (nan : F32) (e : Engine F32), e.wcur = 10#32 → e.sr = 80#32 → e.cap = 48#32 →
    readPos (Binary32.config nan) e 0x3DC00000#32 = 0x423E0000#32)

/-- R108 and R109 (the spec's own derivation): the delay is `w × (1/2 + (1/2 × SIN2PI))`, operation by
operation, lies in `[0, w]` at every phase, and takes its quarter-phase values, each in both modes. -/
def Obligations.DelayBound : Prop :=
  (∀ nan p w : F32, Binary32.inUnit p = true → Binary32.isFinite w = true → 0 ≤ Binary32.units w →
    Binary32.isFinite (delay (Binary32.config nan) p w) = true ∧
    0 ≤ Binary32.units (delay (Binary32.config nan) p w) ∧
    Binary32.units (delay (Binary32.config nan) p w) ≤ Binary32.units w) ∧
  (∀ nan w : F32, widthOk w →
    2 * Binary32.units (delay (Binary32.config nan) 0x00000000#32 w) = Binary32.units w ∧
    delay (Binary32.config nan) 0x3E800000#32 w = w ∧
    2 * Binary32.units (delay (Binary32.config nan) 0x3F000000#32 w) = Binary32.units w ∧
    isZero (delay (Binary32.config nan) 0x3F400000#32 w)) ∧
  (∀ p w : ℝ, 0 ≤ w → 0 ≤ delay Reals.config p w ∧ delay Reals.config p w ≤ w) ∧
  (∀ w : ℝ, delay Reals.config 0 w = w / 2 ∧ delay Reals.config (1 / 4) w = w ∧
    delay Reals.config (1 / 2) w = w / 2 ∧ delay Reals.config (3 / 4) w = 0) ∧
  (∀ nan p w : F32, delay (Binary32.config nan) p w =
    Binary32.mul nan w
      (Binary32.add nan 0x3F000000#32 (Binary32.mul nan 0x3F000000#32 (Binary32.sin2pi p)))) ∧
  (∀ p w : ℝ, delay Reals.config p w = w * (1 / 2 + 1 / 2 * Real.sin (2 * Real.pi * p)))

/-- R104, R105: the tap indices of `0 <= i < CAP` lie in the buffer and are distinct, in each of the four
configurations, and the fractional part is exact under F32; the interpolation is R105's formula of the words
at those indices, operation by operation. -/
def Obligations.TapConfigurations : Prop :=
  (∀ (cap : Reg) (i : ℤ), 6 ≤ cap.toNat → 0 ≤ i → i < regInt cap →
    [circular cap (i - 1), i, circular cap (i + 1), circular cap (i + 2)].Nodup ∧
    (∀ j : ℤ, 0 ≤ circular cap j ∧ circular cap j < regInt cap) ∧
    (1 ≤ i → i ≤ regInt cap - 3 →
      circular cap (i - 1) = i - 1 ∧ circular cap (i + 1) = i + 1 ∧ circular cap (i + 2) = i + 2) ∧
    (i = 0 → circular cap (i - 1) = regInt cap - 1 ∧ circular cap (i + 1) = 1 ∧
      circular cap (i + 2) = 2) ∧
    (i = regInt cap - 2 → circular cap (i - 1) = i - 1 ∧ circular cap (i + 1) = i + 1 ∧
      circular cap (i + 2) = 0) ∧
    (i = regInt cap - 1 → circular cap (i - 1) = i - 1 ∧ circular cap (i + 1) = 0 ∧
      circular cap (i + 2) = 1)) ∧
  (∀ (nan pos : F32) (i : ℤ), Binary32.floor pos = some i → 0 ≤ i → i < 2 ^ 24 →
    Binary32.units (Binary32.sub nan pos (Binary32.toNum i)) = Binary32.units pos - i * 2 ^ 149 ∧
    0 ≤ Binary32.units pos - i * 2 ^ 149 ∧ Binary32.units pos - i * 2 ^ 149 < 2 ^ 149) ∧
  (∀ (nan pos s0 s1 s2 s3 : F32) (e : Engine F32) (i : ℤ), Binary32.floor pos = some i →
    bufRead (Binary32.config nan) e (circular e.cap (i - 1)) = .ok s0 →
    bufRead (Binary32.config nan) e i = .ok s1 →
    bufRead (Binary32.config nan) e (circular e.cap (i + 1)) = .ok s2 →
    bufRead (Binary32.config nan) e (circular e.cap (i + 2)) = .ok s3 →
    let mul := Binary32.mul nan
    let a := Binary32.sub nan pos (Binary32.toNum i)
    let am1 := Binary32.sub nan a 0x3F800000#32
    let am2 := Binary32.sub nan a 0x40000000#32
    let ap1 := Binary32.add nan a 0x3F800000#32
    let t0 := Binary32.div nan (mul (mul (mul a am1) am2) s0) 0xC0C00000#32
    let t1 := Binary32.div nan (mul (mul (mul am1 ap1) am2) s1) 0x40000000#32
    let t2 := Binary32.div nan (mul (mul (mul a ap1) am2) s2) 0xC0000000#32
    let t3 := Binary32.div nan (mul (mul (mul a ap1) am1) s3) 0x40C00000#32
    interp (Binary32.config nan) e pos =
      .ok (Binary32.add nan (Binary32.add nan (Binary32.add nan t0 t1) t2) t3))

/-- R106: at `a = 0` the interpolation is the tap at `floor(pos)`, numerically exactly, in all four
configurations and both modes; under F32 for finite taps with `|s1| < 2^127`. -/
def Obligations.InterpolationIdentity : Prop :=
  (∀ (nan pos y s1 : F32) (e : Engine F32) (i : ℤ), Binary32.floor pos = some i →
    Binary32.units pos = i * 2 ^ 149 → i < 2 ^ 24 →
    (∀ k, Binary32.isFinite (bufWord e k) = true) →
    bufRead (Binary32.config nan) e i = .ok s1 → |Binary32.units s1| < 2 ^ 276 →
    interp (Binary32.config nan) e pos = .ok y →
    Binary32.isFinite y = true ∧ Binary32.units y = Binary32.units s1) ∧
  (∀ (e : Engine ℝ) (i : ℤ) (y s1 : ℝ), bufRead Reals.config e i = .ok s1 →
    interp Reals.config e i = .ok y → y = s1)

/-- R107: under REAL the cubic's weights sum to 1 and reproduce every polynomial of degree at most 3; on
`[0, 1)` their signs and the sum of their magnitudes are as stated, so the result is at most 1.25 times the
largest tap; and their values at 1/2 and 1/4. -/
def Obligations.CubicWeightLaws : Prop :=
  let W0 := fun a : ℝ => cubic Reals.config a 1 0 0 0
  let W1 := fun a : ℝ => cubic Reals.config a 0 1 0 0
  let W2 := fun a : ℝ => cubic Reals.config a 0 0 1 0
  let W3 := fun a : ℝ => cubic Reals.config a 0 0 0 1
  (∀ a s0 s1 s2 s3 : ℝ, cubic Reals.config a s0 s1 s2 s3 =
    W0 a * s0 + W1 a * s1 + W2 a * s2 + W3 a * s3) ∧
  (∀ a : ℝ, W0 a + W1 a + W2 a + W3 a = 1) ∧
  (∀ a i c0 c1 c2 c3 : ℝ,
    let f := fun x : ℝ => c0 + c1 * x + c2 * x ^ 2 + c3 * x ^ 3
    cubic Reals.config a (f (i - 1)) (f i) (f (i + 1)) (f (i + 2)) = f (i + a)) ∧
  (∀ a : ℝ, 0 ≤ a → a < 1 → W0 a ≤ 0 ∧ W3 a ≤ 0 ∧ 0 ≤ W1 a ∧ 0 ≤ W2 a ∧
    |W0 a| + |W1 a| + |W2 a| + |W3 a| = 1 + a * (1 - a)) ∧
  (∀ a M s0 s1 s2 s3 : ℝ, 0 ≤ a → a < 1 → |s0| ≤ M → |s1| ≤ M → |s2| ≤ M → |s3| ≤ M →
    |cubic Reals.config a s0 s1 s2 s3| ≤ 1.25 * M) ∧
  (W0 (1 / 2) = -1 / 16 ∧ W1 (1 / 2) = 9 / 16 ∧ W2 (1 / 2) = 9 / 16 ∧ W3 (1 / 2) = -1 / 16) ∧
  (W0 (1 / 4) = -7 / 128 ∧ W1 (1 / 4) = 105 / 128 ∧ W2 (1 / 4) = 35 / 128 ∧ W3 (1 / 4) = -5 / 128)

/-- R111, R186: in a prepared state that meets the invariant, for every width up to WIDTH_MAX, each tap that
SAMPLE reads lies at least 1 and at most `GUARD + ceil(MAX_WIDTH × SR) + 2 <= CAP - 1` behind the cursor:
never the word the step overwrites. -/
def Obligations.TapsStayBehindCursor : Prop :=
  ∀ (s : State) (w : F32), Inv s.toEngine → s.status.prepared = true → Binary32.isFinite w = true →
    0 ≤ Binary32.units w → Binary32.units w ≤ Binary32.units 0x3ECCCCCD#32 →
    ∃ i : ℤ, Binary32.floor (readPos s.config s.toEngine (delay s.config s.phase w)) = some i ∧
      0 ≤ i ∧ i < regInt s.cap ∧
      (∀ j ∈ [-1, 0, 1, 2],
        1 ≤ distance s.toEngine (circular s.cap (i + j)) ∧
        distance s.toEngine (circular s.cap (i + j)) ≤ 3 + ⌈(2 / 5 : ℚ) * s.sr.toNat⌉ + 2) ∧
      3 + ⌈(2 / 5 : ℚ) * s.sr.toNat⌉ + 2 ≤ regInt s.cap - 1

/-- R113 (a), (b) and R112 under REAL: one smoothing lies between its operands, `n` of them towards a
constant give the geometric approach, and the raw value is never reached. -/
def Obligations.SmootherRealLaws : Prop :=
  (∀ p s : ℝ, smooth Reals.config p s = (1 - 19 / 20) * p + 19 / 20 * s) ∧
  (∀ p s lo hi : ℝ, lo ≤ p → p ≤ hi → lo ≤ s → s ≤ hi →
    lo ≤ smooth Reals.config p s ∧ smooth Reals.config p s ≤ hi) ∧
  (∀ (p s : ℝ) (n : Nat), (smooth Reals.config p)^[n] s = p + (19 / 20) ^ n * (s - p)) ∧
  (∀ (p s : ℝ) (n : Nat), s ≠ p → (smooth Reals.config p)^[n] s ≠ p)

/-- R112 with R113 (c) and R56 (the spec's own derivations): under F32 the smoother is the rounded sum of the
two rounded products, monotone in each argument, does not fix every value, can stall short of its target, and
fixes the six range bounds. -/
def Obligations.SmootherF32Laws : Prop :=
  (∀ nan p p' s s' : F32, Binary32.isFinite p = true → Binary32.isFinite p' = true →
    Binary32.isFinite s = true → Binary32.isFinite s' = true →
    Binary32.units p ≤ Binary32.units p' → Binary32.units s ≤ Binary32.units s' →
    Binary32.le (smooth (Binary32.config nan) p s) (smooth (Binary32.config nan) p' s') = true) ∧
  (∀ nan : F32, smooth (Binary32.config nan) 0x3FDEB4FF#32 0x3FDEB4FF#32 = 0x3FDEB4FE#32) ∧
  (∀ nan : F32, (smooth (Binary32.config nan) 0x3CA3D70A#32)^[259] 0x3C03126F#32 = 0x3CA3D700#32 ∧
    smooth (Binary32.config nan) 0x3CA3D70A#32 0x3CA3D700#32 = 0x3CA3D700#32) ∧
  (∀ nan : F32, ∀ b ∈ [0x3C23D70A#32, 0x41A00000#32, 0x3A03126F#32, 0x3ECCCCCD#32, 0x3D0186E2#32,
    0x41200000#32], smooth (Binary32.config nan) b b = b) ∧
  (∀ nan p s : F32, smooth (Binary32.config nan) p s =
    Binary32.add nan (Binary32.mul nan 0x3D4CCCD0#32 p) (Binary32.mul nan 0x3F733333#32 s))

/-- R115: the weights are the roots of `1 - r` and `r`; the ratio `r` lies in `[0, 1)` in both modes, the
weights at counter 0 are exactly 1 and 0, and under REAL their squares sum to 1. -/
def Obligations.WeightsLaws : Prop :=
  (∀ (nan : F32) (c len : Nat), weights (Binary32.config nan) c len =
    (Binary32.sqrt nan (Binary32.sub nan 0x3F800000#32
        (Binary32.div nan (Binary32.toNum c) (Binary32.toNum len))),
      Binary32.sqrt nan (Binary32.div nan (Binary32.toNum c) (Binary32.toNum len)))) ∧
  (∀ c len : Nat, weights Reals.config c len =
    (Real.sqrt (1 - (c : ℝ) / len), Real.sqrt ((c : ℝ) / len))) ∧
  weights Reals.config 4 16 = (Real.sqrt 3 / 2, 1 / 2) ∧
  (∀ (nan : F32) (c len : Nat), c < len → len ≤ 2 ^ 24 →
    let r := Binary32.div nan (Binary32.toNum c) (Binary32.toNum len)
    Binary32.isFinite r = true ∧ 0 ≤ Binary32.units r ∧ Binary32.units r < 2 ^ 149) ∧
  (∀ (nan : F32) (len : Nat), 1 ≤ len → len ≤ 2 ^ 24 →
    weights (Binary32.config nan) 0 len = (0x3F800000#32, 0x00000000#32)) ∧
  (∀ c len : Nat, c < len →
    0 ≤ (c : ℝ) / len ∧ (c : ℝ) / len < 1 ∧
    (weights Reals.config c len).1 ^ 2 + (weights Reals.config c len).2 ^ 2 = 1) ∧
  (∀ len : Nat, 1 ≤ len → weights Reals.config 0 len = (1, 0))

/-- R116 with R119 (a) and (c) (the spec's own derivations): the blend is `(f1 × yp) + (f2 × ya)` at every
counter below the length, in both modes; at counter 0 it is the previous-width sample (under F32 for finite
samples); under REAL the weights' sum is at most the root of 2. -/
def Obligations.CrossfadeLaws : Prop :=
  (∀ (nan yp ya : F32) (len : Nat), 1 ≤ len → len ≤ 2 ^ 24 → Binary32.isFinite yp = true →
    Binary32.isFinite ya = true →
    Binary32.isFinite (blend (Binary32.config nan) 0 len yp ya) = true ∧
    Binary32.units (blend (Binary32.config nan) 0 len yp ya) = Binary32.units yp) ∧
  (∀ (len : Nat) (yp ya : ℝ), 1 ≤ len → blend Reals.config 0 len yp ya = yp) ∧
  (∀ c len : Nat, c < len →
    (weights Reals.config c len).1 + (weights Reals.config c len).2 ≤ Real.sqrt 2) ∧
  (∀ c : Nat, 1 ≤ c →
    (weights Reals.config c (2 * c)).1 + (weights Reals.config c (2 * c)).2 = Real.sqrt 2) ∧
  (∀ (nan yp ya : F32) (c len : Nat), c < len →
    let r := Binary32.div nan (Binary32.toNum c) (Binary32.toNum len)
    blend (Binary32.config nan) c len yp ya =
      Binary32.add nan (Binary32.mul nan (Binary32.sqrt nan (Binary32.sub nan 0x3F800000#32 r)) yp)
        (Binary32.mul nan (Binary32.sqrt nan r) ya)) ∧
  (∀ (yp ya : ℝ) (c len : Nat), c < len →
    blend Reals.config c len yp ya =
      Real.sqrt (1 - (c : ℝ) / len) * yp + Real.sqrt ((c : ℝ) / len) * ya)

/-! ### The sample step's laws -/

/-- R123, R168: an invalid operation's NaN reaches only OUT_L and OUT_R: which NaN it gives changes no other
register, and changes nothing where the output is no NaN (log 5). -/
def Obligations.NaNReachesOnlyOutputs : Prop :=
  ∀ (nan nan' bits : F32) (w : Word) (e r : Engine F32), Inv e → Binary32.isNaN nan = true →
    Binary32.isNaN nan' = true → process (Binary32.config nan) bits w e = .ok r →
    ∃ r', process (Binary32.config nan') bits w e = .ok r' ∧
      r' = { r with outL := r'.outL, outR := r'.outR } ∧
      (Binary32.isNaN r.outL = false → r' = r)

/-- R123: under F32 the output is finite whenever every buffer word has magnitude at most 2^100. -/
def Obligations.OutputFinite : Prop :=
  ∀ (bits : F32) (s t : State), Inv s.toEngine → s.status.prepared = true →
    (∀ i, |Binary32.units (bufWord s.toEngine i)| ≤ 2 ^ 249) → exec (.process bits) s = .next t →
    Binary32.isFinite t.outL = true ∧ Binary32.isFinite t.outR = true

/-- R137, under REAL: with every buffer word of magnitude at most `M`, an idle step outputs at most
`1.25 × M × SGAIN`, and any step at most `sqrt(2) × 1.25 × M × SGAIN`. -/
def Obligations.RealOutputBound : Prop :=
  ∀ (bits : F32) (w : Word) (e r : Engine ℝ) (M : ℝ), e.status.prepared = true → 0 ≤ M →
    (∀ i, |bufLookup 0 e.buf i| ≤ M) → 0 ≤ e.gain → 0 ≤ e.sgain →
    process Reals.config bits w e = .ok r →
    |r.outL| ≤ Real.sqrt 2 * 1.25 * M * r.sgain ∧
    (e.status.trans = false → smooth Reals.config e.width e.swidth = e.aw →
      |r.outL| ≤ 1.25 * M * r.sgain)

/-- R187, under REAL: once the raw width has changed, transitions follow one another without end: a PROCESS
that finds the crossfader Idle fires the trigger, and every PROCESS leaves the smoothed width short of the raw
one and of no committed width it could stop at. -/
def Obligations.GlidingNeverSettles : Prop :=
  (∀ (bits : F32) (w : Word) (e r : Engine ℝ), e.status.prepared = true → Gliding e →
    process Reals.config bits w e = .ok r →
    Gliding r ∧ r.status.prepared = true ∧ r.width = e.width ∧
    (e.status.trans = false → r.aw = r.swidth ∧ r.aw ≠ e.aw ∧ r.cnt = 1#32)) ∧
  (∀ e : Engine ℝ, e.swidth = e.aw → e.width ≠ e.aw → Gliding e)

/-- R144, under REAL: after `n` PROCESS commands the smoothed values are the geometric approach to the raw
ones; with K = 19/20 a step of 95% takes 59 samples. -/
def Obligations.SettersTakeEffectGeometrically : Prop :=
  (∀ (samples : List F32) (e r : Engine ℝ), e.status.prepared = true →
    runWords Reals.config (blockWords samples) e = .ok r →
    r.sfreq = e.freq + (19 / 20) ^ samples.length * (e.sfreq - e.freq) ∧
    r.swidth = e.width + (19 / 20) ^ samples.length * (e.swidth - e.width) ∧
    r.sgain = e.gain + (19 / 20) ^ samples.length * (e.sgain - e.gain)) ∧
  ((19 / 20 : ℝ) ^ 59 < 1 / 20 ∧ (1 / 20 : ℝ) < (19 / 20) ^ 58)
end

