-- ==== Sys2Proof/Laws/Binary32.lean ====
section
/-! SUPPORT. The laws of binary32 patterns: magnitude patterns are ordered as their values are, rounding
brackets its argument between two neighbouring patterns and takes the nearer one (R9), and from this:
rounding is monotone and leaves a representable value unchanged. -/

namespace Sys2Proof.Binary32

theorem unitScale_pos : 0 < unitScale := by unfold unitScale; positivity

/-! ### Magnitude patterns -/

/-- A significand of at most 24 bits at exponent `k`, normalised unless `k = 0`, has the value `q × 2^k`. -/
theorem magUnits_layout {k q : Nat} (hq : q < 2 ^ 24) (hn : k = 0 ∨ 2 ^ 23 ≤ q) :
    magUnits (k * 2 ^ 23 + q) = q * 2 ^ k := by
  unfold magUnits
  by_cases h : q < 2 ^ 23
  · obtain rfl : k = 0 := by omega
    rw [if_pos (by omega)]
    omega
  · have e1 : (k * 2 ^ 23 + q) / 2 ^ 23 = k + 1 := by omega
    have e2 : (k * 2 ^ 23 + q) % 2 ^ 23 = q - 2 ^ 23 := by omega
    rw [e1, e2, if_neg (by omega), show 2 ^ 23 + (q - 2 ^ 23) = q by omega]
    simp

/-- The same one place further, where the significand may carry into the next exponent. -/
theorem magUnits_layout_succ {k q : Nat} (hq : q < 2 ^ 24) (hn : k = 0 ∨ 2 ^ 23 ≤ q) :
    magUnits (k * 2 ^ 23 + q + 1) = (q + 1) * 2 ^ k := by
  by_cases h : q + 1 < 2 ^ 24
  · rw [Nat.add_assoc]
    exact magUnits_layout h (by omega)
  · obtain rfl : q = 2 ^ 24 - 1 := by omega
    have := magUnits_layout (k := k + 1) (q := 2 ^ 23) (by norm_num) (by norm_num)
    rw [show k * 2 ^ 23 + (2 ^ 24 - 1) + 1 = (k + 1) * 2 ^ 23 + 2 ^ 23 by omega, this]
    rw [pow_succ]; ring_nf

/-- Every magnitude pattern has such a layout. -/
theorem magBits_layout (m : Nat) :
    ∃ k q, m = k * 2 ^ 23 + q ∧ q < 2 ^ 24 ∧ (k = 0 ∨ 2 ^ 23 ≤ q) := by
  by_cases h : m < 2 ^ 23
  · exact ⟨0, m, by omega, by omega, .inl rfl⟩
  · exact ⟨m / 2 ^ 23 - 1, 2 ^ 23 + m % 2 ^ 23, by omega, by omega, .inr (by omega)⟩

theorem magUnits_lt_succ (m : Nat) : magUnits m < magUnits (m + 1) := by
  obtain ⟨k, q, rfl, hq, hn⟩ := magBits_layout m
  rw [magUnits_layout hq hn, magUnits_layout_succ hq hn]
  exact Nat.mul_lt_mul_of_pos_right (Nat.lt_succ_self q) (by positivity)

/-- Magnitude patterns are ordered as their values are. -/
theorem magUnits_strictMono : StrictMono magUnits := strictMono_nat_of_lt_succ magUnits_lt_succ

@[simp] theorem magUnits_zero : magUnits 0 = 0 := by decide

@[simp] theorem magUnits_inj {m n : Nat} : magUnits m = magUnits n ↔ m = n :=
  magUnits_strictMono.injective.eq_iff

@[simp] theorem magUnits_le {m n : Nat} : magUnits m ≤ magUnits n ↔ m ≤ n :=
  magUnits_strictMono.le_iff_le

@[simp] theorem magUnits_lt {m n : Nat} : magUnits m < magUnits n ↔ m < n :=
  magUnits_strictMono.lt_iff_lt

/-! ### Rounding -/

/-- What rounding does: it brackets `n / d` between the values of neighbouring patterns `m` and `m + 1`,
and takes the nearer one, on a tie the even one, or the infinity where that lies past the largest finite
pattern (R9). -/
theorem roundMag_spec (n : Nat) {d : Nat} (hd : 0 < d) :
    ∃ m, d * magUnits m ≤ n ∧ n < d * magUnits (m + 1) ∧
      roundMag n d = min (if d * (magUnits m + magUnits (m + 1)) < 2 * n ∨
        (d * (magUnits m + magUnits (m + 1)) = 2 * n ∧ m % 2 = 1) then m + 1 else m) infMag := by
  set k := Nat.log2 (n / d) - 23 with hk
  set w := d * 2 ^ k with hw
  have hwpos : 0 < w := by positivity
  set q := n / w with hq
  have hdiv : q = n / d / 2 ^ k := by rw [hq, hw, Nat.div_div_eq_div_mul]
  have hlt : q < 2 ^ 24 := by
    rw [hdiv]
    apply Nat.div_lt_of_lt_mul
    rw [← pow_add]
    rcases Nat.eq_zero_or_pos (n / d) with h0 | h0
    · rw [h0]; positivity
    · have := (Nat.log2_lt (by omega : n / d ≠ 0)).1 (Nat.lt_succ_self (Nat.log2 (n / d)))
      exact lt_of_lt_of_le this (Nat.pow_le_pow_right (by norm_num) (by omega))
  have hnorm : k = 0 ∨ 2 ^ 23 ≤ q := by
    rcases Nat.eq_zero_or_pos k with h0 | h0
    · exact .inl h0
    · right
      rw [hdiv, Nat.le_div_iff_mul_le (by positivity), ← pow_add]
      have h1 : n / d ≠ 0 := by
        intro h; rw [h] at hk; simp at hk; omega
      have := Nat.log2_self_le h1
      exact le_trans (Nat.pow_le_pow_right (by norm_num) (by omega)) this
  have hmod : n = w * q + n % w := (Nat.div_add_mod n w).symm
  have hr : n % w < w := Nat.mod_lt _ hwpos
  refine ⟨k * 2 ^ 23 + q, ?_, ?_, ?_⟩
  · rw [magUnits_layout hlt hnorm]
    calc d * (q * 2 ^ k) = w * q := by rw [hw]; ring
      _ ≤ n := by omega
  · rw [magUnits_layout_succ hlt hnorm]
    calc n < w * q + w := by omega
      _ = d * ((q + 1) * 2 ^ k) := by rw [hw]; ring
  · rw [magUnits_layout hlt hnorm, magUnits_layout_succ hlt hnorm]
    have hmid : d * (q * 2 ^ k + (q + 1) * 2 ^ k) = 2 * (w * q) + w := by rw [hw]; ring
    have hpar : (k * 2 ^ 23 + q) % 2 = q % 2 := by omega
    rw [hmid, hpar]
    unfold roundMag
    simp only [← hk, ← hw, ← hq]
    have hc : (decide (w < 2 * (n % w)) || (2 * (n % w) == w && q % 2 == 1)) = true ↔
        (2 * (w * q) + w < 2 * n ∨ (2 * (w * q) + w = 2 * n ∧ q % 2 = 1)) := by
      simp only [Bool.or_eq_true, decide_eq_true_eq, Bool.and_eq_true, beq_iff_eq]
      constructor
      · rintro (h | ⟨h, h'⟩)
        · left; omega
        · right; exact ⟨by omega, h'⟩
      · rintro (h | ⟨h, h'⟩)
        · left; omega
        · right; exact ⟨by omega, h'⟩
    by_cases h : (decide (w < 2 * (n % w)) || (2 * (n % w) == w && q % 2 == 1)) = true
    · rw [if_pos h, if_pos (hc.1 h), Nat.add_assoc]
    · rw [if_neg h, if_neg (fun h' => h (hc.2 h'))]

theorem roundMag_le_infMag (n d : Nat) : roundMag n d ≤ infMag := min_le_right _ _

/-- Where a rounded value lies: at most `m` exactly when the argument is below the middle of `m` and the
next pattern, or on it with `m` even. -/
theorem roundMag_le_iff (n : Nat) {d m : Nat} (hd : 0 < d) (hm : m < infMag) :
    roundMag n d ≤ m ↔ 2 * n < d * (magUnits m + magUnits (m + 1)) ∨
      (2 * n = d * (magUnits m + magUnits (m + 1)) ∧ m % 2 = 0) := by
  obtain ⟨m0, h1, h2, h3⟩ := roundMag_spec n hd
  have key : ∀ a b : Nat, a < b → d * magUnits a < d * magUnits b := fun a b h =>
    Nat.mul_lt_mul_of_pos_left (magUnits_lt.2 h) hd
  have key' : ∀ a b : Nat, a ≤ b → d * magUnits a ≤ d * magUnits b := fun a b h =>
    Nat.mul_le_mul_left d (magUnits_le.2 h)
  rw [h3]
  simp only [Nat.mul_add]
  clear h3
  rcases lt_trichotomy m0 m with h | h | h
  · have a1 := key' (m0 + 1) m h
    have a2 := key m (m + 1) (Nat.lt_succ_self m)
    constructor
    · intro _; left; omega
    · intro _
      refine le_trans (min_le_left _ _) ?_
      split <;> omega
  · subst h
    constructor
    · intro hle
      rcases min_le_iff.1 hle with h' | h'
      · split at h' <;> omega
      · omega
    · intro hle
      rw [if_neg (by omega)]
      exact min_le_left _ _
  · have a1 := key' (m + 1) m0 h
    have a2 := key m (m + 1) (Nat.lt_succ_self m)
    have a3 := key m0 (m0 + 1) (Nat.lt_succ_self m0)
    constructor
    · intro hle
      exfalso
      rcases min_le_iff.1 hle with h' | h'
      · split at h' <;> omega
      · omega
    · intro hle
      omega

/-- Rounding is monotone. -/
theorem roundMag_mono {n d n' d' : Nat} (hd : 0 < d) (hd' : 0 < d') (h : n * d' ≤ n' * d) :
    roundMag n d ≤ roundMag n' d' := by
  by_cases hi : roundMag n' d' < infMag
  · rw [roundMag_le_iff n hd hi]
    have := (roundMag_le_iff n' hd' hi).1 le_rfl
    set s := magUnits (roundMag n' d') + magUnits (roundMag n' d' + 1)
    rcases this with h1 | ⟨h1, h2⟩
    · left
      have : 2 * n * d' < d * s * d' := by
        calc 2 * n * d' = 2 * (n * d') := by ring
          _ ≤ 2 * (n' * d) := by omega
          _ = 2 * n' * d := by ring
          _ < d' * s * d := Nat.mul_lt_mul_of_pos_right h1 hd
          _ = d * s * d' := by ring
      exact lt_of_mul_lt_mul_right this (Nat.zero_le d')
    · have : 2 * n * d' ≤ d * s * d' := by
        calc 2 * n * d' = 2 * (n * d') := by ring
          _ ≤ 2 * (n' * d) := by omega
          _ = 2 * n' * d := by ring
          _ = d' * s * d := by rw [h1]
          _ = d * s * d' := by ring
      have := le_of_mul_le_mul_right this hd'
      rcases lt_or_eq_of_le this with h3 | h3
      · exact .inl h3
      · exact .inr ⟨h3, h2⟩
  · exact le_trans (roundMag_le_infMag n d) (not_lt.1 hi)

/-- A representable value rounds to itself. -/
theorem roundMag_exact {m d : Nat} (hd : 0 < d) (hm : m ≤ infMag) :
    roundMag (magUnits m * d) d = m := by
  have hs : ∀ a, a + 1 = m → magUnits a < magUnits m := fun a h => magUnits_lt.2 (by omega)
  apply le_antisymm
  · by_cases hi : m < infMag
    · rw [roundMag_le_iff _ hd hi]
      left
      have := Nat.mul_lt_mul_of_pos_left (magUnits_lt_succ m) hd
      nlinarith
    · exact le_trans (roundMag_le_infMag _ _) (not_lt.1 hi)
  · rcases Nat.eq_zero_or_pos m with h0 | h0
    · omega
    · by_contra hlt
      have hle : roundMag (magUnits m * d) d ≤ m - 1 := by omega
      rw [roundMag_le_iff _ hd (by omega)] at hle
      have e : m - 1 + 1 = m := by omega
      rw [e] at hle
      have := Nat.mul_lt_mul_of_pos_left (hs (m - 1) e) hd
      rcases hle with h | ⟨h, -⟩ <;> nlinarith

theorem roundMag_zero {d : Nat} (hd : 0 < d) : roundMag 0 d = 0 := by
  have := roundMag_exact (m := 0) hd (by decide)
  simpa using this

/-! ### Patterns -/

theorem magBits_pack {neg : Bool} {m : Nat} (h : m < 2 ^ 31) : magBits (pack neg m) = m := by
  unfold magBits pack
  cases neg <;> simp [BitVec.toNat_ofNat] <;> omega

theorem signBit_pack {neg : Bool} {m : Nat} (h : m < 2 ^ 31) : signBit (pack neg m) = neg := by
  unfold signBit pack
  cases neg <;> simp [BitVec.toNat_ofNat] <;> omega

theorem magBits_lt (b : F32) : magBits b < 2 ^ 31 := Nat.mod_lt _ (by norm_num)

/-- A pattern is its sign and its magnitude bits. -/
theorem pack_unpacked (b : F32) : pack (signBit b) (magBits b) = b := by
  apply BitVec.eq_of_toNat_eq
  have := b.isLt
  unfold pack signBit magBits
  by_cases h : b.toNat / 2 ^ 31 = 1
  · rw [decide_eq_true h, BitVec.toNat_ofNat, Bool.toNat_true]; omega
  · rw [decide_eq_false h, BitVec.toNat_ofNat, Bool.toNat_false]; omega

theorem unpack_pack_fin {neg : Bool} {m : Nat} (h : m < infMag) :
    unpack (pack neg m) = .fin neg (magUnits m) := by
  have h31 : m < 2 ^ 31 := lt_trans h (by decide)
  unfold unpack isNaN isFinite
  rw [magBits_pack h31, signBit_pack h31]
  simp [h, not_lt.2 (le_of_lt h)]

theorem unpack_infinity (neg : Bool) : unpack (infinity neg) = .inf neg := by
  cases neg <;> decide

/-- A finite pattern's datum: its sign and the value of its magnitude bits. -/
theorem unpack_of_finite {b : F32} (h : isFinite b = true) :
    unpack b = .fin (signBit b) (magUnits (magBits b)) := by
  have h' : magBits b < infMag := by simpa [isFinite] using h
  conv_lhs => rw [← pack_unpacked b]
  exact unpack_pack_fin h'

/-- A pattern is finite exactly when its datum is. -/
theorem isFinite_iff (b : F32) : isFinite b = true ↔ ∃ s u, unpack b = .fin s u := by
  constructor
  · intro h; exact ⟨_, _, unpack_of_finite h⟩
  · rintro ⟨s, u, h⟩
    unfold unpack at h
    split at h
    · cases h
    · split at h
      · assumption
      · cases h

/-- The exact value of a finite pattern. -/
theorem units_of_finite {b : F32} (h : isFinite b = true) :
    units b = signed (signBit b) (magUnits (magBits b)) := by
  simp [units, unpack_of_finite h]

/-- The numeric order of finite patterns is the order of their values. -/
theorem le_iff_units {x y : F32} (hx : isFinite x = true) (hy : isFinite y = true) :
    le x y = true ↔ units x ≤ units y := by
  simp [le, orderKey, units, unpack_of_finite hx, unpack_of_finite hy]

@[simp] theorem signed_false (u : Nat) : signed false u = (u : Int) := by simp [signed]

@[simp] theorem signed_true (u : Nat) : signed true u = -(u : Int) := by simp [signed]

@[simp] theorem natAbs_signed (s : Bool) (u : Nat) : (signed s u).natAbs = u := by
  cases s <;> simp

end Sys2Proof.Binary32
end

