-- ==== Sys2Proof/Laws/Config.lean ====
section
/-! SUPPORT. The fields of the F32 configuration: each operation is that of Binary32.lean with the state's
free NaN, and the parameters are VIBCORE's. The proofs read `(rfl)`, not `rfl`, so that simp rewrites with
these equations and does not leave the kernel to compare open arithmetic by unfolding it. -/

namespace Sys2Proof.Binary32

variable (nan : F32)

@[simp] theorem config_add : (config nan).add = add nan := (rfl)
@[simp] theorem config_sub : (config nan).sub = sub nan := (rfl)
@[simp] theorem config_mul : (config nan).mul = mul nan := (rfl)
@[simp] theorem config_div : (config nan).div = div nan := (rfl)
@[simp] theorem config_sqrt : (config nan).sqrt = sqrt nan := (rfl)
@[simp] theorem config_sin2pi : (config nan).sin2pi = sin2pi := (rfl)
@[simp] theorem config_cnum : (config nan).cnum = cnum := (rfl)
@[simp] theorem config_toNum : (config nan).toNum = toNum := (rfl)
@[simp] theorem config_ofBits (b : F32) : (config nan).ofBits b = b := (rfl)
@[simp] theorem config_le : (config nan).le = le := (rfl)
@[simp] theorem config_floor : (config nan).floor = floor := (rfl)
@[simp] theorem config_rem : (config nan).rem = rem nan := (rfl)
@[simp] theorem config_toParams : (config nan).toParams = Params.vibcore := (rfl)

@[simp] theorem config_isPosZero (b : F32) : (config nan).isPosZero b = true ↔ b = 0x00000000#32 :=
  decide_eq_true_iff

/-- `toNum(0)` is +0 (R11). -/
@[simp] theorem toNum_zero : toNum 0 = 0x00000000#32 := by decide +kernel

/-! The constants' patterns (R10, R31 to R33, R112). -/

@[simp] theorem cnum_freqMin : cnum Params.vibcore.freqMin = 0x3C23D70A#32 := by decide +kernel
@[simp] theorem cnum_freqMax : cnum Params.vibcore.freqMax = 0x41A00000#32 := by decide +kernel
@[simp] theorem cnum_widthMin : cnum Params.vibcore.widthMin = 0x3A03126F#32 := by decide +kernel
@[simp] theorem cnum_maxWidth : cnum Params.vibcore.maxWidth = 0x3ECCCCCD#32 := by decide +kernel
@[simp] theorem cnum_gainMin : cnum Params.vibcore.gainMin = 0x3D0186E2#32 := by decide +kernel
@[simp] theorem cnum_gainMax : cnum Params.vibcore.gainMax = 0x41200000#32 := by decide +kernel
@[simp] theorem cnum_k : cnum Params.vibcore.k = 0x3F733333#32 := by decide +kernel
@[simp] theorem cnum_half : cnum ⟨1, 2⟩ = 0x3F000000#32 := by decide +kernel
@[simp] theorem toNum_guard : toNum (Params.vibcore.guard : Int) = 0x40400000#32 := by decide +kernel
@[simp] theorem toNum_one : toNum 1 = 0x3F800000#32 := by decide +kernel
@[simp] theorem toNum_two : toNum 2 = 0x40000000#32 := by decide +kernel
@[simp] theorem toNum_neg_two : toNum (-2) = 0xC0000000#32 := by decide +kernel
@[simp] theorem toNum_six : toNum 6 = 0x40C00000#32 := by decide +kernel
@[simp] theorem toNum_neg_six : toNum (-6) = 0xC0C00000#32 := by decide +kernel

end Sys2Proof.Binary32

namespace Sys2Proof.Machine

/-- The machine's configuration is the F32 one with the state's free NaN. -/
theorem State.config_eq (s : State) : s.config = Binary32.config (freeNaN s) := rfl

/-- The input sample under F32: a finite pattern itself, +0 for another (R130). -/
theorem inputSample_config (nan bits : F32) :
    inputSample (Binary32.config nan) bits =
      if Binary32.isFinite bits = true then bits else 0x00000000#32 := by
  unfold inputSample
  rw [Binary32.config_toNum, Binary32.toNum_zero, Binary32.config_ofBits]

end Sys2Proof.Machine
end

