-- ==== Sys2Proof/Laws/Decode.lean ====
section
/-! SUPPORT. The laws of the command word's fields (R80 to R84): packing a word and taking a field of it
undo each other. -/

namespace Sys2Proof

theorem opcField_toNat (w : Word) : (opcField w).toNat = w.toNat / 2 ^ 56 % 2 ^ 8 := by
  simp [opcField, BitVec.extractLsb'_toNat, Nat.shiftRight_eq_div_pow]

theorem midField_toNat (w : Word) : (midField w).toNat = w.toNat / 2 ^ 32 % 2 ^ 24 := by
  simp [midField, BitVec.extractLsb'_toNat, Nat.shiftRight_eq_div_pow]

theorem lowField_toNat (w : Word) : (lowField w).toNat = w.toNat % 2 ^ 32 := by
  simp [lowField, BitVec.extractLsb'_toNat]

theorem restField_toNat (w : Word) : (restField w).toNat = w.toNat % 2 ^ 56 := by
  simp [restField, BitVec.extractLsb'_toNat]

theorem packWord_toNat (opc : BitVec 8) (mid : BitVec 24) (low : BitVec 32) :
    (packWord opc mid low).toNat = (opc.toNat * 2 ^ 24 + mid.toNat) * 2 ^ 32 + low.toNat := by
  unfold packWord
  rw [BitVec.toNat_append, BitVec.toNat_append, ← Nat.shiftLeft_add_eq_or_of_lt low.isLt,
    ← Nat.shiftLeft_add_eq_or_of_lt mid.isLt, Nat.shiftLeft_eq, Nat.shiftLeft_eq]

@[simp] theorem opcField_packWord (opc : BitVec 8) (mid : BitVec 24) (low : BitVec 32) :
    opcField (packWord opc mid low) = opc := by
  apply BitVec.eq_of_toNat_eq
  rw [opcField_toNat, packWord_toNat]
  have := opc.isLt; have := mid.isLt; have := low.isLt
  omega

@[simp] theorem midField_packWord (opc : BitVec 8) (mid : BitVec 24) (low : BitVec 32) :
    midField (packWord opc mid low) = mid := by
  apply BitVec.eq_of_toNat_eq
  rw [midField_toNat, packWord_toNat]
  have := opc.isLt; have := mid.isLt; have := low.isLt
  omega

@[simp] theorem lowField_packWord (opc : BitVec 8) (mid : BitVec 24) (low : BitVec 32) :
    lowField (packWord opc mid low) = low := by
  apply BitVec.eq_of_toNat_eq
  rw [lowField_toNat, packWord_toNat]
  have := opc.isLt; have := mid.isLt; have := low.isLt
  omega

/-- A word is its three fields. -/
theorem packWord_fields (w : Word) : packWord (opcField w) (midField w) (lowField w) = w := by
  apply BitVec.eq_of_toNat_eq
  rw [packWord_toNat, opcField_toNat, midField_toNat, lowField_toNat]
  have := w.isLt
  omega

/-- Format N's reserved field is the other formats' two fields together (R81, R82). -/
theorem restField_eq_zero_iff (w : Word) :
    restField w = 0#56 ↔ midField w = 0#24 ∧ lowField w = 0#32 := by
  simp only [← BitVec.toNat_inj, restField_toNat, midField_toNat, lowField_toNat, BitVec.toNat_ofNat]
  have := w.isLt
  omega

end Sys2Proof
end

