-- ==== Sys2Proof/Laws/Memory.lean ====
section
/-! SUPPORT. The laws of the delay buffer (R61, R63): a read after a write gives the value written, a
write leaves every other word alone, PREPARE's clear is the loop of R154, and every operation keeps the
canonical form. -/

namespace Sys2Proof.Machine

variable {N : Type}

/-- The canonical form of a buffer list, with `isZero` the word an unlisted index reads as. -/
def Canonical (isZero : N → Bool) (b : List (Nat × N)) : Prop :=
  b.Pairwise (fun x y => x.1 < y.1) ∧ ∀ c ∈ b, isZero c.2 = false

theorem mem_bufCons {isZero : N → Bool} {i : Nat} {v : N} {rest : List (Nat × N)} {c : Nat × N}
    (h : c ∈ bufCons isZero i v rest) : c = (i, v) ∧ isZero v = false ∨ c ∈ rest := by
  unfold bufCons at h
  split at h
  · exact .inr h
  · rcases List.mem_cons.1 h with h | h
    · exact .inl ⟨h, by simpa using ‹¬ isZero v = true›⟩
    · exact .inr h

/-- Every entry of the list after a write is the written one or was there before. -/
theorem mem_bufInsert {isZero : N → Bool} {i : Nat} {v : N} {b : List (Nat × N)} {c : Nat × N}
    (h : c ∈ bufInsert isZero i v b) : c = (i, v) ∧ isZero v = false ∨ c ∈ b := by
  induction b with
  | nil => exact mem_bufCons h
  | cons p rest ih =>
    obtain ⟨j, u⟩ := p
    unfold bufInsert at h
    split at h
    · exact mem_bufCons h
    · split at h
      · exact (mem_bufCons h).imp id (List.mem_cons_of_mem _)
      · rcases List.mem_cons.1 h with h | h
        · exact .inr (by rw [h]; exact List.mem_cons_self ..)
        · exact (ih h).imp id (List.mem_cons_of_mem _)

theorem canonical_bufCons {isZero : N → Bool} {i : Nat} {v : N} {rest : List (Nat × N)}
    (h : Canonical isZero rest) (hi : ∀ c ∈ rest, i < c.1) :
    Canonical isZero (bufCons isZero i v rest) := by
  unfold bufCons
  split
  · exact h
  · rename_i hv
    refine ⟨List.pairwise_cons.2 ⟨fun c hc => hi c hc, h.1⟩, fun c hc => ?_⟩
    rcases List.mem_cons.1 hc with rfl | hc
    · simpa using hv
    · exact h.2 c hc

/-- A write keeps the canonical form. -/
theorem canonical_bufInsert {isZero : N → Bool} {b : List (Nat × N)} (i : Nat) (v : N)
    (h : Canonical isZero b) : Canonical isZero (bufInsert isZero i v b) := by
  induction b with
  | nil => exact canonical_bufCons h (by simp)
  | cons p rest ih =>
    obtain ⟨j, u⟩ := p
    have hp := List.pairwise_cons.1 h.1
    have hrest : Canonical isZero rest := ⟨hp.2, fun c hc => h.2 c (List.mem_cons_of_mem _ hc)⟩
    unfold bufInsert
    split
    · rename_i hij
      refine canonical_bufCons h fun c hc => ?_
      rcases List.mem_cons.1 hc with rfl | hc
      · exact hij
      · exact lt_trans hij (hp.1 c hc)
    · split
      · rename_i hij
        subst hij
        exact canonical_bufCons hrest fun c hc => hp.1 c hc
      · have := ih hrest
        refine ⟨List.pairwise_cons.2 ⟨fun c hc => ?_, this.1⟩, fun c hc => ?_⟩
        · rcases mem_bufInsert hc with ⟨rfl, -⟩ | hc
          · simp only; omega
          · exact hp.1 c hc
        · rcases List.mem_cons.1 hc with rfl | hc
          · exact h.2 _ (List.mem_cons_self ..)
          · exact this.2 c hc

/-- PREPARE's clear keeps the canonical form. -/
theorem canonical_bufClear {isZero : N → Bool} {b : List (Nat × N)} (cap : Nat)
    (h : Canonical isZero b) : Canonical isZero (bufClear cap b) :=
  ⟨h.1.filter _, fun c hc => h.2 c (List.mem_filter.1 hc).1⟩

theorem bufLookup_of_lt {zero : N} {i : Nat} {b : List (Nat × N)} (h : ∀ c ∈ b, i < c.1) :
    bufLookup zero b i = zero := by
  induction b with
  | nil => rfl
  | cons p rest ih =>
    obtain ⟨j, u⟩ := p
    have := h (j, u) (List.mem_cons_self ..)
    unfold bufLookup
    rw [if_neg (by simp only at this; omega)]
    exact ih fun c hc => h c (List.mem_cons_of_mem _ hc)

theorem bufLookup_bufCons {isZero : N → Bool} {zero : N} (hz : ∀ v, isZero v = true → v = zero)
    {i : Nat} {v : N} {rest : List (Nat × N)} (hi : ∀ c ∈ rest, i < c.1) (k : Nat) :
    bufLookup zero (bufCons isZero i v rest) k = if k = i then v else bufLookup zero rest k := by
  unfold bufCons
  split
  · rename_i hv
    split
    · rename_i hk; rw [hk, hz v hv]; exact bufLookup_of_lt hi
    · rfl
  · rw [bufLookup]
    split <;> split <;> first | rfl | omega

/-- A read after a write: the written word at its index, every other word as before. -/
theorem bufLookup_bufInsert {isZero : N → Bool} {zero : N} (hz : ∀ v, isZero v = true → v = zero)
    {b : List (Nat × N)} (h : Canonical isZero b) (i : Nat) (v : N) (k : Nat) :
    bufLookup zero (bufInsert isZero i v b) k = if k = i then v else bufLookup zero b k := by
  induction b with
  | nil => exact bufLookup_bufCons hz (by simp) k
  | cons p rest ih =>
    obtain ⟨j, u⟩ := p
    have hp := List.pairwise_cons.1 h.1
    have hrest : Canonical isZero rest := ⟨hp.2, fun c hc => h.2 c (List.mem_cons_of_mem _ hc)⟩
    unfold bufInsert
    split
    · rename_i hij
      refine bufLookup_bufCons hz (fun c hc => ?_) k
      rcases List.mem_cons.1 hc with rfl | hc
      · exact hij
      · exact lt_trans hij (hp.1 c hc)
    · split
      · rename_i hij
        subst hij
        rw [bufLookup_bufCons hz (fun c hc => hp.1 c hc) k, bufLookup]
        by_cases hk : k = i
        · rw [if_pos hk, if_pos hk]
        · rw [if_neg hk, if_neg hk, if_neg (Ne.symm hk)]
      · rw [bufLookup, ih hrest, bufLookup]
        split <;> split <;> first | rfl | omega

/-- PREPARE's clear: +0 below the capacity, every other word as before (R154). -/
theorem bufLookup_bufClear (zero : N) (cap : Nat) (b : List (Nat × N)) (k : Nat) :
    bufLookup zero (bufClear cap b) k = if k < cap then zero else bufLookup zero b k := by
  induction b with
  | nil => simp [bufClear, bufLookup]
  | cons p rest ih =>
    obtain ⟨j, u⟩ := p
    unfold bufClear at *
    rw [List.filter_cons]
    split
    · rename_i hj
      have hj' : cap ≤ j := by simpa using hj
      rw [bufLookup, ih, bufLookup]
      split <;> split <;> first | rfl | omega
    · rename_i hj
      have hj' : j < cap := by simpa using hj
      rw [ih, bufLookup]
      split
      · rfl
      · rw [if_neg (by omega)]

/-- The canonical form as the Bool of the model. -/
theorem bufWf_iff (C : Config N) (b : List (Nat × N)) :
    bufWf C b = true ↔ Canonical C.isPosZero b ∧ ∀ c ∈ b, c.1 < C.maxCapacity := by
  unfold bufWf Canonical
  simp only [Bool.and_eq_true, decide_eq_true_eq, List.all_eq_true, Bool.not_eq_true']
  constructor
  · rintro ⟨h1, h2⟩
    exact ⟨⟨h1, fun c hc => (h2 c hc).2⟩, fun c hc => (h2 c hc).1⟩
  · rintro ⟨⟨h1, h2⟩, h3⟩
    exact ⟨h1, fun c hc => ⟨h3 c hc, h2 c hc⟩⟩

/-- A write inside the buffer keeps the canonical form. -/
theorem bufWf_bufInsert {C : Config N} {b : List (Nat × N)} {i : Nat} (v : N)
    (hi : i < C.maxCapacity) (h : bufWf C b = true) :
    bufWf C (bufInsert C.isPosZero i v b) = true := by
  rw [bufWf_iff] at *
  refine ⟨canonical_bufInsert i v h.1, fun c hc => ?_⟩
  rcases mem_bufInsert hc with ⟨rfl, -⟩ | hc
  · exact hi
  · exact h.2 c hc

/-- PREPARE's clear keeps the canonical form. -/
theorem bufWf_bufClear {C : Config N} {b : List (Nat × N)} (cap : Nat) (h : bufWf C b = true) :
    bufWf C (bufClear cap b) = true := by
  rw [bufWf_iff] at *
  exact ⟨canonical_bufClear cap h.1, fun c hc => h.2 c (List.mem_filter.1 hc).1⟩

/-- The buffer after reset is in canonical form. -/
theorem bufWf_reset : bufWf (Binary32.config 0#32) State.reset.buf = true := by decide

/-! ### BufRead and BufWrite -/

/-- BufRead answers exactly at the indices in use (R61). -/
theorem bufRead_eq_ok {C : Config N} {e : Engine N} {i : Int} {v : N} :
    bufRead C e i = .ok v ↔
      (0 ≤ i ∧ i < regInt e.cap) ∧ bufLookup (C.toNum 0) e.buf i.toNat = v := by
  unfold bufRead
  split
  · rename_i h; simp [h]
  · rename_i h; simp [h]

/-- BufWrite answers exactly at the indices in use, and changes the buffer only (R61). -/
theorem bufWrite_eq_ok {C : Config N} {i : Int} {v : N} {e e' : Engine N} :
    bufWrite C i v e = .ok e' ↔
      (0 ≤ i ∧ i < regInt e.cap) ∧ e' = { e with buf := bufInsert C.isPosZero i.toNat v e.buf } := by
  unfold bufWrite
  split
  · rename_i h; simp [h, eq_comm]
  · rename_i h; simp [h]

/-- A circular index is an index in use (R64). -/
theorem circular_range {cap : Reg} (h : 0 < cap.toNat) (j : Int) :
    0 ≤ circular cap j ∧ circular cap j < regInt cap := by
  unfold circular regInt
  exact ⟨Int.emod_nonneg _ (by omega), Int.emod_lt_of_pos _ (by omega)⟩

end Sys2Proof.Machine
end

