-- ==== Sys2Proof/Laws/State.lean ====
section
/-! SUPPORT. One lemma per field for each update of the engine's record and of the machine's state, so that
later proofs do not unfold a record update. -/

namespace Sys2Proof.Machine

variable {N : Type}

/-! ### `smoothAll` (R112) -/

@[simp] theorem smoothAll_freq (C : Config N) (e : Engine N) : (smoothAll C e).freq = e.freq := rfl

@[simp] theorem smoothAll_width (C : Config N) (e : Engine N) : (smoothAll C e).width = e.width := rfl

@[simp] theorem smoothAll_gain (C : Config N) (e : Engine N) : (smoothAll C e).gain = e.gain := rfl

@[simp] theorem smoothAll_sr (C : Config N) (e : Engine N) : (smoothAll C e).sr = e.sr := rfl

@[simp] theorem smoothAll_maxblk (C : Config N) (e : Engine N) : (smoothAll C e).maxblk = e.maxblk := rfl

@[simp] theorem smoothAll_cap (C : Config N) (e : Engine N) : (smoothAll C e).cap = e.cap := rfl

@[simp] theorem smoothAll_tlen (C : Config N) (e : Engine N) : (smoothAll C e).tlen = e.tlen := rfl

@[simp] theorem smoothAll_buf (C : Config N) (e : Engine N) : (smoothAll C e).buf = e.buf := rfl

@[simp] theorem smoothAll_wcur (C : Config N) (e : Engine N) : (smoothAll C e).wcur = e.wcur := rfl

@[simp] theorem smoothAll_phase (C : Config N) (e : Engine N) : (smoothAll C e).phase = e.phase := rfl

@[simp] theorem smoothAll_sfreq (C : Config N) (e : Engine N) : (smoothAll C e).sfreq = smooth C e.freq e.sfreq := rfl

@[simp] theorem smoothAll_swidth (C : Config N) (e : Engine N) : (smoothAll C e).swidth = smooth C e.width e.swidth := rfl

@[simp] theorem smoothAll_sgain (C : Config N) (e : Engine N) : (smoothAll C e).sgain = smooth C e.gain e.sgain := rfl

@[simp] theorem smoothAll_aw (C : Config N) (e : Engine N) : (smoothAll C e).aw = e.aw := rfl

@[simp] theorem smoothAll_pw (C : Config N) (e : Engine N) : (smoothAll C e).pw = e.pw := rfl

@[simp] theorem smoothAll_cnt (C : Config N) (e : Engine N) : (smoothAll C e).cnt = e.cnt := rfl

@[simp] theorem smoothAll_outL (C : Config N) (e : Engine N) : (smoothAll C e).outL = e.outL := rfl

@[simp] theorem smoothAll_outR (C : Config N) (e : Engine N) : (smoothAll C e).outR = e.outR := rfl

@[simp] theorem smoothAll_status (C : Config N) (e : Engine N) : (smoothAll C e).status = e.status := rfl

@[simp] theorem smoothAll_firstErrLo (C : Config N) (e : Engine N) : (smoothAll C e).firstErrLo = e.firstErrLo := rfl

@[simp] theorem smoothAll_firstErrHi (C : Config N) (e : Engine N) : (smoothAll C e).firstErrHi = e.firstErrHi := rfl

/-! ### `output` (R120) -/

@[simp] theorem output_freq (C : Config N) (y : N) (e : Engine N) : (output C y e).freq = e.freq := rfl

@[simp] theorem output_width (C : Config N) (y : N) (e : Engine N) : (output C y e).width = e.width := rfl

@[simp] theorem output_gain (C : Config N) (y : N) (e : Engine N) : (output C y e).gain = e.gain := rfl

@[simp] theorem output_sr (C : Config N) (y : N) (e : Engine N) : (output C y e).sr = e.sr := rfl

@[simp] theorem output_maxblk (C : Config N) (y : N) (e : Engine N) : (output C y e).maxblk = e.maxblk := rfl

@[simp] theorem output_cap (C : Config N) (y : N) (e : Engine N) : (output C y e).cap = e.cap := rfl

@[simp] theorem output_tlen (C : Config N) (y : N) (e : Engine N) : (output C y e).tlen = e.tlen := rfl

@[simp] theorem output_buf (C : Config N) (y : N) (e : Engine N) : (output C y e).buf = e.buf := rfl

@[simp] theorem output_wcur (C : Config N) (y : N) (e : Engine N) : (output C y e).wcur = e.wcur := rfl

@[simp] theorem output_phase (C : Config N) (y : N) (e : Engine N) : (output C y e).phase = e.phase := rfl

@[simp] theorem output_sfreq (C : Config N) (y : N) (e : Engine N) : (output C y e).sfreq = e.sfreq := rfl

@[simp] theorem output_swidth (C : Config N) (y : N) (e : Engine N) : (output C y e).swidth = e.swidth := rfl

@[simp] theorem output_sgain (C : Config N) (y : N) (e : Engine N) : (output C y e).sgain = e.sgain := rfl

@[simp] theorem output_aw (C : Config N) (y : N) (e : Engine N) : (output C y e).aw = e.aw := rfl

@[simp] theorem output_pw (C : Config N) (y : N) (e : Engine N) : (output C y e).pw = e.pw := rfl

@[simp] theorem output_cnt (C : Config N) (y : N) (e : Engine N) : (output C y e).cnt = e.cnt := rfl

@[simp] theorem output_outL (C : Config N) (y : N) (e : Engine N) : (output C y e).outL = C.mul y e.sgain := rfl

@[simp] theorem output_outR (C : Config N) (y : N) (e : Engine N) : (output C y e).outR = C.mul y e.sgain := rfl

@[simp] theorem output_status (C : Config N) (y : N) (e : Engine N) : (output C y e).status = e.status := rfl

@[simp] theorem output_firstErrLo (C : Config N) (y : N) (e : Engine N) : (output C y e).firstErrLo = e.firstErrLo := rfl

@[simp] theorem output_firstErrHi (C : Config N) (y : N) (e : Engine N) : (output C y e).firstErrHi = e.firstErrHi := rfl

/-! ### `lfoAdvance` (R121) -/

@[simp] theorem lfoAdvance_freq (C : Config N) (e : Engine N) : (lfoAdvance C e).freq = e.freq := rfl

@[simp] theorem lfoAdvance_width (C : Config N) (e : Engine N) : (lfoAdvance C e).width = e.width := rfl

@[simp] theorem lfoAdvance_gain (C : Config N) (e : Engine N) : (lfoAdvance C e).gain = e.gain := rfl

@[simp] theorem lfoAdvance_sr (C : Config N) (e : Engine N) : (lfoAdvance C e).sr = e.sr := rfl

@[simp] theorem lfoAdvance_maxblk (C : Config N) (e : Engine N) : (lfoAdvance C e).maxblk = e.maxblk := rfl

@[simp] theorem lfoAdvance_cap (C : Config N) (e : Engine N) : (lfoAdvance C e).cap = e.cap := rfl

@[simp] theorem lfoAdvance_tlen (C : Config N) (e : Engine N) : (lfoAdvance C e).tlen = e.tlen := rfl

@[simp] theorem lfoAdvance_buf (C : Config N) (e : Engine N) : (lfoAdvance C e).buf = e.buf := rfl

@[simp] theorem lfoAdvance_wcur (C : Config N) (e : Engine N) : (lfoAdvance C e).wcur = e.wcur := rfl

@[simp] theorem lfoAdvance_phase (C : Config N) (e : Engine N) : (lfoAdvance C e).phase = nextPhase C e.phase e.sfreq e.sr := rfl

@[simp] theorem lfoAdvance_sfreq (C : Config N) (e : Engine N) : (lfoAdvance C e).sfreq = e.sfreq := rfl

@[simp] theorem lfoAdvance_swidth (C : Config N) (e : Engine N) : (lfoAdvance C e).swidth = e.swidth := rfl

@[simp] theorem lfoAdvance_sgain (C : Config N) (e : Engine N) : (lfoAdvance C e).sgain = e.sgain := rfl

@[simp] theorem lfoAdvance_aw (C : Config N) (e : Engine N) : (lfoAdvance C e).aw = e.aw := rfl

@[simp] theorem lfoAdvance_pw (C : Config N) (e : Engine N) : (lfoAdvance C e).pw = e.pw := rfl

@[simp] theorem lfoAdvance_cnt (C : Config N) (e : Engine N) : (lfoAdvance C e).cnt = e.cnt := rfl

@[simp] theorem lfoAdvance_outL (C : Config N) (e : Engine N) : (lfoAdvance C e).outL = e.outL := rfl

@[simp] theorem lfoAdvance_outR (C : Config N) (e : Engine N) : (lfoAdvance C e).outR = e.outR := rfl

@[simp] theorem lfoAdvance_status (C : Config N) (e : Engine N) : (lfoAdvance C e).status = e.status := rfl

@[simp] theorem lfoAdvance_firstErrLo (C : Config N) (e : Engine N) : (lfoAdvance C e).firstErrLo = e.firstErrLo := rfl

@[simp] theorem lfoAdvance_firstErrHi (C : Config N) (e : Engine N) : (lfoAdvance C e).firstErrHi = e.firstErrHi := rfl

/-! ### `prepareInit` (R154) -/

@[simp] theorem prepareInit_freq (C : Config N) (e : Engine N) : (prepareInit C e).freq = e.freq := rfl

@[simp] theorem prepareInit_width (C : Config N) (e : Engine N) : (prepareInit C e).width = e.width := rfl

@[simp] theorem prepareInit_gain (C : Config N) (e : Engine N) : (prepareInit C e).gain = e.gain := rfl

@[simp] theorem prepareInit_sr (C : Config N) (e : Engine N) : (prepareInit C e).sr = e.sr := rfl

@[simp] theorem prepareInit_maxblk (C : Config N) (e : Engine N) : (prepareInit C e).maxblk = e.maxblk := rfl

@[simp] theorem prepareInit_cap (C : Config N) (e : Engine N) : (prepareInit C e).cap = e.cap := rfl

@[simp] theorem prepareInit_tlen (C : Config N) (e : Engine N) : (prepareInit C e).tlen = e.tlen := rfl

@[simp] theorem prepareInit_buf (C : Config N) (e : Engine N) : (prepareInit C e).buf = bufClear e.cap.toNat e.buf := rfl

@[simp] theorem prepareInit_wcur (C : Config N) (e : Engine N) : (prepareInit C e).wcur = 0#32 := rfl

@[simp] theorem prepareInit_phase (C : Config N) (e : Engine N) : (prepareInit C e).phase = C.toNum 0 := rfl

@[simp] theorem prepareInit_sfreq (C : Config N) (e : Engine N) : (prepareInit C e).sfreq = e.freq := rfl

@[simp] theorem prepareInit_swidth (C : Config N) (e : Engine N) : (prepareInit C e).swidth = e.width := rfl

@[simp] theorem prepareInit_sgain (C : Config N) (e : Engine N) : (prepareInit C e).sgain = e.gain := rfl

@[simp] theorem prepareInit_aw (C : Config N) (e : Engine N) : (prepareInit C e).aw = e.width := rfl

@[simp] theorem prepareInit_pw (C : Config N) (e : Engine N) : (prepareInit C e).pw = e.width := rfl

@[simp] theorem prepareInit_cnt (C : Config N) (e : Engine N) : (prepareInit C e).cnt = 0#32 := rfl

@[simp] theorem prepareInit_outL (C : Config N) (e : Engine N) : (prepareInit C e).outL = C.toNum 0 := rfl

@[simp] theorem prepareInit_outR (C : Config N) (e : Engine N) : (prepareInit C e).outR = C.toNum 0 := rfl

@[simp] theorem prepareInit_status (C : Config N) (e : Engine N) : (prepareInit C e).status = { e.status with trans := false } := rfl

@[simp] theorem prepareInit_firstErrLo (C : Config N) (e : Engine N) : (prepareInit C e).firstErrLo = e.firstErrLo := rfl

@[simp] theorem prepareInit_firstErrHi (C : Config N) (e : Engine N) : (prepareInit C e).firstErrHi = e.firstErrHi := rfl

/-! ### `setSizes` (R151) -/

@[simp] theorem setSizes_freq (P : Params) (sr : BitVec 32) (blk : BitVec 24) (e : Engine N) : (setSizes P sr blk e).freq = e.freq := rfl

@[simp] theorem setSizes_width (P : Params) (sr : BitVec 32) (blk : BitVec 24) (e : Engine N) : (setSizes P sr blk e).width = e.width := rfl

@[simp] theorem setSizes_gain (P : Params) (sr : BitVec 32) (blk : BitVec 24) (e : Engine N) : (setSizes P sr blk e).gain = e.gain := rfl

@[simp] theorem setSizes_sr (P : Params) (sr : BitVec 32) (blk : BitVec 24) (e : Engine N) : (setSizes P sr blk e).sr = sr := rfl

@[simp] theorem setSizes_maxblk (P : Params) (sr : BitVec 32) (blk : BitVec 24) (e : Engine N) : (setSizes P sr blk e).maxblk = blk.setWidth 32 := rfl

@[simp] theorem setSizes_cap (P : Params) (sr : BitVec 32) (blk : BitVec 24) (e : Engine N) : (setSizes P sr blk e).cap = BitVec.ofNat 32 (capacityOf P sr.toNat) := rfl

@[simp] theorem setSizes_tlen (P : Params) (sr : BitVec 32) (blk : BitVec 24) (e : Engine N) : (setSizes P sr blk e).tlen = BitVec.ofNat 32 (transitionOf P sr.toNat) := rfl

@[simp] theorem setSizes_buf (P : Params) (sr : BitVec 32) (blk : BitVec 24) (e : Engine N) : (setSizes P sr blk e).buf = e.buf := rfl

@[simp] theorem setSizes_wcur (P : Params) (sr : BitVec 32) (blk : BitVec 24) (e : Engine N) : (setSizes P sr blk e).wcur = e.wcur := rfl

@[simp] theorem setSizes_phase (P : Params) (sr : BitVec 32) (blk : BitVec 24) (e : Engine N) : (setSizes P sr blk e).phase = e.phase := rfl

@[simp] theorem setSizes_sfreq (P : Params) (sr : BitVec 32) (blk : BitVec 24) (e : Engine N) : (setSizes P sr blk e).sfreq = e.sfreq := rfl

@[simp] theorem setSizes_swidth (P : Params) (sr : BitVec 32) (blk : BitVec 24) (e : Engine N) : (setSizes P sr blk e).swidth = e.swidth := rfl

@[simp] theorem setSizes_sgain (P : Params) (sr : BitVec 32) (blk : BitVec 24) (e : Engine N) : (setSizes P sr blk e).sgain = e.sgain := rfl

@[simp] theorem setSizes_aw (P : Params) (sr : BitVec 32) (blk : BitVec 24) (e : Engine N) : (setSizes P sr blk e).aw = e.aw := rfl

@[simp] theorem setSizes_pw (P : Params) (sr : BitVec 32) (blk : BitVec 24) (e : Engine N) : (setSizes P sr blk e).pw = e.pw := rfl

@[simp] theorem setSizes_cnt (P : Params) (sr : BitVec 32) (blk : BitVec 24) (e : Engine N) : (setSizes P sr blk e).cnt = e.cnt := rfl

@[simp] theorem setSizes_outL (P : Params) (sr : BitVec 32) (blk : BitVec 24) (e : Engine N) : (setSizes P sr blk e).outL = e.outL := rfl

@[simp] theorem setSizes_outR (P : Params) (sr : BitVec 32) (blk : BitVec 24) (e : Engine N) : (setSizes P sr blk e).outR = e.outR := rfl

@[simp] theorem setSizes_status (P : Params) (sr : BitVec 32) (blk : BitVec 24) (e : Engine N) : (setSizes P sr blk e).status = e.status := rfl

@[simp] theorem setSizes_firstErrLo (P : Params) (sr : BitVec 32) (blk : BitVec 24) (e : Engine N) : (setSizes P sr blk e).firstErrLo = e.firstErrLo := rfl

@[simp] theorem setSizes_firstErrHi (P : Params) (sr : BitVec 32) (blk : BitVec 24) (e : Engine N) : (setSizes P sr blk e).firstErrHi = e.firstErrHi := rfl

/-! ### `setPrepared` (R151) -/

@[simp] theorem setPrepared_freq (p : Bool) (c : BitVec 4) (e : Engine N) : (setPrepared p c e).freq = e.freq := rfl

@[simp] theorem setPrepared_width (p : Bool) (c : BitVec 4) (e : Engine N) : (setPrepared p c e).width = e.width := rfl

@[simp] theorem setPrepared_gain (p : Bool) (c : BitVec 4) (e : Engine N) : (setPrepared p c e).gain = e.gain := rfl

@[simp] theorem setPrepared_sr (p : Bool) (c : BitVec 4) (e : Engine N) : (setPrepared p c e).sr = e.sr := rfl

@[simp] theorem setPrepared_maxblk (p : Bool) (c : BitVec 4) (e : Engine N) : (setPrepared p c e).maxblk = e.maxblk := rfl

@[simp] theorem setPrepared_cap (p : Bool) (c : BitVec 4) (e : Engine N) : (setPrepared p c e).cap = e.cap := rfl

@[simp] theorem setPrepared_tlen (p : Bool) (c : BitVec 4) (e : Engine N) : (setPrepared p c e).tlen = e.tlen := rfl

@[simp] theorem setPrepared_buf (p : Bool) (c : BitVec 4) (e : Engine N) : (setPrepared p c e).buf = e.buf := rfl

@[simp] theorem setPrepared_wcur (p : Bool) (c : BitVec 4) (e : Engine N) : (setPrepared p c e).wcur = e.wcur := rfl

@[simp] theorem setPrepared_phase (p : Bool) (c : BitVec 4) (e : Engine N) : (setPrepared p c e).phase = e.phase := rfl

@[simp] theorem setPrepared_sfreq (p : Bool) (c : BitVec 4) (e : Engine N) : (setPrepared p c e).sfreq = e.sfreq := rfl

@[simp] theorem setPrepared_swidth (p : Bool) (c : BitVec 4) (e : Engine N) : (setPrepared p c e).swidth = e.swidth := rfl

@[simp] theorem setPrepared_sgain (p : Bool) (c : BitVec 4) (e : Engine N) : (setPrepared p c e).sgain = e.sgain := rfl

@[simp] theorem setPrepared_aw (p : Bool) (c : BitVec 4) (e : Engine N) : (setPrepared p c e).aw = e.aw := rfl

@[simp] theorem setPrepared_pw (p : Bool) (c : BitVec 4) (e : Engine N) : (setPrepared p c e).pw = e.pw := rfl

@[simp] theorem setPrepared_cnt (p : Bool) (c : BitVec 4) (e : Engine N) : (setPrepared p c e).cnt = e.cnt := rfl

@[simp] theorem setPrepared_outL (p : Bool) (c : BitVec 4) (e : Engine N) : (setPrepared p c e).outL = e.outL := rfl

@[simp] theorem setPrepared_outR (p : Bool) (c : BitVec 4) (e : Engine N) : (setPrepared p c e).outR = e.outR := rfl

@[simp] theorem setPrepared_status (p : Bool) (c : BitVec 4) (e : Engine N) : (setPrepared p c e).status = { e.status with prepared := p, cfgCause := c } := rfl

@[simp] theorem setPrepared_firstErrLo (p : Bool) (c : BitVec 4) (e : Engine N) : (setPrepared p c e).firstErrLo = e.firstErrLo := rfl

@[simp] theorem setPrepared_firstErrHi (p : Bool) (c : BitVec 4) (e : Engine N) : (setPrepared p c e).firstErrHi = e.firstErrHi := rfl

/-! ### `putFreq` (R140) -/

@[simp] theorem putFreq_freq (v : N) (e : Engine N) : (putFreq v e).freq = v := rfl

@[simp] theorem putFreq_width (v : N) (e : Engine N) : (putFreq v e).width = e.width := rfl

@[simp] theorem putFreq_gain (v : N) (e : Engine N) : (putFreq v e).gain = e.gain := rfl

@[simp] theorem putFreq_sr (v : N) (e : Engine N) : (putFreq v e).sr = e.sr := rfl

@[simp] theorem putFreq_maxblk (v : N) (e : Engine N) : (putFreq v e).maxblk = e.maxblk := rfl

@[simp] theorem putFreq_cap (v : N) (e : Engine N) : (putFreq v e).cap = e.cap := rfl

@[simp] theorem putFreq_tlen (v : N) (e : Engine N) : (putFreq v e).tlen = e.tlen := rfl

@[simp] theorem putFreq_buf (v : N) (e : Engine N) : (putFreq v e).buf = e.buf := rfl

@[simp] theorem putFreq_wcur (v : N) (e : Engine N) : (putFreq v e).wcur = e.wcur := rfl

@[simp] theorem putFreq_phase (v : N) (e : Engine N) : (putFreq v e).phase = e.phase := rfl

@[simp] theorem putFreq_sfreq (v : N) (e : Engine N) : (putFreq v e).sfreq = e.sfreq := rfl

@[simp] theorem putFreq_swidth (v : N) (e : Engine N) : (putFreq v e).swidth = e.swidth := rfl

@[simp] theorem putFreq_sgain (v : N) (e : Engine N) : (putFreq v e).sgain = e.sgain := rfl

@[simp] theorem putFreq_aw (v : N) (e : Engine N) : (putFreq v e).aw = e.aw := rfl

@[simp] theorem putFreq_pw (v : N) (e : Engine N) : (putFreq v e).pw = e.pw := rfl

@[simp] theorem putFreq_cnt (v : N) (e : Engine N) : (putFreq v e).cnt = e.cnt := rfl

@[simp] theorem putFreq_outL (v : N) (e : Engine N) : (putFreq v e).outL = e.outL := rfl

@[simp] theorem putFreq_outR (v : N) (e : Engine N) : (putFreq v e).outR = e.outR := rfl

@[simp] theorem putFreq_status (v : N) (e : Engine N) : (putFreq v e).status = e.status := rfl

@[simp] theorem putFreq_firstErrLo (v : N) (e : Engine N) : (putFreq v e).firstErrLo = e.firstErrLo := rfl

@[simp] theorem putFreq_firstErrHi (v : N) (e : Engine N) : (putFreq v e).firstErrHi = e.firstErrHi := rfl

/-! ### `putWidth` (R140) -/

@[simp] theorem putWidth_freq (v : N) (e : Engine N) : (putWidth v e).freq = e.freq := rfl

@[simp] theorem putWidth_width (v : N) (e : Engine N) : (putWidth v e).width = v := rfl

@[simp] theorem putWidth_gain (v : N) (e : Engine N) : (putWidth v e).gain = e.gain := rfl

@[simp] theorem putWidth_sr (v : N) (e : Engine N) : (putWidth v e).sr = e.sr := rfl

@[simp] theorem putWidth_maxblk (v : N) (e : Engine N) : (putWidth v e).maxblk = e.maxblk := rfl

@[simp] theorem putWidth_cap (v : N) (e : Engine N) : (putWidth v e).cap = e.cap := rfl

@[simp] theorem putWidth_tlen (v : N) (e : Engine N) : (putWidth v e).tlen = e.tlen := rfl

@[simp] theorem putWidth_buf (v : N) (e : Engine N) : (putWidth v e).buf = e.buf := rfl

@[simp] theorem putWidth_wcur (v : N) (e : Engine N) : (putWidth v e).wcur = e.wcur := rfl

@[simp] theorem putWidth_phase (v : N) (e : Engine N) : (putWidth v e).phase = e.phase := rfl

@[simp] theorem putWidth_sfreq (v : N) (e : Engine N) : (putWidth v e).sfreq = e.sfreq := rfl

@[simp] theorem putWidth_swidth (v : N) (e : Engine N) : (putWidth v e).swidth = e.swidth := rfl

@[simp] theorem putWidth_sgain (v : N) (e : Engine N) : (putWidth v e).sgain = e.sgain := rfl

@[simp] theorem putWidth_aw (v : N) (e : Engine N) : (putWidth v e).aw = e.aw := rfl

@[simp] theorem putWidth_pw (v : N) (e : Engine N) : (putWidth v e).pw = e.pw := rfl

@[simp] theorem putWidth_cnt (v : N) (e : Engine N) : (putWidth v e).cnt = e.cnt := rfl

@[simp] theorem putWidth_outL (v : N) (e : Engine N) : (putWidth v e).outL = e.outL := rfl

@[simp] theorem putWidth_outR (v : N) (e : Engine N) : (putWidth v e).outR = e.outR := rfl

@[simp] theorem putWidth_status (v : N) (e : Engine N) : (putWidth v e).status = e.status := rfl

@[simp] theorem putWidth_firstErrLo (v : N) (e : Engine N) : (putWidth v e).firstErrLo = e.firstErrLo := rfl

@[simp] theorem putWidth_firstErrHi (v : N) (e : Engine N) : (putWidth v e).firstErrHi = e.firstErrHi := rfl

/-! ### `putGain` (R140) -/

@[simp] theorem putGain_freq (v : N) (e : Engine N) : (putGain v e).freq = e.freq := rfl

@[simp] theorem putGain_width (v : N) (e : Engine N) : (putGain v e).width = e.width := rfl

@[simp] theorem putGain_gain (v : N) (e : Engine N) : (putGain v e).gain = v := rfl

@[simp] theorem putGain_sr (v : N) (e : Engine N) : (putGain v e).sr = e.sr := rfl

@[simp] theorem putGain_maxblk (v : N) (e : Engine N) : (putGain v e).maxblk = e.maxblk := rfl

@[simp] theorem putGain_cap (v : N) (e : Engine N) : (putGain v e).cap = e.cap := rfl

@[simp] theorem putGain_tlen (v : N) (e : Engine N) : (putGain v e).tlen = e.tlen := rfl

@[simp] theorem putGain_buf (v : N) (e : Engine N) : (putGain v e).buf = e.buf := rfl

@[simp] theorem putGain_wcur (v : N) (e : Engine N) : (putGain v e).wcur = e.wcur := rfl

@[simp] theorem putGain_phase (v : N) (e : Engine N) : (putGain v e).phase = e.phase := rfl

@[simp] theorem putGain_sfreq (v : N) (e : Engine N) : (putGain v e).sfreq = e.sfreq := rfl

@[simp] theorem putGain_swidth (v : N) (e : Engine N) : (putGain v e).swidth = e.swidth := rfl

@[simp] theorem putGain_sgain (v : N) (e : Engine N) : (putGain v e).sgain = e.sgain := rfl

@[simp] theorem putGain_aw (v : N) (e : Engine N) : (putGain v e).aw = e.aw := rfl

@[simp] theorem putGain_pw (v : N) (e : Engine N) : (putGain v e).pw = e.pw := rfl

@[simp] theorem putGain_cnt (v : N) (e : Engine N) : (putGain v e).cnt = e.cnt := rfl

@[simp] theorem putGain_outL (v : N) (e : Engine N) : (putGain v e).outL = e.outL := rfl

@[simp] theorem putGain_outR (v : N) (e : Engine N) : (putGain v e).outR = e.outR := rfl

@[simp] theorem putGain_status (v : N) (e : Engine N) : (putGain v e).status = e.status := rfl

@[simp] theorem putGain_firstErrLo (v : N) (e : Engine N) : (putGain v e).firstErrLo = e.firstErrLo := rfl

@[simp] theorem putGain_firstErrHi (v : N) (e : Engine N) : (putGain v e).firstErrHi = e.firstErrHi := rfl

/-! ### `report` (R161) -/

@[simp] theorem report_freq (c : ResultCode) (w : Word) (e : Engine N) : (report c w e).freq = e.freq := by
  unfold report; split <;> rfl

@[simp] theorem report_width (c : ResultCode) (w : Word) (e : Engine N) : (report c w e).width = e.width := by
  unfold report; split <;> rfl

@[simp] theorem report_gain (c : ResultCode) (w : Word) (e : Engine N) : (report c w e).gain = e.gain := by
  unfold report; split <;> rfl

@[simp] theorem report_sr (c : ResultCode) (w : Word) (e : Engine N) : (report c w e).sr = e.sr := by
  unfold report; split <;> rfl

@[simp] theorem report_maxblk (c : ResultCode) (w : Word) (e : Engine N) : (report c w e).maxblk = e.maxblk := by
  unfold report; split <;> rfl

@[simp] theorem report_cap (c : ResultCode) (w : Word) (e : Engine N) : (report c w e).cap = e.cap := by
  unfold report; split <;> rfl

@[simp] theorem report_tlen (c : ResultCode) (w : Word) (e : Engine N) : (report c w e).tlen = e.tlen := by
  unfold report; split <;> rfl

@[simp] theorem report_buf (c : ResultCode) (w : Word) (e : Engine N) : (report c w e).buf = e.buf := by
  unfold report; split <;> rfl

@[simp] theorem report_wcur (c : ResultCode) (w : Word) (e : Engine N) : (report c w e).wcur = e.wcur := by
  unfold report; split <;> rfl

@[simp] theorem report_phase (c : ResultCode) (w : Word) (e : Engine N) : (report c w e).phase = e.phase := by
  unfold report; split <;> rfl

@[simp] theorem report_sfreq (c : ResultCode) (w : Word) (e : Engine N) : (report c w e).sfreq = e.sfreq := by
  unfold report; split <;> rfl

@[simp] theorem report_swidth (c : ResultCode) (w : Word) (e : Engine N) : (report c w e).swidth = e.swidth := by
  unfold report; split <;> rfl

@[simp] theorem report_sgain (c : ResultCode) (w : Word) (e : Engine N) : (report c w e).sgain = e.sgain := by
  unfold report; split <;> rfl

@[simp] theorem report_aw (c : ResultCode) (w : Word) (e : Engine N) : (report c w e).aw = e.aw := by
  unfold report; split <;> rfl

@[simp] theorem report_pw (c : ResultCode) (w : Word) (e : Engine N) : (report c w e).pw = e.pw := by
  unfold report; split <;> rfl

@[simp] theorem report_cnt (c : ResultCode) (w : Word) (e : Engine N) : (report c w e).cnt = e.cnt := by
  unfold report; split <;> rfl

@[simp] theorem report_outL (c : ResultCode) (w : Word) (e : Engine N) : (report c w e).outL = e.outL := by
  unfold report; split <;> rfl

@[simp] theorem report_outR (c : ResultCode) (w : Word) (e : Engine N) : (report c w e).outR = e.outR := by
  unfold report; split <;> rfl

@[simp] theorem report_status_prepared (c : ResultCode) (w : Word) (e : Engine N) :
    (report c w e).status.prepared = e.status.prepared := by
  unfold report; split <;> rfl

@[simp] theorem report_status_trans (c : ResultCode) (w : Word) (e : Engine N) :
    (report c w e).status.trans = e.status.trans := by
  unfold report; split <;> rfl

@[simp] theorem report_status_cfgCause (c : ResultCode) (w : Word) (e : Engine N) :
    (report c w e).status.cfgCause = e.status.cfgCause := by
  unfold report; split <;> rfl

@[simp] theorem report_status_last (c : ResultCode) (w : Word) (e : Engine N) :
    (report c w e).status.last = c.code := by
  unfold report; split <;> rfl

@[simp] theorem report_status_sticky (c : ResultCode) (w : Word) (e : Engine N) :
    (report c w e).status.sticky = (e.status.sticky || c.isError) := by
  unfold report; split <;> simp [*]

theorem report_firstErrLo (c : ResultCode) (w : Word) (e : Engine N) :
    (report c w e).firstErrLo =
      if c.isError = true ∧ e.status.sticky = false then wordLo w else e.firstErrLo := by
  unfold report; cases c.isError <;> cases e.status.sticky <;> rfl

theorem report_firstErrHi (c : ResultCode) (w : Word) (e : Engine N) :
    (report c w e).firstErrHi =
      if c.isError = true ∧ e.status.sticky = false then wordHi w else e.firstErrHi := by
  unfold report; cases c.isError <;> cases e.status.sticky <;> rfl

/-! ### `trigger` and `countStep` (R114, R116) -/

@[simp] theorem trigger_freq (C : Config N) (e : Engine N) : (trigger C e).freq = e.freq := by
  unfold trigger; split <;> rfl

@[simp] theorem trigger_width (C : Config N) (e : Engine N) : (trigger C e).width = e.width := by
  unfold trigger; split <;> rfl

@[simp] theorem trigger_gain (C : Config N) (e : Engine N) : (trigger C e).gain = e.gain := by
  unfold trigger; split <;> rfl

@[simp] theorem trigger_sr (C : Config N) (e : Engine N) : (trigger C e).sr = e.sr := by
  unfold trigger; split <;> rfl

@[simp] theorem trigger_maxblk (C : Config N) (e : Engine N) : (trigger C e).maxblk = e.maxblk := by
  unfold trigger; split <;> rfl

@[simp] theorem trigger_cap (C : Config N) (e : Engine N) : (trigger C e).cap = e.cap := by
  unfold trigger; split <;> rfl

@[simp] theorem trigger_tlen (C : Config N) (e : Engine N) : (trigger C e).tlen = e.tlen := by
  unfold trigger; split <;> rfl

@[simp] theorem trigger_buf (C : Config N) (e : Engine N) : (trigger C e).buf = e.buf := by
  unfold trigger; split <;> rfl

@[simp] theorem trigger_wcur (C : Config N) (e : Engine N) : (trigger C e).wcur = e.wcur := by
  unfold trigger; split <;> rfl

@[simp] theorem trigger_phase (C : Config N) (e : Engine N) : (trigger C e).phase = e.phase := by
  unfold trigger; split <;> rfl

@[simp] theorem trigger_sfreq (C : Config N) (e : Engine N) : (trigger C e).sfreq = e.sfreq := by
  unfold trigger; split <;> rfl

@[simp] theorem trigger_swidth (C : Config N) (e : Engine N) : (trigger C e).swidth = e.swidth := by
  unfold trigger; split <;> rfl

@[simp] theorem trigger_sgain (C : Config N) (e : Engine N) : (trigger C e).sgain = e.sgain := by
  unfold trigger; split <;> rfl

@[simp] theorem trigger_outL (C : Config N) (e : Engine N) : (trigger C e).outL = e.outL := by
  unfold trigger; split <;> rfl

@[simp] theorem trigger_outR (C : Config N) (e : Engine N) : (trigger C e).outR = e.outR := by
  unfold trigger; split <;> rfl

@[simp] theorem trigger_firstErrLo (C : Config N) (e : Engine N) : (trigger C e).firstErrLo = e.firstErrLo := by
  unfold trigger; split <;> rfl

@[simp] theorem trigger_firstErrHi (C : Config N) (e : Engine N) : (trigger C e).firstErrHi = e.firstErrHi := by
  unfold trigger; split <;> rfl

@[simp] theorem trigger_status_prepared (C : Config N) (e : Engine N) :
    (trigger C e).status.prepared = e.status.prepared := by
  unfold trigger; split <;> rfl

@[simp] theorem trigger_status_last (C : Config N) (e : Engine N) :
    (trigger C e).status.last = e.status.last := by
  unfold trigger; split <;> rfl

@[simp] theorem trigger_status_cfgCause (C : Config N) (e : Engine N) :
    (trigger C e).status.cfgCause = e.status.cfgCause := by
  unfold trigger; split <;> rfl

@[simp] theorem trigger_status_sticky (C : Config N) (e : Engine N) :
    (trigger C e).status.sticky = e.status.sticky := by
  unfold trigger; split <;> rfl

@[simp] theorem countStep_freq (e : Engine N) : (countStep e).freq = e.freq := by
  unfold countStep; split <;> rfl

@[simp] theorem countStep_width (e : Engine N) : (countStep e).width = e.width := by
  unfold countStep; split <;> rfl

@[simp] theorem countStep_gain (e : Engine N) : (countStep e).gain = e.gain := by
  unfold countStep; split <;> rfl

@[simp] theorem countStep_sr (e : Engine N) : (countStep e).sr = e.sr := by
  unfold countStep; split <;> rfl

@[simp] theorem countStep_maxblk (e : Engine N) : (countStep e).maxblk = e.maxblk := by
  unfold countStep; split <;> rfl

@[simp] theorem countStep_cap (e : Engine N) : (countStep e).cap = e.cap := by
  unfold countStep; split <;> rfl

@[simp] theorem countStep_tlen (e : Engine N) : (countStep e).tlen = e.tlen := by
  unfold countStep; split <;> rfl

@[simp] theorem countStep_buf (e : Engine N) : (countStep e).buf = e.buf := by
  unfold countStep; split <;> rfl

@[simp] theorem countStep_wcur (e : Engine N) : (countStep e).wcur = e.wcur := by
  unfold countStep; split <;> rfl

@[simp] theorem countStep_phase (e : Engine N) : (countStep e).phase = e.phase := by
  unfold countStep; split <;> rfl

@[simp] theorem countStep_sfreq (e : Engine N) : (countStep e).sfreq = e.sfreq := by
  unfold countStep; split <;> rfl

@[simp] theorem countStep_swidth (e : Engine N) : (countStep e).swidth = e.swidth := by
  unfold countStep; split <;> rfl

@[simp] theorem countStep_sgain (e : Engine N) : (countStep e).sgain = e.sgain := by
  unfold countStep; split <;> rfl

@[simp] theorem countStep_aw (e : Engine N) : (countStep e).aw = e.aw := by
  unfold countStep; split <;> rfl

@[simp] theorem countStep_outL (e : Engine N) : (countStep e).outL = e.outL := by
  unfold countStep; split <;> rfl

@[simp] theorem countStep_outR (e : Engine N) : (countStep e).outR = e.outR := by
  unfold countStep; split <;> rfl

@[simp] theorem countStep_firstErrLo (e : Engine N) : (countStep e).firstErrLo = e.firstErrLo := by
  unfold countStep; split <;> rfl

@[simp] theorem countStep_firstErrHi (e : Engine N) : (countStep e).firstErrHi = e.firstErrHi := by
  unfold countStep; split <;> rfl

@[simp] theorem countStep_cnt (e : Engine N) : (countStep e).cnt = e.cnt + 1#32 := by
  unfold countStep; split <;> rfl

@[simp] theorem countStep_status_prepared (e : Engine N) :
    (countStep e).status.prepared = e.status.prepared := by
  unfold countStep; split <;> rfl

@[simp] theorem countStep_status_last (e : Engine N) :
    (countStep e).status.last = e.status.last := by
  unfold countStep; split <;> rfl

@[simp] theorem countStep_status_cfgCause (e : Engine N) :
    (countStep e).status.cfgCause = e.status.cfgCause := by
  unfold countStep; split <;> rfl

@[simp] theorem countStep_status_sticky (e : Engine N) :
    (countStep e).status.sticky = e.status.sticky := by
  unfold countStep; split <;> rfl

/-! ### The machine's state -/

@[simp] theorem illegalWord_toEngine (w : Word) (s : State) :
    (illegalWord w s).toEngine = report .illegalOpcode w s.toEngine := rfl

@[simp] theorem illegalWord_pending (w : Word) (s : State) : (illegalWord w s).pending = s.pending := rfl

@[simp] theorem illegalWord_nanTick (w : Word) (s : State) : (illegalWord w s).nanTick = s.nanTick := rfl

@[simp] theorem reservedWord_toEngine (w : Word) (s : State) :
    (reservedWord w s).toEngine = report .reservedBits w s.toEngine := rfl

@[simp] theorem reservedWord_pending (w : Word) (s : State) : (reservedWord w s).pending = s.pending := rfl

@[simp] theorem reservedWord_nanTick (w : Word) (s : State) : (reservedWord w s).nanTick = s.nanTick := rfl

@[simp] theorem hardwareReset_toEngine (s : State) :
    (hardwareReset s).toEngine = State.reset.toEngine := rfl

@[simp] theorem hardwareReset_pending (s : State) : (hardwareReset s).pending = s.pending := by
  simp only [hardwareReset]

@[simp] theorem hardwareReset_nanTick (s : State) : (hardwareReset s).nanTick = s.nanTick := by
  simp only [hardwareReset]

@[simp] theorem withFetchWord_toEngine (s : State) (nbits w : Nat) :
    (s.withFetchWord nbits w).toEngine = s.toEngine := rfl

@[simp] theorem withFetchWord_pending (s : State) (nbits w : Nat) :
    (s.withFetchWord nbits w).pending = .command (tableWord nbits w) :: s.pending := rfl

end Sys2Proof.Machine
end

