-- ==== Sys2Proof/Laws/Ops.lean ====
section
/-! SUPPORT. What each shared operation can do, said once: a step on each kind of host event, and the
sample step's stages where they answer a next state. -/

namespace Sys2Proof.Machine

variable {N : Type}

/-! ### The machine's step -/

theorem withEngine_eq_next {s t : State} {r : Except Fault (Engine F32)} :
    s.withEngine r = .next t ↔ ∃ e, r = .ok e ∧ t = { s with toEngine := e } := by
  cases r with
  | ok e => simp [State.withEngine, eq_comm]
  | error f => simp [State.withEngine]

theorem withEngine_ne_refused (s : State) (r : Except Fault (Engine F32)) (f : Refusal) :
    s.withEngine r ≠ .refused f := by
  cases r <;> simp [State.withEngine]

/-- With no event pending the block holds its state (R175). -/
theorem step_idle {s : State} (h : s.pending = []) : step s = .next s := by
  simp [step, takeEvent, h]

/-- A hardware reset between commands (R180). -/
theorem step_reset {s : State} {rest : List HostEvent} (h : s.pending = .reset :: rest) :
    step s = .next (hardwareReset { s with pending := rest }) := by
  simp [step, takeEvent, h]

/-- A command word, by its decoding (R86, R87, R89). -/
theorem step_word {s : State} {w : Word} {rest : List HostEvent}
    (h : s.pending = .command w :: rest) :
    step s = match decode w with
      | .illegal => .next (illegalWord w { s with pending := rest })
      | .reserved => .next (reservedWord w { s with pending := rest })
      | .instr i => exec i { s with pending := rest } := by
  cases hd : decode w <;> simp [step, takeEvent, h, hd]

/-! ### The report (R161) -/

/-- What FIRSTERR_LO captures of a packed word. -/
@[simp] theorem wordLo_packWord (opc : BitVec 8) (mid : BitVec 24) (low : BitVec 32) :
    wordLo (packWord opc mid low) = low := lowField_packWord opc mid low

/-- What FIRSTERR_HI captures of a packed word. -/
@[simp] theorem wordHi_packWord (opc : BitVec 8) (mid : BitVec 24) (low : BitVec 32) :
    wordHi (packWord opc mid low) = opc ++ mid := by
  apply BitVec.eq_of_toNat_eq
  rw [wordHi, BitVec.extractLsb'_toNat, packWord_toNat, Nat.shiftRight_eq_div_pow, BitVec.toNat_append,
    ← Nat.shiftLeft_add_eq_or_of_lt mid.isLt, Nat.shiftLeft_eq]
  have := opc.isLt
  have := mid.isLt
  have := low.isLt
  omega

/-- `report` without its case split: LAST takes the code, STICKY grows, and FIRSTERR takes the first erring
word (R161). -/
theorem report_eq (c : ResultCode) (w : Word) (e : Engine N) :
    report c w e =
      { e with
        status := { e.status with last := c.code, sticky := e.status.sticky || c.isError }
        firstErrLo := if c.isError && !e.status.sticky then wordLo w else e.firstErrLo
        firstErrHi := if c.isError && !e.status.sticky then wordHi w else e.firstErrHi } := by
  unfold report
  cases hc : c.isError <;> cases hs : e.status.sticky <;> simp [hs]

/-! ### The sizes of a PREPARE (R152) -/

theorem capacityOf_vibcore (sr : Nat) : capacityOf Params.vibcore sr = (3 * sr + 4) / 5 := by
  simp only [capacityOf, Params.vibcore, ceilDiv]
  omega

theorem transitionOf_vibcore (sr : Nat) : transitionOf Params.vibcore sr = sr / 5 := by
  simp only [transitionOf, Params.vibcore]
  omega

theorem reachOf_vibcore (sr : Nat) : reachOf Params.vibcore sr = (2 * sr + 4) / 5 + 6 := by
  simp only [reachOf, Params.vibcore, ceilDiv]

/-! ### The data path's functions over any configuration

Each says once what a function computes. Rewrite with it before taking a particular configuration: with F32 in
place of `C`, unfolding the function lets the kernel run the arithmetic on open terms (hence `(rfl)` too, see
Laws/Config.lean). -/

theorem readArg_eq (C : Config N) (e : Engine N) (d : N) :
    readArg C e d = C.sub (C.add (C.sub (C.toNum (regInt e.wcur)) (C.mul d (C.toNum (regInt e.sr))))
      (C.toNum (regInt e.cap))) (C.toNum C.guard) := (rfl)

theorem readPos_eq (C : Config N) (e : Engine N) (d : N) :
    readPos C e d = modf C (readArg C e d) e.cap.toNat := (rfl)

theorem modf_eq (C : Config N) (x : N) (m : Nat) :
    modf C x m = if numEq C (C.rem x m) (C.toNum m) = true then C.toNum 0 else C.rem x m := (rfl)

theorem delay_eq (C : Config N) (p w : N) :
    delay C p w = C.mul w (C.add (C.cnum ⟨1, 2⟩) (C.mul (C.cnum ⟨1, 2⟩) (C.sin2pi p))) := (rfl)

theorem smooth_eq (C : Config N) (p s : N) :
    smooth C p s = C.add (C.mul (C.sub (C.toNum 1) (C.cnum C.k)) p) (C.mul (C.cnum C.k) s) := (rfl)

theorem weights_eq (C : Config N) (c len : Nat) :
    weights C c len = (C.sqrt (C.sub (C.toNum 1) (C.div (C.toNum c) (C.toNum len))),
      C.sqrt (C.div (C.toNum c) (C.toNum len))) := (rfl)

theorem blend_eq (C : Config N) (c len : Nat) (yp ya : N) :
    blend C c len yp ya =
      C.add (C.mul (weights C c len).1 yp) (C.mul (weights C c len).2 ya) := (rfl)

theorem nextPhase_eq (C : Config N) (p f : N) (sr : Reg) :
    nextPhase C p f sr =
      if C.le (C.toNum 1) (C.add p (C.div f (C.toNum (regInt sr)))) = true
      then C.sub (C.add p (C.div f (C.toNum (regInt sr)))) (C.toNum 1)
      else C.add p (C.div f (C.toNum (regInt sr))) := (rfl)

theorem cubic_eq (C : Config N) (a s0 s1 s2 s3 : N) :
    cubic C a s0 s1 s2 s3 =
      C.add (C.add (C.add
        (C.div (C.mul (C.mul (C.mul a (C.sub a (C.toNum 1))) (C.sub a (C.toNum 2))) s0) (C.toNum (-6)))
        (C.div (C.mul (C.mul (C.mul (C.sub a (C.toNum 1)) (C.add a (C.toNum 1))) (C.sub a (C.toNum 2))) s1)
          (C.toNum 2)))
        (C.div (C.mul (C.mul (C.mul a (C.add a (C.toNum 1))) (C.sub a (C.toNum 2))) s2) (C.toNum (-2))))
        (C.div (C.mul (C.mul (C.mul a (C.add a (C.toNum 1))) (C.sub a (C.toNum 1))) s3) (C.toNum 6)) := (rfl)

/-! ### The stages of a sample step -/

/-- INTERP answers exactly when the position has a floor that is an index in use; the value is the cubic
through the four circular taps (R104, R105). -/
theorem interp_eq_ok {C : Config N} {e : Engine N} {pos y : N} :
    interp C e pos = .ok y ↔ ∃ i s0 s1 s2 s3, C.floor pos = some i ∧
      bufRead C e (circular e.cap (i - 1)) = .ok s0 ∧ bufRead C e i = .ok s1 ∧
      bufRead C e (circular e.cap (i + 1)) = .ok s2 ∧ bufRead C e (circular e.cap (i + 2)) = .ok s3 ∧
      y = cubic C (C.sub pos (C.toNum i)) s0 s1 s2 s3 := by
  unfold interp
  cases hf : C.floor pos with
  | none => simp
  | some i =>
    simp only [Option.some.injEq, bind, Except.bind]
    constructor
    · intro h
      cases h0 : bufRead C e (circular e.cap (i - 1)) with
      | error f => simp [h0] at h
      | ok s0 =>
        cases h1 : bufRead C e i with
        | error f => simp [h0, h1] at h
        | ok s1 =>
          cases h2 : bufRead C e (circular e.cap (i + 1)) with
          | error f => simp [h0, h1, h2] at h
          | ok s2 =>
            cases h3 : bufRead C e (circular e.cap (i + 2)) with
            | error f => simp [h0, h1, h2, h3] at h
            | ok s3 =>
              simp [h0, h1, h2, h3] at h
              exact ⟨i, s0, s1, s2, s3, rfl, h0, h1, h2, h3, h.symm⟩
    · rintro ⟨_, s0, s1, s2, s3, rfl, h0, h1, h2, h3, rfl⟩
      simp [h0, h1, h2, h3]

/-- INTERP answers when the floor is an index in use. -/
theorem interp_completes {C : Config N} {e : Engine N} {pos : N} {i : Int}
    (hf : C.floor pos = some i) (h0 : 0 ≤ i) (h1 : i < regInt e.cap) : ∃ y, interp C e pos = .ok y := by
  have hcap : 0 < e.cap.toNat := by unfold regInt at h1; omega
  have hr : ∀ j, ∃ v, bufRead C e (circular e.cap j) = .ok v := fun j =>
    ⟨_, bufRead_eq_ok.2 ⟨circular_range hcap j, rfl⟩⟩
  obtain ⟨s0, e0⟩ := hr (i - 1)
  obtain ⟨s2, e2⟩ := hr (i + 1)
  obtain ⟨s3, e3⟩ := hr (i + 2)
  exact ⟨_, interp_eq_ok.2 ⟨i, s0, _, s2, s3, hf, e0, bufRead_eq_ok.2 ⟨⟨h0, h1⟩, rfl⟩, e2, e3, rfl⟩⟩

/-- A read depends on the cursor, the rate, the capacity, the phase and the buffer alone (R103 to R110):
neither the smoothers nor the sweep-width state reach it. -/
theorem sample_congr (C : Config N) {e e' : Engine N} (w : N) (hw : e'.wcur = e.wcur) (hs : e'.sr = e.sr)
    (hc : e'.cap = e.cap) (hp : e'.phase = e.phase) (hb : e'.buf = e.buf) :
    sample C e' w = sample C e w := by
  simp only [sample, interp, readPos, readArg, bufRead, hw, hs, hc, hp, hb]

/-- The smoothers do not reach a read (R112). -/
theorem sample_smoothAll (C : Config N) (e : Engine N) (w : N) :
    sample C (smoothAll C e) w = sample C e w :=
  sample_congr C w rfl rfl rfl rfl rfl

/-- TRIGGER's two cases (R114): it fires on an Idle crossfader whose smoothed width differs from the
committed one, and does nothing otherwise. -/
theorem trigger_cases (C : Config N) (e : Engine N) :
    (e.status.trans = false ∧ numEq C e.swidth e.aw = false ∧ trigger C e =
      { e with pw := e.aw, aw := e.swidth, cnt := 0#32, status := { e.status with trans := true } }) ∨
    ((e.status.trans = true ∨ numEq C e.swidth e.aw = true) ∧ trigger C e = e) := by
  unfold trigger
  cases ht : e.status.trans <;> cases hn : numEq C e.swidth e.aw <;> simp

/-- TRIGGER does not reach a read (R114). -/
theorem sample_trigger (C : Config N) (e : Engine N) (w : N) :
    sample C (trigger C e) w = sample C e w := by
  apply sample_congr <;> unfold trigger <;> split <;> rfl

/-- TRANSITION_STEP answers exactly below the transition's length (R115, R116). -/
theorem transitionStep_eq_ok {C : Config N} {yp ya : N} {e : Engine N} {r : N × Engine N} :
    transitionStep C yp ya e = .ok r ↔ e.cnt.toNat < e.tlen.toNat ∧
      r = (blend C e.cnt.toNat e.tlen.toNat yp ya, countStep e) := by
  unfold transitionStep
  split
  · rename_i h; simp [h, eq_comm]
  · rename_i h; simp [h]

/-- The crossfader's two cases: Idle, the active-width sample and the same state; Transitioning, the
blend and the count (R116, R117). -/
theorem crossfade_eq_ok {C : Config N} {e : Engine N} {r : N × Engine N} :
    crossfade C e = .ok r ↔ ∃ ya, sample C e e.aw = .ok ya ∧
      ((e.status.trans = false ∧ r = (ya, e)) ∨
       (e.status.trans = true ∧ ∃ yp, sample C e e.pw = .ok yp ∧ e.cnt.toNat < e.tlen.toNat ∧
         r = (blend C e.cnt.toNat e.tlen.toNat yp ya, countStep e))) := by
  unfold crossfade
  simp only [bind, Except.bind]
  cases ha : sample C e e.aw with
  | error f => simp
  | ok ya =>
    cases ht : e.status.trans with
    | false => simp [eq_comm]
    | true =>
      cases hp : sample C e e.pw with
      | error f => simp
      | ok yp => simp [transitionStep_eq_ok]

/-- WRITE_PATH answers exactly with the cursor inside the buffer (R100). -/
theorem writePath_eq_ok {C : Config N} {x : N} {e e' : Engine N} :
    writePath C x e = .ok e' ↔ e.wcur.toNat < e.cap.toNat ∧
      e' = { e with buf := bufInsert C.isPosZero e.wcur.toNat x e.buf
                    wcur := BitVec.ofNat 32 ((e.wcur.toNat + 1) % e.cap.toNat) } := by
  unfold writePath
  simp only [bind, Except.bind]
  cases h : bufWrite C (regInt e.wcur) x e with
  | error f =>
    have : ¬ e.wcur.toNat < e.cap.toNat := by
      intro hlt
      have := (bufWrite_eq_ok (C := C) (i := regInt e.wcur) (v := x) (e := e)).2
        ⟨by unfold regInt; omega, rfl⟩
      rw [h] at this; cases this
    simp [this]
  | ok e1 =>
    obtain ⟨h1, rfl⟩ := bufWrite_eq_ok.1 h
    have : e.wcur.toNat < e.cap.toNat := by unfold regInt at h1; omega
    simp [this, regInt, eq_comm]

/-- A sample step in its stages (R130). -/
theorem sampleStep_eq_ok {C : Config N} {x : N} {e e' : Engine N} :
    sampleStep C x e = .ok e' ↔ ∃ y e1 e2, crossfade C (trigger C (smoothAll C e)) = .ok (y, e1) ∧
      writePath C x (output C y e1) = .ok e2 ∧ e' = lfoAdvance C e2 := by
  unfold sampleStep
  simp only [bind, Except.bind]
  cases hc : crossfade C (trigger C (smoothAll C e)) with
  | error f => simp
  | ok r =>
    obtain ⟨y, e1⟩ := r
    cases hw : writePath C x (output C y e1) with
    | error f =>
      simp only [hw, reduceCtorEq, false_iff]
      rintro ⟨y', e1', e2, h, hw', -⟩
      cases h
      rw [hw] at hw'; cases hw'
    | ok e2 =>
      simp only [hw, Except.ok.injEq, Prod.mk.injEq]
      constructor
      · intro h
        exact ⟨y, e1, e2, ⟨rfl, rfl⟩, hw, h.symm⟩
      · rintro ⟨y', e1', e2', ⟨rfl, rfl⟩, hw', rfl⟩
        rw [hw] at hw'; cases hw'; rfl

/-- PROCESS's two cases (R130): refused while unprepared, one sample step while prepared. -/
theorem process_eq_ok {C : Config N} {bits : F32} {w : Word} {e e' : Engine N} :
    process C bits w e = .ok e' ↔
      (e.status.prepared = false ∧ e' = report .notPrepared w e) ∨
      (e.status.prepared = true ∧ ∃ e1, sampleStep C (inputSample C bits) e = .ok e1 ∧
        e' = report (inputCode bits) w e1) := by
  unfold process
  cases hp : e.status.prepared with
  | false => simp [eq_comm]
  | true =>
    simp only [if_true, bind, Except.bind]
    cases hs : sampleStep C (inputSample C bits) e with
    | error f => simp
    | ok e1 => simp [eq_comm]

/-- What PROCESS does on the machine. -/
theorem execProcess_eq_next {bits : F32} {s t : State} :
    execProcess bits s = .next t ↔ ∃ e, process s.config bits (encode (.process bits)) s.toEngine = .ok e ∧
      t = { s with toEngine := e, nanTick := nextTick s } := by
  unfold execProcess
  rw [withEngine_eq_next]

/-- PREPARE's two cases (R151): accepted or rejected. -/
theorem prepare_cases (C : Config N) (sr : BitVec 32) (blk : BitVec 24) (w : Word) (e : Engine N) :
    (prepareCheck C.toParams sr.toNat = none ∧ prepare C sr blk w e =
      report .ok w (setPrepared true 0#4 (prepareInit C (setSizes C.toParams sr blk e)))) ∨
    (∃ cause, prepareCheck C.toParams sr.toNat = some cause ∧ prepare C sr blk w e =
      report .configRejected w (setPrepared false cause.code e)) := by
  unfold prepare
  cases h : prepareCheck C.toParams sr.toNat with
  | none => exact .inl ⟨rfl, rfl⟩
  | some cause => exact .inr ⟨cause, rfl, rfl⟩

/-- A setter's two cases (R140): the clamped value written, or a non-finite operand refused. -/
theorem setParam_cases (C : Config N) (put : N → Engine N → Engine N) (lo hi : N) (bits : F32) (w : Word)
    (e : Engine N) :
    (Binary32.isFinite bits = true ∧ setParam C put lo hi bits w e =
      report (clampCode C lo hi (C.ofBits bits)) w (put (clamp C lo hi (C.ofBits bits)) e)) ∨
    (Binary32.isFinite bits = false ∧ setParam C put lo hi bits w e =
      report .nonfiniteOperand w e) := by
  unfold setParam
  cases h : Binary32.isFinite bits with
  | false => exact .inr ⟨rfl, rfl⟩
  | true => exact .inl ⟨rfl, rfl⟩

end Sys2Proof.Machine
end

