-- ==== Sys2Proof/Laws/PerInstr.lean ====
section
/-! SUPPORT. Statements about every instruction, one lemma per constructor: the word of an instruction
has the match value of its row of R85 under the row's mask. -/

namespace Sys2Proof.Laws

/-- The mask of an instruction's row (R85). -/
def rowMask : Instr → Word
  | .nop => 0xFFFFFFFFFFFFFFFF#64
  | .prepare _ _ => 0xFF00000000000000#64
  | .process _ => 0xFFFFFFFF00000000#64
  | .setfreq _ => 0xFFFFFFFF00000000#64
  | .setwidth _ => 0xFFFFFFFF00000000#64
  | .setgain _ => 0xFFFFFFFF00000000#64

/-- The match value of an instruction's row (R85). -/
def rowMatch : Instr → Word
  | .nop => 0x0000000000000000#64
  | .prepare _ _ => 0x0100000000000000#64
  | .process _ => 0x0200000000000000#64
  | .setfreq _ => 0x0300000000000000#64
  | .setwidth _ => 0x0400000000000000#64
  | .setgain _ => 0x0500000000000000#64

/-- A conjunction of two words packed field by field. -/
theorem packWord_and (opc opc' : BitVec 8) (mid mid' : BitVec 24) (low low' : BitVec 32) :
    packWord opc mid low &&& packWord opc' mid' low'
      = packWord (opc &&& opc') (mid &&& mid') (low &&& low') := by
  apply BitVec.eq_of_getLsbD_eq
  intro i hi
  simp only [packWord, BitVec.getLsbD_and, BitVec.getLsbD_append]
  split <;> [skip; split] <;> simp

/-- A word of three fields under format V's mask keeps its opcode and its middle field. -/
theorem packWord_and_opcMid (opc : BitVec 8) (mid : BitVec 24) (low : BitVec 32) :
    packWord opc mid low &&& 0xFFFFFFFF00000000#64 = packWord opc mid 0#32 := by
  have h := packWord_and opc (BitVec.allOnes 8) mid (BitVec.allOnes 24) low 0#32
  rw [BitVec.and_allOnes, BitVec.and_allOnes, BitVec.and_zero] at h
  exact h

/-- A word of three fields under format P's mask keeps its opcode. -/
theorem packWord_and_opc (opc : BitVec 8) (mid : BitVec 24) (low : BitVec 32) :
    packWord opc mid low &&& 0xFF00000000000000#64 = packWord opc 0#24 0#32 := by
  have h := packWord_and opc (BitVec.allOnes 8) mid 0#24 low 0#32
  rw [BitVec.and_allOnes, BitVec.and_zero, BitVec.and_zero] at h
  exact h

namespace EncodeMatchesRow

/-- The instruction's word lies in its row of the opcode table. -/
def Statement (i : Instr) : Prop := encode i &&& rowMask i = rowMatch i

theorem nop : Statement .nop := by unfold Statement; decide

theorem prepare (sr : BitVec 32) (blk : BitVec 24) : Statement (.prepare sr blk) :=
  (packWord_and_opc 0x01#8 blk sr).trans rfl

theorem process (bits : F32) : Statement (.process bits) :=
  (packWord_and_opcMid 0x02#8 0#24 bits).trans rfl

theorem setfreq (bits : F32) : Statement (.setfreq bits) :=
  (packWord_and_opcMid 0x03#8 0#24 bits).trans rfl

theorem setwidth (bits : F32) : Statement (.setwidth bits) :=
  (packWord_and_opcMid 0x04#8 0#24 bits).trans rfl

theorem setgain (bits : F32) : Statement (.setgain bits) :=
  (packWord_and_opcMid 0x05#8 0#24 bits).trans rfl

end EncodeMatchesRow

end Sys2Proof.Laws
end

