-- ==== Sys2Proof/Laws/Reals.lean ====
section
/-! SUPPORT. The reference semantics `ARITH = REAL`: its operations as those of the real numbers, and that a
sample step completes with the cursor inside the buffer and the counter below the transition's length. -/

namespace Sys2Proof.Reals

open Sys2Proof.Machine

@[simp] theorem config_add (x y : ℝ) : config.add x y = x + y := rfl
@[simp] theorem config_sub (x y : ℝ) : config.sub x y = x - y := rfl
@[simp] theorem config_mul (x y : ℝ) : config.mul x y = x * y := rfl
@[simp] theorem config_div (x y : ℝ) : config.div x y = x / y := rfl
@[simp] theorem config_sqrt (x : ℝ) : config.sqrt x = Real.sqrt x := rfl
@[simp] theorem config_sin2pi (p : ℝ) : config.sin2pi p = Real.sin (2 * Real.pi * p) := rfl
@[simp] theorem config_toNum (n : Int) : config.toNum n = (n : ℝ) := rfl
@[simp] theorem config_floor (x : ℝ) : config.floor x = some ⌊x⌋ := rfl
@[simp] theorem config_rem (x : ℝ) (m : Nat) : config.rem x m = x - m * ⌊x / m⌋ := rfl
@[simp] theorem config_cnum (q : Ratio) : config.cnum q = (q.num : ℝ) / q.den := rfl
@[simp] theorem config_toParams : config.toParams = Params.vibcore := rfl

@[simp] theorem config_le (x y : ℝ) : config.le x y = true ↔ x ≤ y :=
  @decide_eq_true_iff (x ≤ y) (Classical.propDecidable _)

@[simp] theorem config_isPosZero (x : ℝ) : config.isPosZero x = true ↔ x = 0 :=
  @decide_eq_true_iff (x = 0) (Classical.propDecidable _)

/-- Numeric equality is equality (R12). -/
@[simp] theorem numEq_iff (x y : ℝ) : numEq config x y = true ↔ x = y := by
  rw [numEq, Bool.and_eq_true, config_le, config_le, ← le_antisymm_iff]

/-- The exact remainder lies in `[0, m)` (R102). -/
theorem rem_range (x : ℝ) {m : Nat} (hm : 0 < m) : 0 ≤ config.rem x m ∧ config.rem x m < m := by
  have h : (0 : ℝ) < m := by exact_mod_cast hm
  have h1 := Int.floor_le (x / m)
  have h2 := Int.lt_floor_add_one (x / m)
  rw [le_div_iff₀ h] at h1
  rw [div_lt_iff₀ h] at h2
  constructor <;> simp only [config_rem] <;> nlinarith

/-- The read position's floor is an index in use (R103). -/
theorem floor_modf (x : ℝ) {m : Nat} (hm : 0 < m) :
    0 ≤ ⌊modf config x m⌋ ∧ ⌊modf config x m⌋ < m := by
  have h := rem_range x hm
  have hne : numEq config (config.rem x m) (config.toNum m) = false := by
    rw [Bool.eq_false_iff, ne_eq, numEq_iff]
    intro he
    rw [he] at h
    exact absurd h.2 (by simp)
  unfold modf
  rw [hne]
  exact ⟨Int.floor_nonneg.2 h.1, Int.floor_lt.2 (by exact_mod_cast h.2)⟩

/-- A read completes with a buffer of at least one word (R110). -/
theorem sample_completes {e : Engine ℝ} (hc : 0 < e.cap.toNat) (w : ℝ) :
    ∃ y, sample config e w = .ok y :=
  interp_completes (config_floor _) (floor_modf _ hc).1 (floor_modf _ hc).2

/-- A PROCESS of a prepared engine completes when the cursor is inside the buffer and the counter, of a
transition in progress, below the transition's length (R130). -/
theorem process_completes {e : Engine ℝ} (bits : F32) (w : Word) (hp : e.status.prepared = true)
    (hw : e.wcur.toNat < e.cap.toNat) (hl : 0 < e.tlen.toNat)
    (ht : e.status.trans = true → e.cnt.toNat < e.tlen.toNat) :
    ∃ r, process config bits w e = .ok r := by
  suffices h : ∃ r, sampleStep config (inputSample config bits) e = .ok r by
    obtain ⟨r, hr⟩ := h
    exact ⟨_, process_eq_ok.2 (.inr ⟨hp, r, hr, rfl⟩)⟩
  suffices h : ∃ y e1, crossfade config (trigger config (smoothAll config e)) = .ok (y, e1) ∧
      e1.wcur = e.wcur ∧ e1.cap = e.cap by
    obtain ⟨y, e1, h1, h2, h3⟩ := h
    exact ⟨_, sampleStep_eq_ok.2 ⟨y, e1, _, h1, writePath_eq_ok.2
      ⟨by simpa [output, h2, h3] using hw, rfl⟩, rfl⟩⟩
  have hcap : (trigger config (smoothAll config e)).cap = e.cap := by unfold trigger; split <;> rfl
  have hwc : (trigger config (smoothAll config e)).wcur = e.wcur := by unfold trigger; split <;> rfl
  have hcnt : (trigger config (smoothAll config e)).status.trans = true →
      (trigger config (smoothAll config e)).cnt.toNat <
        (trigger config (smoothAll config e)).tlen.toNat := by
    unfold trigger
    split
    · intro _; exact hl
    · exact ht
  generalize trigger config (smoothAll config e) = e0 at hcap hwc hcnt
  have h0 : 0 < e0.cap.toNat := by rw [hcap]; omega
  obtain ⟨ya, hya⟩ := sample_completes h0 e0.aw
  obtain ⟨yp, hyp⟩ := sample_completes h0 e0.pw
  cases h : e0.status.trans with
  | false => exact ⟨ya, e0, crossfade_eq_ok.2 ⟨ya, hya, .inl ⟨h, rfl⟩⟩, hwc, hcap⟩
  | true =>
    refine ⟨_, _, crossfade_eq_ok.2 ⟨ya, hya, .inr ⟨h, yp, hyp, hcnt h, rfl⟩⟩, ?_, ?_⟩
    · rw [← hwc]; unfold countStep; split <;> rfl
    · rw [← hcap]; unfold countStep; split <;> rfl

end Sys2Proof.Reals
end

