-- ==== Sys2Proof/Laws/Rounding.lean ====
section
/-! SUPPORT. The F32 operations on finite operands as exact integer operations followed by one rounding:
each operation's value is `roundInt` of the exact result, which is monotone and leaves representable
values unchanged. -/

namespace Sys2Proof.Binary32

/-- `RND` on signed values in units of 2^-149: the value of the pattern that `v / d` rounds to (R9). -/
def roundInt (v : Int) (d : Nat) : Int := signed (v < 0) (magUnits (roundMag v.natAbs d))

theorem roundInt_of_nonneg {v : Int} (h : 0 ≤ v) (d : Nat) :
    roundInt v d = (magUnits (roundMag v.natAbs d) : Int) := by
  simp [roundInt, not_lt.2 h]

theorem roundInt_of_neg {v : Int} (h : v < 0) (d : Nat) :
    roundInt v d = -(magUnits (roundMag v.natAbs d) : Int) := by
  simp [roundInt, h]

theorem roundInt_neg (v : Int) {d : Nat} (hd : 0 < d) : roundInt (-v) d = -roundInt v d := by
  rcases lt_trichotomy v 0 with h | h | h
  · rw [roundInt_of_neg h, roundInt_of_nonneg (by omega)]; simp
  · subst h; simp [roundInt, roundMag_zero hd]
  · rw [roundInt_of_nonneg (le_of_lt h), roundInt_of_neg (by omega)]; simp

theorem roundInt_zero {d : Nat} (hd : 0 < d) : roundInt 0 d = 0 := by
  simp [roundInt, roundMag_zero hd]

/-- Rounding keeps the order of signed values. -/
theorem roundInt_mono {v v' : Int} {d d' : Nat} (hd : 0 < d) (hd' : 0 < d') (h : v * d' ≤ v' * d) :
    roundInt v d ≤ roundInt v' d' := by
  rcases lt_or_ge v 0 with hv | hv <;> rcases lt_or_ge v' 0 with hv' | hv'
  · rw [roundInt_of_neg hv, roundInt_of_neg hv']
    have : roundMag v'.natAbs d' ≤ roundMag v.natAbs d := by
      apply roundMag_mono hd' hd
      zify
      rw [abs_of_neg hv, abs_of_neg hv']
      nlinarith
    have := magUnits_le.2 this
    omega
  · rw [roundInt_of_neg hv, roundInt_of_nonneg hv']; omega
  · exfalso
    have h1 : 0 ≤ v * (d' : Int) := by positivity
    have h2 : v' * (d : Int) < 0 := mul_neg_of_neg_of_pos hv' (by exact_mod_cast hd)
    omega
  · rw [roundInt_of_nonneg hv, roundInt_of_nonneg hv']
    have : roundMag v.natAbs d ≤ roundMag v'.natAbs d' := by
      apply roundMag_mono hd hd'
      zify
      rw [abs_of_nonneg hv, abs_of_nonneg hv']
      exact h
    have := magUnits_le.2 this
    omega

/-- The value of a finite pattern rounds to itself. -/
theorem roundInt_units {b : F32} (h : isFinite b = true) {d : Nat} (hd : 0 < d) :
    roundInt (units b * d) d = units b := by
  have hm : magBits b ≤ infMag := by
    have : magBits b < infMag := by simpa [isFinite] using h
    omega
  rw [units_of_finite h]
  have hex := roundMag_exact hd hm
  cases hs : signBit b
  · rw [signed_false, roundInt_of_nonneg (by positivity)]
    rw [show ((magUnits (magBits b) : Int) * d).natAbs = magUnits (magBits b) * d by
      rw [Int.natAbs_mul]; simp, hex]
  · rw [signed_true]
    rw [show -(magUnits (magBits b) : Int) * d = -((magUnits (magBits b) : Int) * d) by ring,
      roundInt_neg _ hd, roundInt_of_nonneg (by positivity)]
    rw [show ((magUnits (magBits b) : Int) * d).natAbs = magUnits (magBits b) * d by
      rw [Int.natAbs_mul]; simp, hex]

/-- A magnitude between two finite values rounds to a finite one. -/
theorem roundMag_finite {v : Int} {d : Nat} {b : F32} (hd : 0 < d) (hb : isFinite b = true)
    (h : |v| ≤ |units b| * d) : roundMag v.natAbs d < infMag := by
  have hm : magBits b < infMag := by simpa [isFinite] using hb
  have hu : |units b| = (magUnits (magBits b) : Int) := by
    rw [units_of_finite hb]; cases signBit b <;> simp
  have : roundMag v.natAbs d ≤ roundMag (magUnits (magBits b) * d) d := by
    apply roundMag_mono hd hd
    zify
    rw [hu] at h
    exact mul_le_mul_of_nonneg_right h (by positivity)
  rw [roundMag_exact hd (le_of_lt hm)] at this
  omega

/-- The value of a pattern whose datum is known. (Stated for a variable `u`, so that no proof unfolds a
magnitude.) -/
theorem units_of_unpack {b : F32} {s : Bool} {u : Nat} (h : unpack b = .fin s u) :
    units b = signed s u := by
  unfold units; rw [h]

theorem units_pack {neg : Bool} {m : Nat} (h : m < infMag) :
    units (pack neg m) = signed neg (magUnits m) :=
  units_of_unpack (unpack_pack_fin h)

theorem isFinite_pack {neg : Bool} {m : Nat} (h : m < infMag) : isFinite (pack neg m) = true :=
  (isFinite_iff _).2 ⟨_, _, unpack_pack_fin h⟩

/-- A rounding whose magnitude stays finite: the pattern is finite, and its value is that of the rounded
magnitude. -/
theorem roundTo_finite {neg : Bool} {n d : Nat} (h : roundMag n d < infMag) :
    isFinite (roundTo neg n d) = true ∧
      units (roundTo neg n d) = signed neg (magUnits (roundMag n d)) :=
  ⟨isFinite_pack h, units_pack h⟩

variable {nan x y : F32}

/-- Addition of finite values: the exact sum, rounded once. -/
theorem add_finite (hx : isFinite x = true) (hy : isFinite y = true)
    (h : roundMag (units x + units y).natAbs 1 < infMag) :
    isFinite (add nan x y) = true ∧ units (add nan x y) = roundInt (units x + units y) 1 := by
  rw [units_of_finite hx, units_of_finite hy] at *
  unfold add
  rw [unpack_of_finite hx, unpack_of_finite hy]
  simp only
  split
  · rename_i h0
    rw [h0, roundInt_zero (by norm_num)]
    refine ⟨isFinite_pack (by decide), ?_⟩
    rw [units_pack (by decide)]; cases (signBit x && signBit y) <;> simp
  · exact roundTo_finite h

theorem unpack_negate (hy : isFinite y = true) :
    unpack (negate y) = .fin (!signBit y) (magUnits (magBits y)) := by
  have hm : magBits y < infMag := by simpa [isFinite] using hy
  have : negate y = pack (!signBit y) (magBits y) := by
    apply BitVec.eq_of_toNat_eq
    have h32 := y.isLt
    have hlow : y.toNat ^^^ 2147483648 = (y.toNat / 2 ^ 31 ^^^ 1) * 2 ^ 31 + y.toNat % 2 ^ 31 := by
      rw [← Nat.div_add_mod (y.toNat ^^^ 2147483648) (2 ^ 31), Nat.xor_div_two_pow,
        Nat.xor_mod_two_pow]
      norm_num; ring
    unfold negate pack signBit magBits
    rw [BitVec.toNat_xor, BitVec.toNat_ofNat, BitVec.toNat_ofNat]
    rw [show 0x80000000 % 2 ^ 32 = 2147483648 by norm_num, hlow]
    have hb : y.toNat / 2 ^ 31 = 0 ∨ y.toNat / 2 ^ 31 = 1 := by omega
    rcases hb with hb | hb <;> rw [hb] <;> simp <;> omega
  rw [this]
  exact unpack_pack_fin hm

theorem isFinite_negate (hy : isFinite y = true) : isFinite (negate y) = true :=
  (isFinite_iff _).2 ⟨_, _, unpack_negate hy⟩

theorem units_negate (hy : isFinite y = true) : units (negate y) = -units y := by
  rw [units_of_finite hy]
  simp only [units, unpack_negate hy]
  cases signBit y <;> simp

/-- Subtraction of finite values: the exact difference, rounded once. -/
theorem sub_finite (hx : isFinite x = true) (hy : isFinite y = true)
    (h : roundMag (units x - units y).natAbs 1 < infMag) :
    isFinite (sub nan x y) = true ∧ units (sub nan x y) = roundInt (units x - units y) 1 := by
  have := add_finite (nan := nan) hx (isFinite_negate hy)
  rw [units_negate hy, ← sub_eq_add_neg] at this
  exact this h

/-- The sign of a product of signed magnitudes, as a rounding takes it. -/
theorem signed_mul (s t : Bool) (m n : Nat) :
    signed s m * signed t n = signed (s != t) (m * n) := by
  cases s <;> cases t <;> simp

theorem roundInt_signed (s : Bool) (u : Nat) {d : Nat} (hd : 0 < d) :
    roundInt (signed s u) d = signed s (magUnits (roundMag u d)) := by
  cases s
  · rw [signed_false, roundInt_of_nonneg (by positivity)]; simp
  · rw [signed_true, roundInt_neg _ hd, roundInt_of_nonneg (by positivity)]; simp

/-- Multiplication of finite values: the exact product, rounded once. -/
theorem mul_finite (hx : isFinite x = true) (hy : isFinite y = true)
    (h : roundMag (units x * units y).natAbs unitScale < infMag) :
    isFinite (mul nan x y) = true ∧
      units (mul nan x y) = roundInt (units x * units y) unitScale := by
  rw [units_of_finite hx, units_of_finite hy, signed_mul] at *
  rw [roundInt_signed _ _ unitScale_pos]
  rw [natAbs_signed] at h
  unfold mul
  rw [unpack_of_finite hx, unpack_of_finite hy]
  exact roundTo_finite h

/-- Division of finite values by a positive one: the exact quotient, rounded once. -/
theorem div_finite (hx : isFinite x = true) (hy : isFinite y = true) (hpos : 0 < units y)
    (h : roundMag (units x * unitScale).natAbs (units y).natAbs < infMag) :
    isFinite (div nan x y) = true ∧
      units (div nan x y) = roundInt (units x * unitScale) (units y).natAbs := by
  have hs : signBit y = false := by
    rw [units_of_finite hy] at hpos
    cases hc : signBit y
    · rfl
    · rw [hc, signed_true] at hpos; omega
  have hn : (units y).natAbs = magUnits (magBits y) := by rw [units_of_finite hy, natAbs_signed]
  have hd : 0 < magUnits (magBits y) := by rw [← hn]; omega
  rw [hn] at h ⊢
  have e : units x * (unitScale : Int) = signed (signBit x) (magUnits (magBits x) * unitScale) := by
    rw [units_of_finite hx]; cases signBit x <;> simp
  rw [e] at h ⊢
  rw [roundInt_signed _ _ hd]
  rw [natAbs_signed] at h
  unfold div
  rw [unpack_of_finite hx, unpack_of_finite hy, hs]
  simp only [if_neg (by omega : ¬ magUnits (magBits y) = 0), Bool.bne_false]
  exact roundTo_finite h

/-! ### The free NaN does not reach an operation on finite values, so such an operation can be evaluated at
any NaN -/

theorem add_nan_irrel (nan' : F32) (hx : isFinite x = true) (hy : isFinite y = true) :
    add nan x y = add nan' x y := by
  unfold add
  rw [unpack_of_finite hx, unpack_of_finite hy]

theorem sub_nan_irrel (nan' : F32) (hx : isFinite x = true) (hy : isFinite y = true) :
    sub nan x y = sub nan' x y := add_nan_irrel nan' hx (isFinite_negate hy)

theorem mul_nan_irrel (nan' : F32) (hx : isFinite x = true) (hy : isFinite y = true) :
    mul nan x y = mul nan' x y := by
  unfold mul
  rw [unpack_of_finite hx, unpack_of_finite hy]

theorem div_nan_irrel (nan' : F32) (hx : isFinite x = true) (hy : isFinite y = true)
    (h0 : units y ≠ 0) : div nan x y = div nan' x y := by
  have h : magUnits (magBits y) ≠ 0 := by
    intro h
    rw [units_of_finite hy, h] at h0
    exact h0 (by cases signBit y <;> rfl)
  unfold div
  rw [unpack_of_finite hx, unpack_of_finite hy]
  simp only [if_neg h]

theorem rem_nan_irrel (nan' : F32) (m : Nat) (hx : isFinite x = true) :
    rem nan x m = rem nan' x m := by
  unfold rem
  rw [unpack_of_finite hx]

end Sys2Proof.Binary32
end

