-- ==== Sys2Proof/Tests/Slice0.lean ====
section
/-! SUPPORT. Tests with expected values from the spec (95_test_vectors.md and the cited rules), the smoke
tests of the well-formedness checks, and for each obligation with hypotheses a witness that meets them. -/

-- One theorem at a time: many kernel evaluations at once ask for more threads than the memory limit allows.
set_option Elab.async false

namespace Sys2Proof.Tests

open Sys2Proof.Machine

/-! ### Well-formedness: an ill-formed term for each check -/

theorem test_wf_prepare_max : (Instr.prepare 0xFFFFFFFF#32 0xFFFFFF#24).wellFormed = true := by decide
theorem test_wf_line_rate : (AsmLine.prepare (2 ^ 32) 0).wellFormed = false := by decide
theorem test_wf_line_block : (AsmLine.prepare 80 (2 ^ 24)).wellFormed = false := by decide
theorem test_wf_line_word : (AsmLine.word64 (2 ^ 64)).wellFormed = false := by decide
theorem test_wf_value_bits : (Value.bits (2 ^ 32)).wellFormed = false := by decide
theorem test_wf_line_values :
    (AsmLine.process (.bits (2 ^ 32))).wellFormed = false ∧
    (AsmLine.setfreq (.bits (2 ^ 32))).wellFormed = false ∧
    (AsmLine.setwidth (.bits (2 ^ 32))).wellFormed = false ∧
    (AsmLine.setgain (.bits (2 ^ 32))).wellFormed = false ∧
    (AsmLine.block [.nan, .bits (2 ^ 32)]).wellFormed = false := by decide

/-- R6: one parameter broken for each bullet. -/
theorem test_wf_params :
    Params.vibcore.wellFormed = true ∧
    { Params.vibcore with guard := 2 }.wellFormed = false ∧
    { Params.vibcore with k := ⟨1, 1⟩ }.wellFormed = false ∧
    { Params.vibcore with transTime := ⟨0, 5⟩ }.wellFormed = false ∧
    { Params.vibcore with capFactor := ⟨3, 0⟩ }.wellFormed = false ∧
    { Params.vibcore with freqMin := ⟨21, 1⟩ }.wellFormed = false ∧
    { Params.vibcore with widthMin := ⟨1, 2⟩ }.wellFormed = false ∧
    { Params.vibcore with gainMin := ⟨11, 1⟩ }.wellFormed = false ∧
    { Params.vibcore with defFreq := ⟨21, 1⟩ }.wellFormed = false ∧
    { Params.vibcore with defWidth := ⟨1, 2⟩ }.wellFormed = false ∧
    { Params.vibcore with defGain := ⟨11, 1⟩ }.wellFormed = false ∧
    { Params.vibcore with maxCapacity := 0 }.wellFormed = false ∧
    { Params.vibcore with maxCapacity := 2 ^ 20 + 1 }.wellFormed = false ∧
    { Params.vibcore with srMax := 2 ^ 24 + 1 }.wellFormed = false := by decide

/-! ### Decoding: the words of 30_encoding.md R92 and of V-DEC -/

theorem test_decode_nop : decode 0x0000000000000000#64 = .instr .nop := by decide
theorem test_decode_prepare : decode 0x010002000000BB80#64 = .instr (.prepare 48000#32 512#24) := by
  decide
theorem test_decode_process : decode 0x02000000BF000000#64 = .instr (.process 0xBF000000#32) := by decide
theorem test_decode_setfreq : decode 0x0300000041A00000#64 = .instr (.setfreq 0x41A00000#32) := by decide
theorem test_decode_setwidth : decode 0x040000003E000000#64 = .instr (.setwidth 0x3E000000#32) := by decide
theorem test_decode_setgain : decode 0x05000000C0400000#64 = .instr (.setgain 0xC0400000#32) := by decide

/-- V-DEC-2, 3, 4, 6, 8 and 9. -/
theorem test_decode_edges :
    decode 0x0000000000000001#64 = .reserved ∧ decode 0x00FFFFFFFFFFFFFF#64 = .reserved ∧
    decode 0x01FFFFFFFFFFFFFF#64 = .instr (.prepare 0xFFFFFFFF#32 0xFFFFFF#24) ∧
    decode 0x0280000000000000#64 = .reserved ∧ decode 0x0600000000000000#64 = .illegal ∧
    decode 0xFFFFFFFFFFFFFFFF#64 = .illegal := by decide

/-- The opcode table's numbering of a word, and a row cut to its 64 bits. -/
theorem test_table_word :
    decodeTableWord 64 0x0300000041A00000 = some (.setfreq 0x41A00000#32) ∧
    decodeTableWord 64 0x0100001000000050 = some (.prepare 80#32 16#24) ∧
    decodeTableWord 64 0x0700000000000000 = none := by decide

/-- R65: the least significant byte first. -/
theorem test_transport : wordBytes 0x0100001000000050#64 =
    [0x50#8, 0#8, 0#8, 0#8, 0x10#8, 0#8, 0#8, 0x01#8] := by decide

/-! ### Small states -/

/-- The command words `ws` executed one after another from `s`. -/
def after (s : State) (ws : List Word) : State :=
  ws.foldl (fun s w => match step { s with pending := [.command w] } with
    | .next t => t
    | _ => s) s

/-- 20 Hz at 80 Hz sample rate: the phase advances by 1/4, so SIN2PI is always at a quarter phase. -/
def demo : State := after State.reset [0x0300000041A00000#64, 0x0100001000000050#64]

/-- `demo` in a transition, one step into it. -/
def moving : State := after demo [0x040000003E000000#64, 0x020000003F800000#64]

/-- `moving` before the transition's last step. -/
def ending : State := { moving with cnt := 15#32 }

/-- A check on the next state, where there is one. -/
def nextHas (o : Host.Outcome State Fault Refusal) (p : State → Bool) : Bool :=
  match o with
  | .next t => p t
  | _ => false

theorem exists_next {o : Host.Outcome State Fault Refusal} {p : State → Bool} (h : nextHas o p = true) :
    ∃ t, o = .next t ∧ p t = true := by
  cases o with
  | next t => exact ⟨t, rfl, h⟩
  | fault f => cases h
  | refused f => cases h

/-! ### One step of each instruction -/

/-- NOP: only LAST changes (R150). -/
theorem test_nop : nextHas (exec .nop moving) (fun t =>
    t.status.last = 0#4 ∧ t.cnt = moving.cnt ∧ t.outL = moving.outL) = true := by decide +kernel

/-- V-PREP-15. -/
theorem test_prepare_sizes : nextHas (exec (.prepare 80#32 16#24) State.reset) (fun t =>
    t.cap = 48#32 ∧ t.tlen = 16#32 ∧ t.maxblk = 16#32 ∧ t.swidth = 0x3C03126F#32 ∧
    readPort t 0x01#8 = 0x00000001#32) = true := by decide +kernel

/-- V-PREP-5, 7, 9, 11 and 13: STATUS after a rejected PREPARE. -/
theorem test_prepare_rejected :
    nextHas (exec (.prepare 218454#32 0#24) State.reset) (fun t => readPort t 0x01#8 = 0x00010350#32) = true ∧
    nextHas (exec (.prepare 40#32 0#24) State.reset) (fun t => readPort t 0x01#8 = 0x00010650#32) = true ∧
    nextHas (exec (.prepare 28#32 0#24) State.reset) (fun t => readPort t 0x01#8 = 0x00010450#32) = true ∧
    nextHas (exec (.prepare 0#32 0#24) State.reset) (fun t => readPort t 0x01#8 = 0x00010150#32) = true ∧
    nextHas (exec (.prepare 16777217#32 0#24) State.reset) (fun t =>
      readPort t 0x01#8 = 0x00010250#32) = true := by decide +kernel

/-- One sample step: the input at the old cursor, the cursor and the quarter phase advanced (R100, R121). -/
theorem test_process_writes : nextHas (exec (.process 0x3F800000#32) demo) (fun t =>
    t.buf = [(0, 0x3F800000#32)] ∧ t.wcur = 1#32 ∧ t.phase = 0x3E800000#32 ∧
    readPort t 0x01#8 = 0x00000001#32) = true := by decide +kernel

/-- An infinity is replaced by +0 and reported (R130, R132). -/
theorem test_process_nonfinite : nextHas (exec (.process 0x7F800000#32) demo) (fun t =>
    t.buf = [] ∧ t.wcur = 1#32 ∧ readPort t 0x01#8 = 0x00010071#32 ∧
    t.firstErrHi = 0x02000000#32 ∧ t.firstErrLo = 0x7F800000#32) = true := by decide +kernel

/-- V-SET-2 and V-SET-8. -/
theorem test_setfreq :
    nextHas (exec (.setfreq 0x41C80000#32) State.reset) (fun t =>
      t.freq = 0x41A00000#32 ∧ t.status.last = 1#4) = true ∧
    nextHas (exec (.setfreq 0x7F800000#32) State.reset) (fun t =>
      t.freq = 0x40000000#32 ∧ t.status.last = 6#4) = true := by decide +kernel

/-- V-SET-10 and V-SET-12. -/
theorem test_setwidth :
    nextHas (exec (.setwidth 0x3ECCCCCE#32) State.reset) (fun t =>
      t.width = 0x3ECCCCCD#32 ∧ t.status.last = 1#4) = true ∧
    nextHas (exec (.setwidth 0x3A03126F#32) State.reset) (fun t =>
      t.width = 0x3A03126F#32 ∧ t.status.last = 0#4) = true := by decide +kernel

/-- V-SET-19 and V-SET-20. -/
theorem test_setgain :
    nextHas (exec (.setgain 0xC0400000#32) State.reset) (fun t =>
      t.gain = 0x3D0186E2#32 ∧ t.status.last = 1#4) = true ∧
    nextHas (exec (.setgain 0x7F800001#32) State.reset) (fun t =>
      t.gain = 0x3F800000#32 ∧ t.status.last = 6#4) = true := by decide +kernel

/-- The host's word as the first command after reset: V-PREP-6, V-SET-2 and R184's report. -/
theorem test_first_command :
    nextHas (step (State.reset.withFetchWord 64 0)) (fun t => t = State.reset) = true ∧
    nextHas (step (State.reset.withFetchWord 64 0x0100000000000029)) (fun t =>
      t.pending = [] ∧ t.cap = 25#32 ∧ t.tlen = 8#32 ∧ t.status.last = 0#4) = true ∧
    nextHas (step (State.reset.withFetchWord 64 0x0200000000000000)) (fun t =>
      t.status.last = 4#4) = true ∧
    nextHas (step (State.reset.withFetchWord 64 0x0300000041C80000)) (fun t =>
      t.freq = 0x41A00000#32 ∧ t.status.last = 1#4) = true := by decide +kernel

/-! ### The data path -/

/-- V-MODF-1 to V-MODF-5. -/
theorem test_modf :
    modf (Binary32.config 0#32) 0xBF000000#32 48 = 0x423E0000#32 ∧
    modf (Binary32.config 0#32) 0x42490000#32 48 = 0x40100000#32 ∧
    modf (Binary32.config 0#32) 0x42400000#32 48 = 0#32 ∧
    modf (Binary32.config 0#32) 0x42BF0000#32 48 = 0x423E0000#32 ∧
    modf (Binary32.config 0#32) 0xB0800000#32 48 = 0#32 := by decide +kernel

/-- A buffer of 48 words holding 1 to 48. -/
def ramp : Engine F32 :=
  { demo.toEngine with buf := (List.range 48).map (fun j => (j, Binary32.toNum (j + 1))) }

/-- V-INT-2, V-INT-5 and V-INT-6. -/
theorem test_interp :
    (interp (Binary32.config 0#32) ramp 0x00000000#32).toOption = some 0x3F800000#32 ∧
    (interp (Binary32.config 0#32) ramp 0x3E800000#32).toOption = some 0xBFB00000#32 ∧
    (interp (Binary32.config 0#32) ramp 0x423A0000#32).toOption = some 0x424A0000#32 := by decide +kernel

/-- V-DEL-1 to V-DEL-4. -/
theorem test_delay :
    delay (Binary32.config 0#32) 0x00000000#32 0x3E000000#32 = 0x3D800000#32 ∧
    delay (Binary32.config 0#32) 0x3E800000#32 0x3E000000#32 = 0x3E000000#32 ∧
    delay (Binary32.config 0#32) 0x3F000000#32 0x3E000000#32 = 0x3D800000#32 ∧
    delay (Binary32.config 0#32) 0x3F400000#32 0x3E000000#32 = 0#32 := by decide +kernel

/-- V-SM-1, the first two steps of V-SM-4, and V-SM-5. -/
theorem test_smooth :
    smooth (Binary32.config 0#32) 0x3E800000#32 0x3E000000#32 = 0x3E066666#32 ∧
    smooth (Binary32.config 0#32) 0x3CA3D70A#32 0x3C03126F#32 = 0x3C0CE704#32 ∧
    smooth (Binary32.config 0#32) 0x3CA3D70A#32 0x3C0CE704#32 = 0x3C163DC5#32 ∧
    smooth (Binary32.config 0#32) 0x3FDEB4FF#32 0x3FDEB4FF#32 = 0x3FDEB4FE#32 := by decide +kernel

/-- V-W-1 to V-W-4. -/
theorem test_weights :
    weights (Binary32.config 0#32) 0 16 = (0x3F800000#32, 0#32) ∧
    weights (Binary32.config 0#32) 1 16 = (0x3F77DEF6#32, 0x3E800000#32) ∧
    weights (Binary32.config 0#32) 4 16 = (0x3F5DB3D7#32, 0x3F000000#32) ∧
    weights (Binary32.config 0#32) 8 16 = (0x3F3504F3#32, 0x3F3504F3#32) := by decide +kernel

/-- V-LFO-1, and V-LFO-4's first three steps. -/
theorem test_phase :
    nextPhase (Binary32.config 0#32) 0x3F400000#32 0x41A00000#32 80#32 = 0#32 ∧
    nextPhase (Binary32.config 0#32) 0#32 0x41A00000#32 41#32 = 0x3EF9C190#32 ∧
    nextPhase (Binary32.config 0#32) 0x3EF9C190#32 0x41A00000#32 41#32 = 0x3F79C190#32 ∧
    nextPhase (Binary32.config 0#32) 0x3F79C190#32 0x41A00000#32 41#32 = 0x3EED44B0#32 := by decide +kernel

/-- R10: the constants' patterns. -/
theorem test_constants :
    Binary32.cnum ⟨19, 20⟩ = 0x3F733333#32 ∧ Binary32.cnum ⟨2, 5⟩ = 0x3ECCCCCD#32 ∧
    Binary32.cnum ⟨1, 125⟩ = 0x3C03126F#32 ∧
    Binary32.cnum ⟨4244337, 134217728⟩ = 0x3D0186E2#32 := by decide +kernel

/-- V-SET-21, V-SET-22 and R91. -/
theorem test_assembler :
    Assembler.assembleLine "setgaindb -30".toList = some [0x050000003D0186E2#64] ∧
    Assembler.assembleLine "silence 2".toList = some [0x0200000000000000#64, 0x0200000000000000#64] ∧
    Assembler.assembleLine "block 1.0, -0.5".toList =
      some [0x020000003F800000#64, 0x02000000BF000000#64] := by decide +kernel

/-! ### States that meet the invariant -/

/-- The parts of the invariant that do not depend on the sizes, as a check. -/
def invCheck (e : Engine F32) : Bool :=
  Binary32.le 0x3C23D70A#32 e.freq && Binary32.le e.freq 0x41A00000#32
    && Binary32.le 0x3A03126F#32 e.width && Binary32.le e.width 0x3ECCCCCD#32
    && Binary32.le 0x3D0186E2#32 e.gain && Binary32.le e.gain 0x41200000#32
    && Binary32.inUnit e.phase && (!e.status.trans || decide (e.cnt.toNat < e.tlen.toNat))
    && (e.status.trans || decide (e.pw = e.aw)) && decide (e.cnt.toNat ≤ e.tlen.toNat)
    && decide (e.maxblk.toNat < 2 ^ 24) && decide (e.buf.Pairwise (fun x y => x.1 < y.1))
    && e.buf.all (fun c => decide (c.1 < 131072) && decide (c.2 ≠ 0#32) && Binary32.isFinite c.2)
    && decide (e.outR = e.outL) && decide (e.status.last.toNat < 8) && decide (e.status.cfgCause.toNat < 7)
    && (e.status.sticky || decide (e.firstErrLo = 0#32 ∧ e.firstErrHi = 0#32))

/-- The parts that hold once a PREPARE has been accepted, as a check. -/
def sizedCheck (e : Engine F32) : Bool :=
  decide (41 ≤ e.sr.toNat) && decide (e.sr.toNat ≤ 218453)
    && decide (e.cap.toNat = (3 * e.sr.toNat + 4) / 5) && decide (e.tlen.toNat = e.sr.toNat / 5)
    && decide (e.wcur.toNat < e.cap.toNat)
    && Binary32.le 0x3C23D70A#32 e.sfreq && Binary32.le e.sfreq 0x41A00000#32
    && Binary32.le 0x3A03126F#32 e.swidth && Binary32.le e.swidth 0x3ECCCCCD#32
    && Binary32.le 0x3D0186E2#32 e.sgain && Binary32.le e.sgain 0x41200000#32
    && Binary32.le 0x3A03126F#32 e.aw && Binary32.le e.aw 0x3ECCCCCD#32
    && Binary32.le 0x3A03126F#32 e.pw && Binary32.le e.pw 0x3ECCCCCD#32

theorem sized_of_check {e : Engine F32} (h : sizedCheck e = true) : Sized Legal.f32 e := by
  simp only [sizedCheck, Bool.and_eq_true, decide_eq_true_eq] at h
  obtain ⟨⟨⟨⟨⟨⟨⟨⟨⟨⟨⟨⟨⟨⟨h1, h2⟩, h3⟩, h4⟩, h5⟩, h6⟩, h7⟩, h8⟩, h9⟩, h10⟩, h11⟩, h12⟩, h13⟩, h14⟩, h15⟩ := h
  exact ⟨h1, h2, h3, h4, h5, ⟨h6, h7⟩, ⟨h8, h9⟩, ⟨h10, h11⟩, ⟨h12, h13⟩, ⟨h14, h15⟩⟩

theorem inv_of_check {e : Engine F32} (h : invCheck e = true) (hs : sizedCheck e = true) : Inv e := by
  have hz := sized_of_check hs
  simp only [invCheck, Bool.and_eq_true, Bool.or_eq_true, decide_eq_true_eq, Bool.not_eq_true',
    List.all_eq_true] at h
  obtain ⟨⟨⟨⟨⟨⟨⟨⟨⟨⟨⟨⟨⟨⟨⟨⟨h1, h2⟩, h3⟩, h4⟩, h5⟩, h6⟩, h7⟩, h8⟩, h9⟩, h10⟩, h11⟩, h12⟩, h13⟩, h14⟩, h15⟩,
    h16⟩, h17⟩ := h
  exact
    { freq := ⟨h1, h2⟩, width := ⟨h3, h4⟩, gain := ⟨h5, h6⟩
      sized := fun _ => hz
      unsized := fun q => absurd hz.rateLow (by rw [q]; decide)
      phase := h7
      trans := fun q => h8.resolve_left (by simp [q])
      idle := fun q => h9.resolve_left (by simp [q])
      cnt := h10, maxblk := h11, buf := h12
      words := fun c hc => ⟨(h13 c hc).1.1, (h13 c hc).1.2, (h13 c hc).2⟩
      outputs := h14, last := h15, cause := h16
      capture := fun q => h17.resolve_left (by simp [q]) }

theorem demo_inv : Inv demo.toEngine :=
  inv_of_check (by decide +kernel) (by decide +kernel)

/-- Every buffer word of `demo` is +0. -/
theorem demo_words (i : Nat) : bufWord demo.toEngine i = 0#32 := by
  rw [bufWord, show demo.buf = [] by decide +kernel]
  rfl

theorem sorted_of_check {e : Engine F32}
    (h : (decide (e.buf.Pairwise (fun x y => x.1 < y.1)) && e.buf.all (fun c => decide (c.2 ≠ 0#32))) = true) :
    bufSorted e := by
  simp only [Bool.and_eq_true, decide_eq_true_eq, List.all_eq_true] at h
  exact ⟨h.1, h.2⟩

theorem moving_inv : Inv moving.toEngine :=
  inv_of_check (by decide +kernel) (by decide +kernel)

theorem ending_inv : Inv ending.toEngine :=
  inv_of_check (by decide +kernel) (by decide +kernel)

/-- A prepared engine under REAL, at rest. -/
noncomputable def real : Engine ℝ :=
  { Engine.reset Reals.config with
    sr := 80#32, cap := 48#32, tlen := 16#32
    sfreq := 2, swidth := 1 / 125, sgain := 1, aw := 1 / 125, pw := 1 / 125
    status := { prepared := true, trans := false, last := 0#4, cfgCause := 0#4, sticky := false } }

/-- A PROCESS of that engine, with other raw parameters, completes. -/
theorem real_process (bits : F32) (x y : ℝ) :
    ∃ r, process Reals.config bits (encode (.process bits)) { real with width := x, gain := y } = .ok r :=
  Reals.process_completes bits _ rfl (show 0 < 48 by decide) (show 0 < 16 by decide) (fun h => by cases h)

/-- The same engine with its raw width and gain at the ends of their ranges meets the invariant. -/
theorem real_inv : RealInv { real with width := 2 / 5, gain := 10 } where
  freq := by norm_num [Legal.real, real, Engine.reset, Params.vibcore]
  width := by norm_num [Legal.real]
  gain := by norm_num [Legal.real]
  sized := fun _ =>
    { rateLow := by decide, rateHigh := by decide, cap := by decide, tlen := by decide, wcur := by decide
      sfreq := by norm_num [Legal.real, real]
      swidth := by norm_num [Legal.real, real]
      sgain := by norm_num [Legal.real, real]
      aw := by norm_num [Legal.real, real]
      pw := by norm_num [Legal.real, real] }
  unsized := fun h => absurd (congrArg BitVec.toNat h) (by decide)
  phase := by norm_num [Legal.real, real, Engine.reset]
  trans := fun h => by cases h
  idle := fun _ => rfl
  cnt := Nat.zero_le _
  maxblk := by decide
  buf := List.Pairwise.nil
  words := fun _ h => by cases h
  outputs := rfl
  last := by decide
  cause := by decide
  capture := fun _ => ⟨rfl, rfl⟩

/-! ### Witnesses: for each obligation, inputs that meet all its hypotheses -/

/-- The decoding of the words that the witnesses run. -/
theorem test_words :
    decode (encode (.process 0x3F800000#32)) = .instr (.process 0x3F800000#32) ∧
    decode (encode (.process 0x00000000#32)) = .instr (.process 0x00000000#32) ∧
    decode (encode (.process 0x7FC00000#32)) = .instr (.process 0x7FC00000#32) ∧
    decode (encode (.setgain 0x3F800000#32)) = .instr (.setgain 0x3F800000#32) := by decide

theorem witness_DecodeOfEncode :
    (Instr.prepare 0xFFFFFFFF#32 0xFFFFFF#24).wellFormed = true ∧ (Instr.setgain 0#32).wellFormed = true := by decide

theorem witness_EncodeOfDecode :
    decode 0x01FFFFFFFFFFFFFF#64 = .instr (.prepare 0xFFFFFFFF#32 0xFFFFFF#24) := by decide

theorem witness_DecodedOperandFields :
    decode 0x0100001000000050#64 = .instr (.prepare 80#32 16#24) ∧
    decode 0x02000000FFFFFFFF#64 = .instr (.process 0xFFFFFFFF#32) := by decide

theorem witness_TransportIsLittleEndian : 0 < 8 ∧ 7 < 8 ∧ 3 < 4 := by decide

theorem witness_StepRunsDecoded :
    ∃ (s : State) (w : Word) (rest : List HostEvent) (i : Instr),
      s.pending = .command w :: rest ∧ decode w = .instr i ∧ i.wellFormed = true :=
  ⟨{ demo with pending := [.command 0x020000003F800000#64, .reset] }, _, _, .process 0x3F800000#32, rfl,
    by decide, by decide⟩

theorem witness_IllegalWordOnlyReports :
    ∃ (s : State) (w : Word) (rest : List HostEvent),
      s.pending = .command w :: rest ∧ 6 ≤ w.toNat / 2 ^ 56 := ⟨{ demo with pending := [.command 0x0600000000000000#64] }, _, _, rfl, by decide⟩

theorem witness_ReservedWordOnlyReports :
    (0x0100000000000000#64 : Word).toNat / 2 ^ 56 = 1 ∧
    (0x0000000000000001#64 : Word).toNat / 2 ^ 56 = 0 ∧ (0x0000000000000001#64 : Word).toNat % 2 ^ 56 ≠ 0 ∧
    (0x0200000100000000#64 : Word).toNat / 2 ^ 56 = 2 ∧
    (0x0200000100000000#64 : Word).toNat / 2 ^ 32 % 2 ^ 24 ≠ 0 ∧
    (0x0580000000000000#64 : Word).toNat / 2 ^ 56 = 5 ∧
    (0x0580000000000000#64 : Word).toNat / 2 ^ 32 % 2 ^ 24 ≠ 0 ∧
    (State.reset.withFetchWord 64 0x0200000100000000).pending = [.command 0x0200000100000000#64] := by decide +kernel

theorem witness_HardwareResetSetsEverything :
    (∃ (s : State) (rest : List HostEvent), s.pending = .reset :: rest) ∧
    ∃ t, step { after demo [0x0700000000000000#64] with pending := [.command 0#64] } = .next t ∧
      ((after demo [0x0700000000000000#64]).status.sticky && t.status.sticky) = true :=
  ⟨⟨{ moving with pending := [.reset, .command 0#64] }, _, rfl⟩, exists_next (by decide +kernel)⟩

theorem witness_ReadPortMap :
    0x16 ≤ (0x16#8 : BitVec 8).toNat ∧ 0x16 ≤ (0xFF#8 : BitVec 8).toNat := by decide

theorem witness_EveryCommandReports :
    (∃ t, step { demo with pending := [.command 0x0700000000000000#64] } = .next t ∧
      (!demo.status.sticky && decide (2 ≤ t.status.last.toNat)) = true) ∧
    (∃ t, step { demo with pending := [.command 0x0300000041C80000#64] } = .next t ∧
      decide (t.status.last.toNat < 2) = true) := ⟨exists_next (by decide +kernel), exists_next (by decide +kernel)⟩

theorem witness_ResultCodePriority :
    (∃ t, step { demo with pending := [.command 0x020000007F800000#64] } = .next t ∧
      decide (t.status.last = 7#4) = true) ∧
    (∃ t, step { State.reset with pending := [.command 0x020000007F800000#64] } = .next t ∧
      decide (t.status.last = 4#4) = true) ∧
    (∃ t, step { demo with pending := [.command 0x0300000041A00000#64] } = .next t ∧
      decide (t.status.last = 0#4) = true) ∧
    (∃ t, step { demo with pending := [.command 0x0300000041A00001#64] } = .next t ∧
      decide (t.status.last = 1#4) = true) :=
  ⟨exists_next (by decide +kernel), exists_next (by decide +kernel), exists_next (by decide +kernel),
    exists_next (by decide +kernel)⟩

theorem witness_ErrorsAreCompleteOrNothing :
    (∃ t, step { moving with pending := [.command 0x0400000100000000#64] } = .next t ∧
      decide (2 ≤ t.status.last.toNat ∧ t.status.last ≠ 7#4 ∧ t.status.last ≠ 5#4) = true) ∧
    (∃ t, step { moving with pending := [.command 0x0100000000000028#64] } = .next t ∧
      decide (t.status.last = 5#4) = true) := ⟨exists_next (by decide +kernel), exists_next (by decide +kernel)⟩

theorem witness_NopOnlyReports :
    (0x0080000000000000#64 : Word).toNat / 2 ^ 56 = 0 ∧
    (0x0080000000000000#64 : Word).toNat % 2 ^ 56 ≠ 0 := by decide

theorem witness_PrepareAccepted :
    41 ≤ (41#32 : BitVec 32).toNat ∧ (218453#32 : BitVec 32).toNat ≤ 218453 := by decide

theorem witness_PrepareRejected :
    (40#32 : BitVec 32).toNat < 41 ∧ 218453 < (218454#32 : BitVec 32).toNat ∧
    ∃ t, exec (.prepare 40#32 0#24) demo = .next t ∧ decide (t.status.last = 5#4) = true :=
  ⟨by decide, by decide, exists_next (by decide +kernel)⟩

theorem witness_SizesAreExact :
    Params.vibcore.wellFormed = true := by decide

theorem witness_BlockSizeIsInert :
    (∃ t, exec (.prepare 80#32 16#24) moving = .next t ∧ decide (t.cap = 48#32) = true) ∧
    (∃ t, exec (.process 0x3F800000#32) moving = .next t ∧ decide (t.wcur = 2#32) = true) := ⟨exists_next (by decide +kernel), exists_next (by decide +kernel)⟩

theorem witness_SettersClampAndReport :
    Binary32.isFinite 0x7F800000#32 = false ∧ Binary32.isFinite 0x41A00000#32 = true ∧
    Binary32.units 0x41A00000#32 ≤ Binary32.units 0x41A00000#32 ∧
    Binary32.units 0x41A00000#32 < Binary32.units 0x41A00001#32 ∧
    Binary32.units 0x3C23D709#32 < Binary32.units 0x3C23D70A#32 := by decide +kernel

theorem witness_ProcessUnprepared :
    State.reset.status.prepared = false ∧
    ∃ t, exec (.prepare 40#32 0#24) demo = .next t ∧ decide (t.status.last = 5#4) = true := ⟨rfl, exists_next (by decide +kernel)⟩

/-- A read that answers. -/
theorem exists_ok {r : Except Fault F32} (h : r.isOk = true) : ∃ y, r = .ok y := by
  cases r with
  | ok y => exact ⟨y, rfl⟩
  | error f => cases h

theorem witness_ProcessIdleStep :
    demo.status.prepared = true ∧ demo.status.trans = false ∧
    numEq demo.config (smooth demo.config demo.width demo.swidth) demo.aw = true ∧
    demo.wcur.toNat < demo.cap.toNat ∧ ∃ y, sample demo.config demo.toEngine demo.aw = .ok y :=
  ⟨by decide +kernel, by decide +kernel, by decide +kernel, by decide +kernel,
    exists_ok (by decide +kernel)⟩

/-- `demo` with a new raw width, so that the next PROCESS fires the trigger. -/
def turned : State := after demo [0x040000003E000000#64]

theorem witness_ProcessTriggerStep :
    turned.status.prepared = true ∧ turned.status.trans = false ∧
    numEq turned.config (smooth turned.config turned.width turned.swidth) turned.aw = false ∧
    turned.wcur.toNat < turned.cap.toNat ∧ 1 ≤ turned.tlen.toNat ∧
    (∃ y, sample turned.config turned.toEngine turned.aw = .ok y) ∧
    ∃ y, sample turned.config turned.toEngine (smooth turned.config turned.width turned.swidth) = .ok y :=
  ⟨by decide +kernel, by decide +kernel, by decide +kernel, by decide +kernel, by decide +kernel,
    exists_ok (by decide +kernel), exists_ok (by decide +kernel)⟩

theorem witness_ProcessTransitionStep :
    ending.status.prepared = true ∧ ending.status.trans = true ∧
    ending.wcur.toNat < ending.cap.toNat ∧ ending.cnt.toNat < ending.tlen.toNat ∧
    (∃ y, sample ending.config ending.toEngine ending.pw = .ok y) ∧
    ∃ y, sample ending.config ending.toEngine ending.aw = .ok y :=
  ⟨by decide +kernel, by decide +kernel, by decide +kernel, by decide +kernel,
    exists_ok (by decide +kernel), exists_ok (by decide +kernel)⟩

theorem witness_ProcessCompletes :
    Inv demo.toEngine ∧ demo.status.prepared = true := ⟨demo_inv, by decide +kernel⟩

theorem witness_ProcessFrame :
    (∃ t, exec (.process 0x3F800000#32) moving = .next t ∧
      (moving.status.trans && t.status.trans) = true) ∧
    (∃ t, exec (.process 0x3F800000#32) demo = .next t ∧ (!t.status.trans) = true) ∧
    bufSorted moving.toEngine :=
  ⟨exists_next (by decide +kernel), exists_next (by decide +kernel), sorted_of_check (by decide +kernel)⟩

theorem witness_OutputsStayEqual :
    moving.outR = moving.outL ∧ ∃ t, step { moving with pending := [.command 0#64] } = .next t ∧
      decide (t.status.last = 0#4) = true := ⟨by decide +kernel, exists_next (by decide +kernel)⟩

theorem witness_BufferReadAfterWrite :
    bufSorted demo.toEngine ∧ (0 : ℤ) < regInt demo.cap ∧ (47 : ℤ) < regInt demo.cap ∧
    regInt demo.cap ≤ (48 : ℤ) ∧ (-1 : ℤ) < 0 := ⟨sorted_of_check (by decide +kernel), by decide +kernel⟩


theorem witness_WraparoundLaw :
    Inv demo.toEngine ∧ demo.status.prepared = true ∧ demo.wcur = 0#32 ∧
    (∀ i, i < demo.cap.toNat → bufWord demo.toEngine i = 0#32) ∧
    (∀ w ∈ [encode (.process 0x3F800000#32), encode (.setgain 0x3F800000#32)], notPrepare w) ∧
    ∃ t, runEvents (commandEvents [encode (.process 0x3F800000#32), encode (.setgain 0x3F800000#32)]) demo
      = .next t ∧ decide (t.cap = 48#32) = true :=
  ⟨demo_inv, by decide +kernel, by decide +kernel,
    fun i _ => demo_words i,
    by simp [notPrepare, test_words], exists_next (by decide +kernel)⟩

theorem witness_UnreadableBufferIsUnobservable :
    (∃ t : State, t ≠ State.reset ∧ SameReadable State.reset t) ∧
    (∃ t : State, t ≠ demo ∧ SameReadable demo t) ∧
    ∃ t, step demo = .next t ∧ decide (t = demo) = true :=
  ⟨⟨{ State.reset with buf := [(5, 0x3F800000#32)] }, by decide +kernel,
      rfl, sorted_of_check (by decide +kernel), sorted_of_check (by decide +kernel), fun h => by cases h⟩,
    ⟨{ demo with buf := [(48, 0x3F800000#32)] }, by decide +kernel,
      rfl, sorted_of_check (by decide +kernel), sorted_of_check (by decide +kernel), fun _ i hi => by
        rw [show demo.cap.toNat = 48 by decide +kernel] at hi
        simp only [bufWord, show demo.buf = [] by decide +kernel, bufLookup]
        rw [if_neg (by omega)]⟩,
    exists_next (by decide +kernel)⟩

theorem witness_StepKeepsInvariant :
    (Inv moving.toEngine ∧
      ∃ t, step { moving with pending := [.command 0x020000003F800000#64] } = .next t ∧
        decide (t.cnt = 2#32) = true) ∧
    ∃ (e r : Engine ℝ), RealInv e ∧
      runWord Reals.config (encode (.process 0x3F800000#32)) e = .ok r := by
  obtain ⟨r, h⟩ := real_process 0x3F800000#32 (2 / 5) 10
  refine ⟨⟨moving_inv, exists_next (by decide +kernel)⟩, _, r, real_inv, ?_⟩
  rw [runWord, test_words.1]
  exact h

theorem witness_StepNeverStops :
    Inv moving.toEngine ∧ ∃ e : Engine ℝ, RealInv e := ⟨moving_inv, _, real_inv⟩

theorem witness_ReachableStatesInRange :
    ∃ t, runEvents (commandEvents [encode (.prepare 41#32 0#24), encode (.process 0x3F800000#32)]) State.reset
      = .next t ∧ (t.status.prepared && decide (t.cap = 25#32 ∧ t.tlen = 8#32)) = true := exists_next (by decide +kernel)

theorem witness_TransitionLength :
    (Inv moving.toEngine ∧ moving.status.prepared = true ∧ moving.status.trans = true ∧
      (∀ w ∈ [encode (.process 0x3F800000#32)], notPrepare w) ∧
      moving.cnt.toNat + (processOperands [encode (.process 0x3F800000#32)]).length < moving.tlen.toNat ∧
      ∃ t, runEvents (commandEvents [encode (.process 0x3F800000#32)]) moving = .next t ∧
        t.status.trans = true) ∧
    (Inv ending.toEngine ∧ ending.status.prepared = true ∧ ending.status.trans = true ∧
      ending.cnt.toNat + (processOperands [encode (.process 0x3F800000#32)]).length = ending.tlen.toNat ∧
      ∃ t, runEvents (commandEvents [encode (.process 0x3F800000#32)]) ending = .next t ∧
        (!t.status.trans) = true) :=
  ⟨⟨moving_inv, by decide +kernel, by decide +kernel, by simp [notPrepare, test_words], by decide +kernel,
      exists_next (by decide +kernel)⟩,
    ending_inv, by decide +kernel, by decide +kernel, by decide +kernel, exists_next (by decide +kernel)⟩

theorem witness_SilenceInSilenceOut :
    Inv demo.toEngine ∧ demo.status.prepared = true ∧
    (∀ i, i < demo.cap.toNat → isZero (bufWord demo.toEngine i)) ∧ isZero demo.outL ∧
    (∀ w ∈ [encode (.process 0x00000000#32), encode (.process 0x7FC00000#32)], notPrepare w) ∧
    (∀ b ∈ processOperands [encode (.process 0x00000000#32), encode (.process 0x7FC00000#32)],
      isZero b ∨ Binary32.isFinite b = false) ∧
    ∃ t, runEvents (commandEvents [encode (.process 0x00000000#32), encode (.process 0x7FC00000#32)]) demo
      = .next t ∧ decide (t.status.last = 7#4) = true :=
  ⟨demo_inv, by decide +kernel,
    fun i _ => by rw [demo_words]; unfold isZero; decide +kernel,
    by unfold isZero; decide +kernel, by simp [notPrepare, test_words],
    by simp [processOperands, test_words, isZero, Binary32.magBits, Binary32.isFinite, Binary32.infMag],
    exists_next (by decide +kernel)⟩

theorem witness_MergeOrderKeepsBuffer :
    Inv demo.toEngine ∧
    (∀ i ∈ [Instr.process 0x3F800000#32], ∃ b, i = .process b) ∧
    (∀ i ∈ [Instr.setgain 0x3F800000#32], isSetter i = true) ∧
    Merge ([Instr.process 0x3F800000#32].map encode) ([Instr.setgain 0x3F800000#32].map encode)
      [encode (.process 0x3F800000#32), encode (.setgain 0x3F800000#32)] ∧
    Merge ([Instr.process 0x3F800000#32].map encode) ([Instr.setgain 0x3F800000#32].map encode)
      [encode (.setgain 0x3F800000#32), encode (.process 0x3F800000#32)] ∧
    (∃ t, runEvents (commandEvents [encode (.process 0x3F800000#32), encode (.setgain 0x3F800000#32)]) demo
      = .next t ∧ decide (t.wcur = 1#32) = true) ∧
    ∃ t, runEvents (commandEvents [encode (.setgain 0x3F800000#32), encode (.process 0x3F800000#32)]) demo
      = .next t ∧ decide (t.wcur = 1#32) = true :=
  ⟨demo_inv, by simp, by simp [isSetter], .left _ (.right _ .nil), .right _ (.left _ .nil),
    exists_next (by decide +kernel), exists_next (by decide +kernel)⟩

theorem witness_StepIsReferenceCommand :
    ∃ (s : State) (w : Word) (rest : List HostEvent) (e : Engine F32),
      s.pending = .command w :: rest ∧ runWord s.config w s.toEngine = .ok e :=
  ⟨{ demo with pending := [.command (encode .nop)] }, _, _, _, rfl, rfl⟩

theorem witness_RoundingIsNearestEven :
    0 < 1 ∧ Binary32.roundMag 16777217 1 < Binary32.infMag ∧
    Binary32.roundMag (2 ^ 278) 1 = Binary32.infMag := by decide +kernel

theorem witness_OperationsRoundOnce :
    Binary32.isFinite 0x3F800000#32 = true ∧ Binary32.isFinite 0x40400000#32 = true ∧
    Reals.ofBits 0x40400000#32 ≠ 0 ∧ 0 ≤ Reals.ofBits 0x40400000#32 := by
  have h : Reals.ofBits 0x40400000#32 = 3 := by
    unfold Reals.ofBits
    rw [show Binary32.units 0x40400000#32 = 3 * 2 ^ 149 by decide +kernel]
    norm_num
  exact ⟨by decide, by decide, by rw [h]; norm_num, by rw [h]; norm_num⟩

/-- Values on both sides of RoundedOnce's middle, and one on it. -/
theorem witness_RoundedOnce : |(2 : ℝ) ^ 127| < 2 ^ 128 - 2 ^ 103 ∧
    (2 : ℝ) ^ 128 - 2 ^ 103 ≤ 2 ^ 128 - 2 ^ 103 ∧ -((2 : ℝ) ^ 128) ≤ -(2 ^ 128 - 2 ^ 103) := by norm_num

theorem witness_ZeroResultSigns :
    Binary32.signBit 0x3F800000#32 ≠ Binary32.signBit 0xBF800000#32 ∧
    Binary32.units 0x3F800000#32 + Binary32.units 0xBF800000#32 = 0 ∧
    Binary32.units 0x80000000#32 * Binary32.units 0x3F800000#32 = 0 ∧
    Binary32.units 0x80000000#32 = 0 ∧ Binary32.units 0x3F800000#32 ≠ 0 := by decide +kernel

theorem witness_SineProperties :
    Binary32.inUnit 0x00000000#32 = true ∧ Binary32.inUnit 0x3F7FFFFF#32 = true ∧
    Binary32.inUnit 0x3F800000#32 = false := by decide +kernel

theorem witness_BadConfigurationRefused :
    { Params.vibcore with guard := 2 }.wellFormed = false ∧ Params.vibcore.wellFormed = true := by decide

theorem witness_ModfRange :
    Binary32.isFinite 0xBF000000#32 = true ∧ Binary32.isFinite 0x42BF0000#32 = true ∧
    0 ≤ Binary32.units 0x42BF0000#32 ∧ Binary32.units 0x42BF0000#32 < 2 * 48 * 2 ^ 149 ∧
    ramp.wcur = 0#32 ∧ 1 ≤ ramp.cap.toNat ∧
    { ramp with wcur := 10#32 }.wcur = 10#32 ∧ ramp.sr = 80#32 ∧ ramp.cap = 48#32 := by decide +kernel

/-- Both ranges of the read position under REAL: WCUR 0 and delay 0 give 45, WCUR 47 gives 92. -/
theorem witness_ModfRange_real :
    ((0 : ℝ) ≤ 0 - 0 * 80 + 48 - 3 ∧ (0 : ℝ) - 0 * 80 + 48 - 3 < 48) ∧
    ((48 : ℝ) ≤ 47 - 0 * 80 + 48 - 3 ∧ (47 : ℝ) - 0 * 80 + 48 - 3 < 2 * 48) := by norm_num

theorem witness_DelayBound :
    Binary32.inUnit 0x3F400000#32 = true ∧ Binary32.isFinite 0x3ECCCCCD#32 = true ∧
    0 ≤ Binary32.units 0x3ECCCCCD#32 ∧ widthOk 0x3A03126F#32 ∧ widthOk 0x3ECCCCCD#32 :=
  ⟨by decide, by decide, by decide, ⟨by decide +kernel, by decide +kernel⟩,
    by decide +kernel, by decide +kernel⟩

theorem witness_TapConfigurations :
    6 ≤ (48#32 : Reg).toNat ∧ (47 : ℤ) < regInt 48#32 ∧ (45 : ℤ) ≤ regInt 48#32 - 3 ∧
    (46 : ℤ) = regInt 48#32 - 2 ∧ (47 : ℤ) = regInt 48#32 - 1 ∧ 6 ≤ (6#32 : Reg).toNat ∧
    Binary32.floor 0x423A0000#32 = some 46 ∧ Binary32.floor 0x00000000#32 = some 0 := by decide +kernel

/-- A position whose four taps can be read. -/
theorem witness_TapConfigurations_taps : Binary32.floor 0x423E0000#32 = some 47 ∧
    (∃ y, bufRead (Binary32.config 0#32) ramp (circular ramp.cap (47 - 1)) = .ok y) ∧
    (∃ y, bufRead (Binary32.config 0#32) ramp 47 = .ok y) ∧
    (∃ y, bufRead (Binary32.config 0#32) ramp (circular ramp.cap (47 + 1)) = .ok y) ∧
    (∃ y, bufRead (Binary32.config 0#32) ramp (circular ramp.cap (47 + 2)) = .ok y) :=
  ⟨by decide +kernel, exists_ok (by decide +kernel), exists_ok (by decide +kernel),
    exists_ok (by decide +kernel), exists_ok (by decide +kernel)⟩

theorem witness_InterpolationIdentity :
    (Binary32.floor 0x423C0000#32 = some 47 ∧ Binary32.units 0x423C0000#32 = 47 * 2 ^ 149 ∧
      (∀ k, Binary32.isFinite (bufWord demo.toEngine k) = true) ∧
      bufRead (Binary32.config 0#32) demo.toEngine 47 = .ok 0#32 ∧ |Binary32.units 0#32| < 2 ^ 276 ∧
      ∃ y, interp (Binary32.config 0#32) demo.toEngine 0x423C0000#32 = .ok y) ∧
    ∃ (e : Engine ℝ) (y s1 : ℝ), bufRead Reals.config e ((3 : ℤ)) = .ok s1 ∧
      interp Reals.config e ((3 : ℤ) : ℝ) = .ok y :=
  ⟨⟨by decide +kernel, by decide +kernel,
      fun k => by rw [demo_words]; decide +kernel,
      by rw [bufRead_eq_ok]; exact ⟨by decide +kernel, by decide +kernel⟩, by decide +kernel,
      exists_ok (by decide +kernel)⟩,
    real, _, _, bufRead_eq_ok.2 ⟨by decide +kernel, rfl⟩,
    (interp_completes (Reals.config_floor _) (by simp) (by simp [real, regInt])).choose_spec⟩

theorem witness_CubicWeightLaws :
    (0 : ℝ) ≤ 0 ∧ (0 : ℝ) < 1 ∧ |(1 : ℝ)| ≤ 1 ∧ |(-1 : ℝ)| ≤ 1 := by norm_num

theorem witness_TapsStayBehindCursor :
    Inv demo.toEngine ∧ demo.status.prepared = true ∧ Binary32.isFinite 0x3ECCCCCD#32 = true ∧
    0 ≤ Binary32.units 0x3ECCCCCD#32 ∧ Binary32.units 0x00000000#32 ≤ Binary32.units 0x3ECCCCCD#32 := ⟨demo_inv, by decide +kernel, by decide, by decide, by decide⟩

theorem witness_SmootherRealLaws :
    (0 : ℝ) ≤ 1 ∧ (1 : ℝ) ≠ 0 := by norm_num

theorem witness_SmootherF32Laws :
    Binary32.isFinite 0x3F800000#32 = true ∧ Binary32.isFinite 0x40000000#32 = true ∧
    Binary32.units 0x3F800000#32 ≤ Binary32.units 0x40000000#32 := by decide +kernel

theorem witness_WeightsLaws :
    2 ^ 24 - 1 < 2 ^ 24 ∧ 0 < 1 ∧ 1 ≤ 2 ^ 24 := by norm_num

theorem witness_CrossfadeLaws :
    1 ≤ 2 ^ 24 ∧ Binary32.isFinite 0x3F800000#32 = true ∧ Binary32.isFinite 0xBF800000#32 = true ∧ 15 < 16 := by decide

theorem witness_NaNReachesOnlyOutputs :
    Inv demo.toEngine ∧ Binary32.isNaN 0x7FC00000#32 = true ∧ Binary32.isNaN 0xFF800001#32 = true ∧
    (process (Binary32.config 0x7FC00000#32) 0x3F800000#32 (encode (.process 0x3F800000#32))
      demo.toEngine).isOk = true := ⟨demo_inv, by decide, by decide, by decide +kernel⟩

theorem witness_OutputFinite :
    Inv demo.toEngine ∧ demo.status.prepared = true ∧
    (∀ i, |Binary32.units (bufWord demo.toEngine i)| ≤ 2 ^ 249) ∧
    ∃ t, exec (.process 0x3F800000#32) demo = .next t ∧ decide (t.wcur = 1#32) = true :=
  ⟨demo_inv, by decide +kernel,
    fun i => by rw [demo_words]; decide +kernel,
    exists_next (by decide +kernel)⟩

theorem witness_RealOutputBound :
    ∃ (e r : Engine ℝ), e.status.prepared = true ∧ (0 : ℝ) ≤ 1 ∧
      (∀ i, |bufLookup 0 e.buf i| ≤ 1) ∧ 0 ≤ e.gain ∧ 0 ≤ e.sgain ∧
      process Reals.config 0x3F800000#32 (encode (.process 0x3F800000#32)) e = .ok r := by
  obtain ⟨r, h⟩ := real_process 0x3F800000#32 1 1
  exact ⟨{ real with width := 1, gain := 1 }, r, rfl, by norm_num,
    fun i => by simp [real, Engine.reset, bufLookup], by norm_num,
    by simp [real, Engine.reset], h⟩

theorem witness_GlidingNeverSettles :
    ∃ (e r : Engine ℝ), e.status.prepared = true ∧ Gliding e ∧ e.status.trans = false ∧
      e.swidth = e.aw ∧ e.width ≠ e.aw ∧
      process Reals.config 0x3F800000#32 (encode (.process 0x3F800000#32)) e = .ok r := by
  obtain ⟨r, h⟩ := real_process 0x3F800000#32 1 1
  exact ⟨{ real with width := 1, gain := 1 }, r, rfl, by norm_num [Gliding, real, Engine.reset],
    rfl, rfl, by norm_num [real, Engine.reset], h⟩

theorem witness_SettersTakeEffectGeometrically :
    ∃ (e r : Engine ℝ), e.status.prepared = true ∧
      runWords Reals.config (blockWords [0x3F800000#32]) e = .ok r := by
  obtain ⟨r, h⟩ := real_process 0x3F800000#32 1 1
  refine ⟨{ real with width := 1, gain := 1 }, r, rfl, ?_⟩
  rw [blockWords, List.map, List.map, runWords, runWord, test_words.1]
  simp only [runInstr, h]
  rfl

end Sys2Proof.Tests
end

/-! SUPPORT. The machine's step as the reference semantics of the command word, and what an instruction
does on the machine as its meaning on the engine's record. Settles O8 and O40. -/

section
namespace Sys2Proof.Machine

/-- No bit of a decodable word is ignored, so a command's word is rebuilt from its operands (R81 to R83,
R89, log 9). -/
theorem encode_of_decode {w : Word} {i : Instr} (h : decode w = .instr i) : encode i = w := by
  have hw := packWord_fields w
  unfold decode at h
  split_ifs at h with hlegal h0 hrest h1 hmid h2 h3 h4 <;> injection h with h <;> subst h
  case neg =>
    obtain ⟨hmid, hlow⟩ := (restField_eq_zero_iff w).1 (not_not.1 hrest)
    rw [h0, hmid, hlow] at hw
    exact hw
  case pos => rw [h1] at hw; exact hw
  all_goals rw [not_not.1 hmid] at hw
  · rw [h2] at hw; exact hw
  · rw [h3] at hw; exact hw
  · rw [h4] at hw; exact hw
  · rw [show opcField w = 0x05#8 by bv_omega] at hw; exact hw

/-- The machine's meaning of an instruction is its meaning on the engine's record, under the state's
configuration and for the instruction's own word; of the model's own fields it touches at most the count of
free NaN values. -/
theorem exec_eq_withEngine (i : Instr) (s : State) :
    ∃ n, exec i s =
      State.withEngine { s with nanTick := n } (runInstr s.config i (encode i) s.toEngine) := by
  cases i with
  | process bits => exact ⟨nextTick s, rfl⟩
  | nop => exact ⟨s.nanTick, rfl⟩
  | prepare sr blk => exact ⟨s.nanTick, rfl⟩
  | setfreq bits => exact ⟨s.nanTick, rfl⟩
  | setwidth bits => exact ⟨s.nanTick, rfl⟩
  | setgain bits => exact ⟨s.nanTick, rfl⟩

/-- The step on a command word is the outcome of that word's reference semantics under the state's
configuration, whether the word is a command or not. -/
theorem step_eq_withEngine_runWord {s : State} {w : Word} {rest : List HostEvent}
    (h : s.pending = .command w :: rest) :
    ∃ n, step s =
      State.withEngine { s with pending := rest, nanTick := n } (runWord s.config w s.toEngine) := by
  rw [step_word h]
  unfold runWord
  cases hd : decode w with
  | illegal => exact ⟨s.nanTick, rfl⟩
  | reserved => exact ⟨s.nanTick, rfl⟩
  | instr i =>
    obtain ⟨n, hn⟩ := exec_eq_withEngine i { s with pending := rest }
    rw [encode_of_decode hd] at hn
    exact ⟨n, hn⟩

/-- Settles O8: `step_word` at a word that decodes to `i`. -/
theorem stepRunsDecoded : Obligations.StepRunsDecoded := by
  intro s w rest i hp hd _
  rw [step_word hp, hd]

/-- Settles O40, from the step on a word as the outcome of its reference semantics. -/
theorem stepIsReferenceCommand : Obligations.StepIsReferenceCommand := by
  intro s w rest hp
  obtain ⟨n, hn⟩ := step_eq_withEngine_runWord hp
  constructor
  · intro e he
    rw [he] at hn
    exact ⟨n, hn⟩
  · intro f hf
    rw [hf] at hn
    exact hn

end Sys2Proof.Machine
end

/-! SUPPORT. The parameters' well-formedness as the order of rational values. Settles O45. -/

section
namespace Sys2Proof

open Sys2Proof.Machine

theorem Ratio.le_iff_ratio_le {p q : Ratio} (hp : 0 < p.den) (hq : 0 < q.den) :
    p.le q = true ↔ ratio p ≤ ratio q := by
  unfold Ratio.le ratio
  rw [decide_eq_true_iff, div_le_div_iff₀ (by exact_mod_cast hp) (by exact_mod_cast hq)]
  exact_mod_cast Iff.rfl

theorem Ratio.lt_one_iff {p : Ratio} (hp : 0 < p.den) : p.lt ⟨1, 1⟩ = true ↔ ratio p < 1 := by
  unfold Ratio.lt ratio
  rw [decide_eq_true_iff, div_lt_one (by exact_mod_cast hp), mul_one, one_mul, Nat.cast_lt]

theorem Ratio.positive_iff {p : Ratio} (hp : 0 < p.den) : p.positive = true ↔ 0 < ratio p := by
  have hden : (0 : ℚ) < p.den := by exact_mod_cast hp
  unfold Ratio.positive Ratio.wellFormed ratio
  rw [div_pos_iff_of_pos_right hden, Nat.cast_pos]
  simp [hp]

/-- The fractions among the parameters. -/
def Params.ratios (P : Params) : List Ratio :=
  [P.maxWidth, P.capFactor, P.k, P.transTime, P.freqMin, P.freqMax, P.widthMin, P.gainMin,
    P.gainMax, P.defFreq, P.defWidth, P.defGain]

theorem Params.den_pos_of_wellFormed {P : Params} (h : P.wellFormed = true) :
    ∀ q ∈ P.ratios, 0 < q.den := by
  simp only [Params.wellFormed, Params.constantsOk, Ratio.positive, Ratio.wellFormed, Bool.and_eq_true,
    decide_eq_true_eq] at h
  simp only [Params.ratios, List.forall_mem_cons, List.not_mem_nil, false_implies, implies_true]
  tauto

/-- On fractions that have a denominator, the model's cross-multiplied comparisons are those of R6 on the
rational values. -/
theorem Params.wellFormed_iff_of_den_pos {P : Params} (hden : ∀ q ∈ P.ratios, 0 < q.den) :
    P.wellFormed = true ↔
      3 ≤ P.guard ∧ ratio P.k < 1 ∧
      0 < ratio P.maxWidth ∧ 0 < ratio P.transTime ∧ 0 < ratio P.capFactor ∧ 0 < ratio P.freqMin ∧
      0 < ratio P.freqMax ∧ 0 < ratio P.widthMin ∧
      ratio P.freqMin ≤ ratio P.freqMax ∧ ratio P.widthMin ≤ ratio P.maxWidth ∧
      ratio P.gainMin ≤ ratio P.gainMax ∧
      ratio P.freqMin ≤ ratio P.defFreq ∧ ratio P.defFreq ≤ ratio P.freqMax ∧
      ratio P.widthMin ≤ ratio P.defWidth ∧ ratio P.defWidth ≤ ratio P.maxWidth ∧
      ratio P.gainMin ≤ ratio P.defGain ∧ ratio P.defGain ≤ ratio P.gainMax ∧
      1 ≤ P.maxCapacity ∧ P.maxCapacity ≤ 2 ^ 20 ∧ P.srMax ≤ 2 ^ 24 := by
  simp only [Params.ratios, List.forall_mem_cons, List.not_mem_nil, false_implies, implies_true] at hden
  obtain ⟨hmw, hcf, hk, htt, hfl, hfh, hwl, hgl, hgh, hdf, hdw, hdg, -⟩ := hden
  simp only [Params.wellFormed, Params.constantsOk, Params.rangesOk, Params.defaultsOk, Params.limitsOk,
    Bool.and_eq_true, Ratio.wellFormed, decide_eq_true_eq, Ratio.lt_one_iff hk,
    Ratio.positive_iff hmw, Ratio.positive_iff htt, Ratio.positive_iff hcf, Ratio.positive_iff hfl,
    Ratio.positive_iff hfh, Ratio.positive_iff hwl, Ratio.le_iff_ratio_le hfl hfh,
    Ratio.le_iff_ratio_le hwl hmw, Ratio.le_iff_ratio_le hgl hgh, Ratio.le_iff_ratio_le hfl hdf,
    Ratio.le_iff_ratio_le hdf hfh, Ratio.le_iff_ratio_le hwl hdw, Ratio.le_iff_ratio_le hdw hmw,
    Ratio.le_iff_ratio_le hgl hdg, Ratio.le_iff_ratio_le hdg hgh]
  tauto

theorem build_of_wellFormed {N : Type} (A : Arith N) {P : Params} (h : P.wellFormed = true) :
    build A P = .ok { A with toParams := P, valid := h } := dif_pos h

theorem build_of_not_wellFormed {N : Type} (A : Arith N) {P : Params} (h : P.wellFormed = false) :
    build A P = .error .configuration := dif_neg (by rw [h]; decide)

/-- Settles O45: `build` tests well-formedness, which is R6's conjunction on the rational values. -/
theorem badConfigurationRefused : Obligations.BadConfigurationRefused := by
  refine ⟨fun N A P h => build_of_not_wellFormed A h,
    fun N A P h => ⟨_, build_of_wellFormed A h, rfl, rfl⟩, fun P => ?_,
    fun nan => build_of_wellFormed _ (by decide), build_of_wellFormed _ (by decide),
    fun N C => C.valid⟩
  constructor
  · intro h
    have hden := Params.den_pos_of_wellFormed h
    exact ⟨hden, (Params.wellFormed_iff_of_den_pos hden).1 h⟩
  · rintro ⟨hden, h⟩
    exact (Params.wellFormed_iff_of_den_pos hden).2 h

end Sys2Proof
end

/-! SUPPORT. Rounding against the exact real value: what `roundMag` chooses, said of the real argument so
that it also covers a root. Settles O41, O42 and O43. -/

section
namespace Sys2Proof.Binary32

open Sys2Proof.Machine

/-! ### The pattern a non-negative real rounds to -/

/-- Twice the middle between the magnitude pattern `m` and the next one. -/
def twiceMiddle (m : ℕ) : ℕ := magUnits m + magUnits (m + 1)

/-- `r` is the magnitude pattern that the non-negative value of `q` units rounds to: for each finite pattern
`m`, `q` rounds to `m` or below exactly when it lies below the middle past `m`, or on it with `m` even. -/
def RoundsTo (q : ℝ) (r : ℕ) : Prop :=
  r ≤ infMag ∧ ∀ m < infMag, r ≤ m ↔ 2 * q < twiceMiddle m ∨ (2 * q = twiceMiddle m ∧ m % 2 = 0)

/-- The model's rounding of a fraction is the rounding of its real value. -/
theorem roundsTo_roundMag (n : ℕ) {d : ℕ} (hd : 0 < d) : RoundsTo ((n : ℝ) / d) (roundMag n d) := by
  refine ⟨roundMag_le_infMag n d, fun m hm => ?_⟩
  have hd' : (0 : ℝ) < d := by exact_mod_cast hd
  rw [roundMag_le_iff n hd hm, ← mul_div_assoc, div_lt_iff₀ hd', div_eq_iff hd'.ne', twiceMiddle]
  rw [mul_comm d]
  norm_cast

section Nearest

variable {q : ℝ} {r : ℕ}

/-- The value lies at or below the middle past its pattern, on it only where the pattern is even. -/
theorem RoundsTo.upper (h : RoundsTo q r) (hr : r < infMag) :
    2 * q < twiceMiddle r ∨ (2 * q = twiceMiddle r ∧ r % 2 = 0) := (h.2 r hr).1 le_rfl

/-- The value lies at or above the middle before its pattern, on it only where the pattern is even. -/
theorem RoundsTo.lower {p : ℕ} (h : RoundsTo q (p + 1)) :
    (twiceMiddle p : ℝ) < 2 * q ∨ (2 * q = twiceMiddle p ∧ (p + 1) % 2 = 0) := by
  have hnot := mt (h.2 p (Nat.lt_of_succ_le h.1)).2 (by omega)
  push Not at hnot
  obtain ⟨hle, hodd⟩ := hnot
  rcases hle.lt_or_eq with hlt | heq
  · exact .inl hlt
  · exact .inr ⟨heq.symm, by have := hodd heq.symm; omega⟩

/-- No other pattern is nearer, and one as near leaves the even pattern. -/
theorem RoundsTo.nearest (h : RoundsTo q r) (hr : r < infMag) (m : ℕ) :
    |q - magUnits r| ≤ |q - magUnits m| ∧
      (m ≠ r → |q - magUnits r| = |q - magUnits m| → r % 2 = 0) := by
  rcases lt_trichotomy m r with hlt | rfl | hgt
  · obtain ⟨p, rfl⟩ : ∃ p, r = p + 1 := ⟨r - 1, by omega⟩
    have hmp : (magUnits m : ℝ) ≤ magUnits p := by exact_mod_cast magUnits_le.2 (by omega)
    have hpr : (magUnits p : ℝ) < magUnits (p + 1) := by exact_mod_cast magUnits_lt_succ p
    have hmid : (twiceMiddle p : ℝ) = magUnits p + magUnits (p + 1) := by simp [twiceMiddle]
    have hlow := h.lower
    have habs : |q - magUnits m| = q - magUnits m :=
      abs_of_nonneg (by rcases hlow with h | ⟨h, -⟩ <;> linarith)
    rw [habs]
    constructor
    · rw [abs_le]; constructor <;> rcases hlow with h | ⟨h, -⟩ <;> linarith
    · intro _ heq
      rcases hlow with h | ⟨-, heven⟩
      · rcases abs_cases (q - (magUnits (p + 1) : ℝ)) with ⟨e, -⟩ | ⟨e, -⟩ <;> linarith
      · exact heven
  · exact ⟨le_rfl, fun hne => absurd rfl hne⟩
  · have hrm : (magUnits (r + 1) : ℝ) ≤ magUnits m := by exact_mod_cast magUnits_le.2 hgt
    have hrr : (magUnits r : ℝ) < magUnits (r + 1) := by exact_mod_cast magUnits_lt_succ r
    have hmid : (twiceMiddle r : ℝ) = magUnits r + magUnits (r + 1) := by simp [twiceMiddle]
    have hup := h.upper hr
    have habs : |q - magUnits m| = magUnits m - q := by
      rw [abs_sub_comm]
      exact abs_of_nonneg (by rcases hup with h | ⟨h, -⟩ <;> linarith)
    rw [habs]
    constructor
    · rw [abs_le]; constructor <;> rcases hup with h | ⟨h, -⟩ <;> linarith
    · intro _ heq
      rcases hup with h | ⟨-, heven⟩
      · rcases abs_cases (q - (magUnits r : ℝ)) with ⟨e, -⟩ | ⟨e, -⟩ <;> linarith
      · exact heven

/-- The middle past the largest finite pattern. -/
theorem twiceMiddle_last : (twiceMiddle (infMag - 1) : ℝ) = (2 ^ 25 - 1) * 2 ^ 253 := by
  rw [show twiceMiddle (infMag - 1) = (2 ^ 25 - 1) * 2 ^ 253 by decide +kernel]
  norm_num

/-- The infinity is chosen exactly from the middle past the largest finite pattern on. -/
theorem RoundsTo.eq_infMag_iff (h : RoundsTo q r) :
    r = infMag ↔ ((2 : ℝ) ^ 25 - 1) * 2 ^ 253 ≤ 2 * q := by
  have hlast := h.2 (infMag - 1) (by decide)
  rw [twiceMiddle_last] at hlast
  have hodd : ¬ (infMag - 1) % 2 = 0 := by decide
  have hle := h.1
  have hpos : 0 < infMag := by decide
  constructor
  · intro hr
    by_contra hlt
    have := hlast.2 (.inl (not_le.1 hlt))
    omega
  · intro hq
    by_contra hne
    rcases hlast.1 (by omega) with hlt | ⟨-, heven⟩
    · exact absurd hq (not_le.2 hlt)
    · exact hodd heven

end Nearest

/-! ### A rounded pattern is the real value rounded once -/

/-- The real value of a finite pattern is its signed magnitude, scaled. -/
theorem ofBits_of_finite {z : F32} (hz : isFinite z = true) :
    Reals.ofBits z = (signed (signBit z) (magUnits (magBits z)) : ℝ) / 2 ^ 149 := by
  rw [Reals.ofBits, units_of_finite hz]

theorem ofBits_pack {neg : Bool} {m : ℕ} (h : m < infMag) :
    Reals.ofBits (pack neg m) = (signed neg (magUnits m) : ℝ) / 2 ^ 149 := by
  rw [Reals.ofBits, units_pack h]

/-- A sign as a factor. -/
def signFactor (neg : Bool) : ℝ := if neg then -1 else 1

theorem signed_eq_signFactor_mul (neg : Bool) (u : ℕ) : (signed neg u : ℝ) = signFactor neg * u := by
  cases neg <;> simp [signFactor]

theorem abs_signFactor_mul (neg : Bool) (a : ℝ) : |signFactor neg * a| = |a| := by
  cases neg <;> simp [signFactor]

/-- A finite value of either sign lies no nearer to a non-negative value of sign `neg` than some pattern of that
same sign does, and is as near only where it is that pattern's value. -/
theorem exists_pattern_at_least_as_near (neg : Bool) {q : ℝ} (hq : 0 ≤ q) (t : Bool) (u : ℕ) :
    ∃ m, |q - magUnits m| ≤ |signFactor neg * q - signed t (magUnits u)| ∧
      (|q - magUnits m| = |signFactor neg * q - signed t (magUnits u)| →
        (signed t (magUnits u) : ℝ) = signFactor neg * magUnits m) := by
  have hu : (0 : ℝ) ≤ magUnits u := Nat.cast_nonneg _
  rw [signed_eq_signFactor_mul]
  by_cases hs : t = neg
  · subst hs
    refine ⟨u, ?_, fun _ => rfl⟩
    rw [← mul_sub, abs_signFactor_mul]
  · have hneg : signFactor t = -signFactor neg := by cases t <;> cases neg <;> simp_all [signFactor]
    have habs : |signFactor neg * q - signFactor t * magUnits u| = q + magUnits u := by
      rw [hneg, neg_mul, sub_neg_eq_add, ← mul_add, abs_signFactor_mul, abs_of_nonneg (by linarith)]
    refine ⟨0, ?_, ?_⟩ <;> rw [habs, magUnits_zero, Nat.cast_zero, sub_zero, abs_of_nonneg hq]
    · linarith
    · intro heq
      rw [show (magUnits u : ℝ) = 0 by linarith]
      simp

theorem toNat_pack_mod_two (neg : Bool) (m : ℕ) : (pack neg m).toNat % 2 = m % 2 := by
  rw [pack, BitVec.toNat_ofNat]
  omega

/-- The magnitude pattern that a value's units round to, with the value's sign, is the value rounded once
(R9). -/
theorem roundedOnce_pack {q : ℝ} {r : ℕ} (neg : Bool) (hq : 0 ≤ q) (h : RoundsTo q r) :
    RoundedOnce (signFactor neg * q / 2 ^ 149) (pack neg r) := by
  have hinf := h.eq_infMag_iff
  have hscale : ∀ a b : ℝ, |a / 2 ^ 149 - b / 2 ^ 149| = |a - b| / 2 ^ 149 := fun a b => by
    rw [← sub_div, abs_div, abs_of_pos (by positivity : (0 : ℝ) < 2 ^ 149)]
  refine ⟨fun hlt => ?_, fun hge => ?_, fun hle => ?_⟩
  · rw [abs_div, abs_signFactor_mul, abs_of_nonneg hq, abs_of_pos (by positivity),
      div_lt_iff₀ (by positivity)] at hlt
    have hr : r < infMag := lt_of_le_of_ne h.1 fun e => by
      have := hinf.1 e
      norm_num at this hlt
      linarith
    refine ⟨isFinite_pack hr, fun z hz => ?_⟩
    rw [ofBits_pack hr, ofBits_of_finite hz, hscale, hscale, signed_eq_signFactor_mul neg,
      ← mul_sub, abs_signFactor_mul]
    obtain ⟨m, hle, heq⟩ := exists_pattern_at_least_as_near neg hq (signBit z) (magBits z)
    obtain ⟨hnear, htie⟩ := h.nearest hr m
    constructor
    · exact div_le_div_of_nonneg_right (hnear.trans hle) (by positivity)
    · intro hdist hne
      rw [div_left_inj' (by positivity)] at hdist
      rw [toNat_pack_mod_two]
      refine htie (fun e => hne ?_) (le_antisymm hnear (hle.trans hdist.ge))
      rw [heq (le_antisymm hle (hdist.ge.trans hnear)), e]
  · cases neg with
    | true =>
      rw [le_div_iff₀ (by positivity)] at hge
      norm_num [signFactor] at hge
      linarith
    | false =>
      rw [le_div_iff₀ (by positivity)] at hge
      have : r = infMag := hinf.2 (by norm_num [signFactor] at hge ⊢; linarith)
      rw [this]; rfl
  · cases neg with
    | true =>
      rw [div_le_iff₀ (by positivity)] at hle
      have : r = infMag := hinf.2 (by norm_num [signFactor] at hle ⊢; linarith)
      rw [this]; rfl
    | false =>
      rw [div_le_iff₀ (by positivity)] at hle
      norm_num [signFactor] at hle
      linarith

/-- Settles O41: the real argument's rounding, with the denominator multiplied out. -/
theorem roundingIsNearestEven : Obligations.RoundingIsNearestEven := by
  intro n d hd
  have hd' : (0 : ℝ) < d := by exact_mod_cast hd
  have h := roundsTo_roundMag n hd
  have hscale : ∀ m : ℕ, ((|(n : ℤ) - d * magUnits m| : ℤ) : ℝ) = |(n : ℝ) / d - magUnits m| * d := by
    intro m
    push_cast
    rw [← abs_of_pos hd', ← abs_mul, abs_of_pos hd', sub_mul, div_mul_cancel₀ _ hd'.ne', mul_comm (d : ℝ)]
  refine ⟨fun hr m => ?_, ?_⟩
  · obtain ⟨hnear, htie⟩ := h.nearest hr m
    constructor
    · rw [← Int.cast_le (R := ℝ), hscale, hscale]
      exact mul_le_mul_of_nonneg_right hnear hd'.le
    · intro hne heq
      rw [← Int.cast_inj (α := ℝ), hscale, hscale, mul_left_inj' hd'.ne'] at heq
      exact htie hne heq
  · rw [h.eq_infMag_iff, ← mul_div_assoc, le_div_iff₀ hd', ← Nat.cast_le (α := ℝ)]
    rw [mul_right_comm, mul_comm _ (d : ℝ)]
    norm_num

end Sys2Proof.Binary32
end

/-! SUPPORT. The five operations on finite operands as one rounding of the exact real result, with the sign
of an exact zero. Settles O42 and O43. -/

section
namespace Sys2Proof.Binary32

open Sys2Proof.Machine

/-! ### Each operation as one call of `roundTo` -/

section Operations

variable {nan x y : F32}

theorem isFinite_magBits (hx : isFinite x = true) : magBits x < infMag := by
  simpa [isFinite] using hx

theorem roundTo_zero (neg : Bool) {d : ℕ} (hd : 0 < d) : roundTo neg 0 d = pack neg 0 := by
  rw [roundTo, roundMag_zero hd]

theorem units_eq_zero_iff (hx : isFinite x = true) : units x = 0 ↔ magUnits (magBits x) = 0 := by
  rw [units_of_finite hx, ← Int.natAbs_eq_zero, natAbs_signed]

theorem add_of_finite (hx : isFinite x = true) (hy : isFinite y = true) :
    add nan x y = if units x + units y = 0 then pack (signBit x && signBit y) 0
      else roundTo (units x + units y < 0) (units x + units y).natAbs 1 := by
  rw [units_of_finite hx, units_of_finite hy, add, unpack_of_finite hx, unpack_of_finite hy]

/-- The exact sum goes through one rounding, with its own sign unless it is zero. -/
theorem add_eq_roundTo (hx : isFinite x = true) (hy : isFinite y = true) :
    ∃ neg, add nan x y = roundTo neg (units x + units y).natAbs 1 ∧
      signed neg (units x + units y).natAbs = units x + units y := by
  rw [add_of_finite hx hy]
  split_ifs with h
  · exact ⟨_, by rw [h, Int.natAbs_zero, roundTo_zero _ one_pos], by
      rw [h]; cases (signBit x && signBit y) <;> rfl⟩
  · refine ⟨_, rfl, ?_⟩
    by_cases hneg : units x + units y < 0
    · rw [decide_eq_true hneg, signed_true]; omega
    · rw [decide_eq_false hneg, signed_false]; omega

theorem mul_eq_roundTo (hx : isFinite x = true) (hy : isFinite y = true) :
    mul nan x y = roundTo (signBit x != signBit y)
      (magUnits (magBits x) * magUnits (magBits y)) unitScale := by
  rw [mul, unpack_of_finite hx, unpack_of_finite hy]

theorem div_eq_roundTo (hx : isFinite x = true) (hy : isFinite y = true) (h0 : units y ≠ 0) :
    div nan x y = roundTo (signBit x != signBit y)
      (magUnits (magBits x) * unitScale) (magUnits (magBits y)) := by
  rw [div, unpack_of_finite hx, unpack_of_finite hy]
  exact if_neg (mt (units_eq_zero_iff hy).2 h0)

theorem sqrt_of_zero (hx : isFinite x = true) (h0 : units x = 0) :
    sqrt nan x = pack (signBit x) 0 := by
  rw [sqrt, unpack_of_finite hx]
  exact if_pos ((units_eq_zero_iff hx).1 h0)

theorem signBit_of_units_pos (hx : isFinite x = true) (hpos : 0 < units x) : signBit x = false := by
  rw [units_of_finite hx] at hpos
  cases hs : signBit x with
  | false => rfl
  | true => rw [hs, signed_true] at hpos; omega

theorem sqrt_of_pos (hx : isFinite x = true) (hpos : 0 < units x) :
    sqrt nan x = roundTo false (stickyRoot (magUnits (magBits x) * unitScale)) 2 := by
  rw [sqrt, unpack_of_finite hx, signBit_of_units_pos hx hpos]
  exact if_neg (mt (units_eq_zero_iff hx).2 hpos.ne')

end Operations

/-! ### The rounded root -/

/-- The bitwise root is the integer square root. -/
theorem isqrt_eq_sqrt (fuel m : ℕ) (h : m < 4 ^ fuel) : isqrt fuel m = Nat.sqrt m := by
  induction fuel generalizing m with
  | zero =>
    obtain rfl : m = 0 := by omega
    rfl
  | succ fuel ih =>
    have hquarter := ih (m / 4) (by rw [pow_succ] at h; omega)
    have hlow := Nat.sqrt_le (m / 4)
    have hhigh := Nat.lt_succ_sqrt (m / 4)
    rw [isqrt, hquarter]
    generalize Nat.sqrt (m / 4) = k at hlow hhigh
    have hfour : 4 * (k * k) ≤ m := by omega
    have hnext : m < 4 * (k.succ * k.succ) := by omega
    split_ifs with hodd
    · exact Nat.eq_sqrt.2 ⟨hodd, by rw [Nat.succ_eq_add_one] at hnext; linarith⟩
    · exact Nat.eq_sqrt.2 ⟨by linarith, not_le.1 hodd⟩

/-- The sticky root is twice the root of a square, and otherwise the odd number between twice the integers
around the root. -/
theorem stickyRoot_cases {m : ℕ} (h : m < 4 ^ 216) :
    (∃ k, m = k * k ∧ stickyRoot m = 2 * k) ∨
    (∃ k, k * k < m ∧ m < (k + 1) * (k + 1) ∧ stickyRoot m = 2 * k + 1) := by
  unfold stickyRoot
  rw [isqrt_eq_sqrt 216 m h]
  split_ifs with hsq
  · exact .inl ⟨Nat.sqrt m, hsq.symm, rfl⟩
  · exact .inr ⟨Nat.sqrt m, lt_of_le_of_ne (Nat.sqrt_le m) hsq, Nat.lt_succ_sqrt m, rfl⟩

/-- A middle is a whole number of units, but between patterns one unit apart. -/
theorem twiceMiddle_even_or_small (m : ℕ) : Even (twiceMiddle m) ∨ twiceMiddle m < 2 ^ 25 := by
  obtain ⟨k, q, rfl, hq, hn⟩ := magBits_layout m
  unfold twiceMiddle
  rw [magUnits_layout hq hn, magUnits_layout_succ hq hn]
  cases k with
  | zero => right; omega
  | succ k => exact .inl ⟨(2 * q + 1) * 2 ^ k, by ring⟩

/-- A root of at least 2^25 lies on the same side of every middle as its sticky root, so rounding the sticky
root rounds the root itself (R14). -/
theorem roundsTo_stickyRoot {n : ℕ} (hlow : (2 ^ 25) ^ 2 ≤ n) (hhigh : n < 4 ^ 216) :
    RoundsTo (Real.sqrt n) (roundMag (stickyRoot n) 2) := by
  have hr := roundsTo_roundMag (stickyRoot n) (d := 2) (by norm_num)
  refine ⟨hr.1, fun m hm => ?_⟩
  rw [hr.2 m hm, Nat.cast_ofNat, mul_div_cancel₀ _ (by norm_num : (2 : ℝ) ≠ 0)]
  rcases stickyRoot_cases hhigh with ⟨k, rfl, hs⟩ | ⟨k, hk, hk', hs⟩
  · rw [hs]
    push_cast
    rw [Real.sqrt_mul_self (Nat.cast_nonneg k)]
  · have hroot : (k : ℝ) < Real.sqrt n := Real.lt_sqrt_of_sq_lt (by rw [pow_two]; exact_mod_cast hk)
    have hroot' : Real.sqrt n < (k + 1 : ℕ) :=
      (Real.sqrt_lt' (by positivity)).2 (by rw [pow_two]; exact_mod_cast hk')
    have hkbig : 2 ^ 25 ≤ k := by
      by_contra hlt
      have : (k + 1) * (k + 1) ≤ (2 ^ 25) ^ 2 := by
        rw [pow_two]; exact Nat.mul_le_mul (by omega) (by omega)
      omega
    rw [hs]
    generalize hT : twiceMiddle m = T
    have hside : T ≤ 2 * k ∨ 2 * k + 2 ≤ T := by
      rcases twiceMiddle_even_or_small m with ⟨a, ha⟩ | hsmall <;> omega
    rcases hside with hle | hge
    · have hle' : (T : ℝ) ≤ 2 * k := by exact_mod_cast hle
      constructor <;> rintro (h | ⟨h, -⟩) <;> push_cast at h <;> linarith
    · have hge' : 2 * (k : ℝ) + 2 ≤ T := by exact_mod_cast hge
      push_cast at hroot' ⊢
      exact ⟨fun _ => .inl (by linarith), fun _ => .inl (by linarith)⟩

/-! ### The operations on real values -/

theorem unitScale_cast : (unitScale : ℝ) = 2 ^ 149 := by rw [unitScale]; norm_cast

/-- A fraction that is, up to its sign, an exact value in units of 2^-149 is rounded to that value's
pattern. -/
theorem roundedOnce_roundTo {v : ℝ} {neg : Bool} {n d : ℕ} (hd : 0 < d)
    (hv : v * 2 ^ 149 * d = signed neg n) : RoundedOnce v (roundTo neg n d) := by
  have hd' : (0 : ℝ) < d := by exact_mod_cast hd
  have hval : v = signFactor neg * ((n : ℝ) / d) / 2 ^ 149 := by
    rw [signed_eq_signFactor_mul] at hv
    rw [← mul_div_assoc, ← hv]
    field_simp
  rw [hval]
  exact roundedOnce_pack neg (by positivity) (roundsTo_roundMag n hd)

section Values

variable {x y : F32} (nan : F32)

theorem add_roundedOnce (hx : isFinite x = true) (hy : isFinite y = true) :
    RoundedOnce (Reals.ofBits x + Reals.ofBits y) (add nan x y) := by
  obtain ⟨neg, hadd, hsum⟩ := add_eq_roundTo (nan := nan) hx hy
  rw [hadd]
  refine roundedOnce_roundTo one_pos ?_
  rw [hsum, Reals.ofBits, Reals.ofBits]
  push_cast
  field_simp

theorem ofBits_negate (hy : isFinite y = true) : Reals.ofBits (negate y) = -Reals.ofBits y := by
  rw [Reals.ofBits, units_negate hy, Int.cast_neg, neg_div, Reals.ofBits]

theorem sub_roundedOnce (hx : isFinite x = true) (hy : isFinite y = true) :
    RoundedOnce (Reals.ofBits x - Reals.ofBits y) (sub nan x y) := by
  have h := add_roundedOnce nan hx (isFinite_negate hy)
  rwa [ofBits_negate hy, ← sub_eq_add_neg] at h

theorem mul_roundedOnce (hx : isFinite x = true) (hy : isFinite y = true) :
    RoundedOnce (Reals.ofBits x * Reals.ofBits y) (mul nan x y) := by
  rw [mul_eq_roundTo hx hy]
  refine roundedOnce_roundTo unitScale_pos ?_
  rw [← signed_mul, Int.cast_mul, unitScale_cast, ofBits_of_finite hx, ofBits_of_finite hy]
  field_simp

theorem signFactor_bne_mul (s t : Bool) : signFactor (s != t) * signFactor t = signFactor s := by
  cases s <;> cases t <;> simp [signFactor]

theorem div_roundedOnce (hx : isFinite x = true) (hy : isFinite y = true) (h0 : units y ≠ 0) :
    RoundedOnce (Reals.ofBits x / Reals.ofBits y) (div nan x y) := by
  have hpos : 0 < magUnits (magBits y) := Nat.pos_of_ne_zero (mt (units_eq_zero_iff hy).2 h0)
  have hpos' : (0 : ℝ) < magUnits (magBits y) := by exact_mod_cast hpos
  have hsign : signFactor (signBit y) ≠ 0 := by cases signBit y <;> simp [signFactor]
  rw [div_eq_roundTo hx hy h0]
  refine roundedOnce_roundTo hpos ?_
  rw [ofBits_of_finite hx, ofBits_of_finite hy, signed_eq_signFactor_mul, signed_eq_signFactor_mul,
    signed_eq_signFactor_mul, ← signFactor_bne_mul (signBit x) (signBit y), Nat.cast_mul, unitScale_cast]
  field_simp

theorem magUnits_lt_of_finite (hx : isFinite x = true) : magUnits (magBits x) < 2 ^ 128 * unitScale := by
  have h := magUnits_lt.2 (isFinite_magBits hx)
  rwa [show magUnits infMag = 2 ^ 128 * unitScale by decide +kernel] at h

theorem ofBits_lt (hx : isFinite x = true) : Reals.ofBits x < 2 ^ 128 := by
  have hmag := magUnits_lt_of_finite hx
  have hunits : units x < 2 ^ 128 * (unitScale : ℤ) := by
    rw [units_of_finite hx]
    cases signBit x
    · rw [signed_false]; exact_mod_cast hmag
    · rw [signed_true]; omega
  rw [Reals.ofBits, div_lt_iff₀ (by positivity), ← unitScale_cast]
  exact_mod_cast hunits

/-- The root of a value, with the value and the root in units of 2^-149. -/
theorem sqrt_scaled (a : ℝ) : Real.sqrt (a / 2 ^ 149) = Real.sqrt (a * 2 ^ 149) / 2 ^ 149 := by
  have hpos : (0 : ℝ) < 2 ^ 149 := by positivity
  rw [show a / 2 ^ 149 = a * 2 ^ 149 / (2 ^ 149) ^ 2 by rw [pow_two, mul_div_mul_right _ _ hpos.ne'],
    Real.sqrt_div' _ (by positivity), Real.sqrt_sq hpos.le]

theorem sqrt_roundedOnce (hx : isFinite x = true) (h0 : 0 ≤ Reals.ofBits x) :
    RoundedOnce (Real.sqrt (Reals.ofBits x)) (sqrt nan x) := by
  have hunits : 0 ≤ units x := by
    rw [Reals.ofBits, le_div_iff₀ (by positivity), zero_mul] at h0
    exact_mod_cast h0
  rcases hunits.eq_or_lt with hzero | hpos
  · rw [sqrt_of_zero hx hzero.symm, ← roundTo_zero _ one_pos]
    refine roundedOnce_roundTo one_pos ?_
    rw [Reals.ofBits, ← hzero]
    cases signBit x <;> simp
  · have hmag : units x = magUnits (magBits x) := by
      rw [units_of_finite hx, signBit_of_units_pos hx hpos, signed_false]
    have hlt := magUnits_lt_of_finite hx
    rw [hmag, Int.natCast_pos] at hpos
    rw [sqrt_of_pos hx (by rw [hmag]; exact_mod_cast hpos), Reals.ofBits, hmag, Int.cast_natCast,
      sqrt_scaled, ← unitScale_cast, ← Nat.cast_mul, unitScale_cast]
    have hround := roundsTo_stickyRoot (n := magUnits (magBits x) * unitScale)
      ((by decide : (2 ^ 25) ^ 2 ≤ unitScale).trans (Nat.le_mul_of_pos_left _ hpos))
      ((Nat.mul_lt_mul_of_pos_right hlt unitScale_pos).trans (by decide))
    have h := roundedOnce_pack false (Real.sqrt_nonneg _) hround
    rwa [signFactor, if_neg (by decide), one_mul] at h

/-- The root of a finite value lies far below the infinity's middle. -/
theorem sqrt_isFinite (hx : isFinite x = true) (h0 : 0 ≤ Reals.ofBits x) :
    isFinite (sqrt nan x) = true := by
  refine ((sqrt_roundedOnce nan hx h0).1 ?_).1
  have hroot : Real.sqrt (Reals.ofBits x) < 2 ^ 64 :=
    (Real.sqrt_lt' (by positivity)).2 ((ofBits_lt hx).trans_le (by norm_num))
  rw [abs_of_nonneg (Real.sqrt_nonneg _)]
  exact hroot.trans (by norm_num)

end Values

/-- Settles O42: each operation is one `roundTo` of the exact result. -/
theorem operationsRoundOnce : Obligations.OperationsRoundOnce := by
  intro nan x y hx hy
  refine ⟨add_roundedOnce nan hx hy, sub_roundedOnce nan hx hy, mul_roundedOnce nan hx hy, fun h0 => ?_,
    fun h0 => ⟨sqrt_isFinite nan hx h0, sqrt_roundedOnce nan hx h0⟩⟩
  refine div_roundedOnce nan hx hy fun hu => h0 ?_
  rw [Reals.ofBits, hu, Int.cast_zero, zero_div]

/-- A zero of the exclusive-or of two signs. -/
theorem pack_bne_zero (s t : Bool) :
    pack (s != t) 0 = if s = t then 0x00000000#32 else 0x80000000#32 := by
  cases s <;> cases t <;> rfl

/-- Settles O43: rounding an exact zero keeps the sign given to it. -/
theorem zeroResultSigns : Obligations.ZeroResultSigns := by
  intro nan x y hx hy
  refine ⟨fun hs hsum => ?_, fun hprod => ?_, fun hx0 hy0 => ?_⟩
  · have hand : (signBit x && signBit y) = false := by
      cases h : signBit x <;> cases h' : signBit y <;> simp_all
    rw [add_of_finite hx hy, if_pos hsum, hand]
    rfl
  · have hmag : magUnits (magBits x) * magUnits (magBits y) = 0 := by
      rw [mul_eq_zero, ← units_eq_zero_iff hx, ← units_eq_zero_iff hy]
      exact mul_eq_zero.1 hprod
    rw [mul_eq_roundTo hx hy, hmag, roundTo_zero _ unitScale_pos, pack_bne_zero]
  · have hpos : 0 < magUnits (magBits y) := Nat.pos_of_ne_zero (mt (units_eq_zero_iff hy).2 hy0)
    rw [div_eq_roundTo hx hy hy0, (units_eq_zero_iff hx).1 hx0, zero_mul, roundTo_zero _ hpos,
      pack_bne_zero]

end Sys2Proof.Binary32
end

/-! SUPPORT. The values of SIN2PI in both modes. Settles O44. -/

section
namespace Sys2Proof.Binary32

open Sys2Proof.Machine

/-- In `[0, 1)` the magnitude pattern of SIN2PI is at most that of 1, at the quarter phases and elsewhere. -/
theorem sin2pi_of_inUnit {p : F32} (h : inUnit p = true) :
    ∃ s m, m ≤ 0x3F800000 ∧ sin2pi p = pack s m := by
  rw [sin2pi, if_pos h]
  split_ifs
  · exact ⟨false, 0, by decide, rfl⟩
  · exact ⟨false, 0x3F800000, le_rfl, rfl⟩
  · exact ⟨false, 0, by decide, rfl⟩
  · exact ⟨true, 0x3F800000, le_rfl, rfl⟩
  · exact ⟨_, _, Nat.le_of_lt_succ (Config.sineInside p).2.isLt, rfl⟩

/-- A pattern of magnitude at most 1's lies between -1 and 1. -/
theorem le_pack_le {s : Bool} {m : ℕ} (hm : m ≤ 0x3F800000) :
    le 0xBF800000#32 (pack s m) = true ∧ le (pack s m) 0x3F800000#32 = true := by
  have hfin : m < infMag := hm.trans_lt (by decide)
  have hunits := magUnits_le.2 hm
  have hone : units 0x3F800000#32 = magUnits 0x3F800000 := by decide +kernel
  have hneg : units 0xBF800000#32 = -magUnits 0x3F800000 := by decide +kernel
  rw [le_iff_units (by decide) (isFinite_pack hfin), le_iff_units (isFinite_pack hfin) (by decide),
    units_pack hfin, hone, hneg]
  generalize magUnits 0x3F800000 = one at hunits
  cases s
  · rw [signed_false]; omega
  · rw [signed_true]; omega

/-- (S1): at a phase in `[0, 1)` SIN2PI lies between -1 and 1 (R13). -/
theorem sin2pi_between {p : F32} (h : inUnit p = true) :
    le 0xBF800000#32 (sin2pi p) = true ∧ le (sin2pi p) 0x3F800000#32 = true := by
  obtain ⟨s, m, hm, e⟩ := sin2pi_of_inUnit h
  rw [e]
  exact le_pack_le hm

/-! (S2): the quarter phases (R13). -/

theorem sin2pi_zero : sin2pi 0x00000000#32 = 0x00000000#32 := by
  rw [sin2pi, if_pos (by decide +kernel), if_pos (by decide)]

theorem sin2pi_quarter : sin2pi 0x3E800000#32 = 0x3F800000#32 := by
  rw [sin2pi, if_pos (by decide +kernel), if_neg (by decide), if_pos rfl]

theorem sin2pi_half : sin2pi 0x3F000000#32 = 0x00000000#32 := by
  rw [sin2pi, if_pos (by decide +kernel), if_neg (by decide), if_neg (by decide), if_pos rfl]

theorem sin2pi_three_quarters : sin2pi 0x3F400000#32 = 0xBF800000#32 := by
  rw [sin2pi, if_pos (by decide +kernel), if_neg (by decide), if_neg (by decide), if_neg (by decide),
    if_pos rfl]

end Sys2Proof.Binary32

namespace Sys2Proof.Reals

theorem sin2pi_zero : config.sin2pi 0 = 0 := by simp

theorem sin2pi_quarter : config.sin2pi (1 / 4) = 1 := by
  rw [config_sin2pi, show 2 * Real.pi * (1 / 4) = Real.pi / 2 by ring, Real.sin_pi_div_two]

theorem sin2pi_half : config.sin2pi (1 / 2) = 0 := by
  rw [config_sin2pi, show 2 * Real.pi * (1 / 2) = Real.pi by ring, Real.sin_pi]

theorem sin2pi_three_quarters : config.sin2pi (3 / 4) = -1 := by
  rw [config_sin2pi, show 2 * Real.pi * (3 / 4) = Real.pi / 2 + Real.pi by ring, Real.sin_add_pi,
    Real.sin_pi_div_two]

/-- Settles O44: the F32 function by its definition's cases, the REAL one as the sine. -/
theorem sineProperties : Obligations.SineProperties := by
  refine ⟨fun p hp => Binary32.sin2pi_between hp, ?_, Binary32.sin2pi_quarter, ?_,
    Binary32.sin2pi_three_quarters, config_sin2pi,
    fun p => ⟨Real.neg_one_le_sin _, Real.sin_le_one _⟩,
    sin2pi_zero, sin2pi_quarter, sin2pi_half, sin2pi_three_quarters⟩
  · rw [Binary32.sin2pi_zero]
    rfl
  · rw [Binary32.sin2pi_half]
    rfl

end Sys2Proof.Reals
end

/-! SUPPORT. Two choices of the free NaN, side by side: every operation gives the same value under both, or
each choice's own NaN; and the values that reach a register other than the outputs are no NaN. -/

section
namespace Sys2Proof.Binary32

/-! ### Values under two choices of the free NaN -/

/-- The values that one computation gives under the choices `nan` and `nan'` of the free NaN: the same one, or
each choice's own NaN (log 5). -/
def SameOrFree (nan nan' v v' : F32) : Prop := v = v' ∨ (v = nan ∧ v' = nan')

section Operations

variable {nan nan' v v' x x' y y' : F32}

theorem SameOrFree.refl : SameOrFree nan nan' v v := .inl rfl

theorem SameOrFree.free : SameOrFree nan nan' nan nan' := .inr ⟨rfl, rfl⟩

theorem SameOrFree.ite {c : Prop} [Decidable c] (h : SameOrFree nan nan' x x')
    (h' : SameOrFree nan nan' y y') :
    SameOrFree nan nan' (if c then x else y) (if c then x' else y') := by
  split_ifs
  · exact h
  · exact h'

theorem SameOrFree.eq_of_not_nan (hn : isNaN nan = true) (h : SameOrFree nan nan' v v')
    (hv : isNaN v = false) : v' = v := by
  rcases h with h | ⟨h, -⟩
  · exact h.symm
  · rw [h, hn] at hv; cases hv

theorem unpack_of_nan {b : F32} (h : isNaN b = true) : unpack b = .nan := by rw [unpack, if_pos h]

theorem isNaN_eq_false_iff {b : F32} : isNaN b = false ↔ unpack b ≠ .nan := by
  constructor
  · intro h
    rw [unpack, h]
    cases isFinite b <;> simp
  · intro h
    rw [← Bool.not_eq_true]
    exact mt unpack_of_nan h

theorem isNaN_of_finite {b : F32} (h : isFinite b = true) : isNaN b = false := by
  rw [isNaN_eq_false_iff, unpack_of_finite h]
  exact Datum.noConfusion

/-- A binary operation whose result is the free NaN for a NaN operand, and takes the free NaN in no other way
than as its result. -/
structure FreeOnlyAsResult (f : F32 → F32 → F32 → F32) : Prop where
  left : ∀ {nan x y : F32}, unpack x = .nan → f nan x y = nan
  right : ∀ {nan x y : F32}, unpack y = .nan → f nan x y = nan
  same : ∀ {nan nan' x y : F32}, SameOrFree nan nan' (f nan x y) (f nan' x y)

/-- Such an operation keeps the relation of its operands. -/
theorem FreeOnlyAsResult.sameOrFree {f : F32 → F32 → F32 → F32} (hf : FreeOnlyAsResult f)
    (hn : isNaN nan = true) (hn' : isNaN nan' = true)
    (hx : SameOrFree nan nan' x x') (hy : SameOrFree nan nan' y y') :
    SameOrFree nan nan' (f nan x y) (f nan' x' y') := by
  rcases hx with rfl | ⟨rfl, rfl⟩
  · rcases hy with rfl | ⟨rfl, rfl⟩
    · exact hf.same
    · exact .inr ⟨hf.right (unpack_of_nan hn), hf.right (unpack_of_nan hn')⟩
  · exact .inr ⟨hf.left (unpack_of_nan hn), hf.left (unpack_of_nan hn')⟩

theorem freeOnlyAsResult_add : FreeOnlyAsResult add where
  left h := by rw [add, h]
  right {nan x y} h := by rw [add, h]; cases unpack x <;> rfl
  same {nan nan' x y} := by
    unfold add
    cases unpack x with
    | nan => exact .free
    | inf s =>
      cases unpack y with
      | nan => exact .free
      | inf t => exact .ite .refl .free
      | fin t n => exact .refl
    | fin s m =>
      cases unpack y with
      | nan => exact .free
      | inf t => exact .refl
      | fin t n => exact .refl

theorem unpack_negate_of_nan (h : unpack y = .nan) : unpack (negate y) = .nan := by
  refine unpack_of_nan ?_
  have hy : infMag < magBits y := by
    by_contra hle
    exact isNaN_eq_false_iff.1 (decide_eq_false hle) h
  have hmag : magBits (negate y) = magBits y := by
    rw [magBits, magBits, negate, BitVec.toNat_xor, Nat.xor_mod_two_pow]
    simp
  rw [isNaN, hmag]
  exact decide_eq_true hy

theorem freeOnlyAsResult_sub : FreeOnlyAsResult sub where
  left h := freeOnlyAsResult_add.left h
  right h := freeOnlyAsResult_add.right (unpack_negate_of_nan h)
  same := freeOnlyAsResult_add.same

theorem freeOnlyAsResult_mul : FreeOnlyAsResult mul where
  left h := by rw [mul, h]
  right {nan x y} h := by rw [mul, h]; cases unpack x <;> rfl
  same {nan nan' x y} := by
    unfold mul
    cases unpack x with
    | nan => exact .free
    | inf s =>
      cases unpack y with
      | nan => exact .free
      | inf t => exact .refl
      | fin t n => exact .ite .free .refl
    | fin s m =>
      cases unpack y with
      | nan => exact .free
      | inf t => exact .ite .free .refl
      | fin t n => exact .refl

theorem freeOnlyAsResult_div : FreeOnlyAsResult div where
  left h := by rw [div, h]
  right {nan x y} h := by rw [div, h]; cases unpack x <;> rfl
  same {nan nan' x y} := by
    unfold div
    cases unpack x with
    | nan => exact .free
    | inf s =>
      cases unpack y with
      | nan => exact .free
      | inf t => exact .free
      | fin t n => exact .refl
    | fin s m =>
      cases unpack y with
      | nan => exact .free
      | inf t => exact .refl
      | fin t n => exact .ite (.ite .free .refl) .refl

theorem sqrt_sameOrFree (hn : isNaN nan = true) (hn' : isNaN nan' = true)
    (hx : SameOrFree nan nan' x x') : SameOrFree nan nan' (sqrt nan x) (sqrt nan' x') := by
  rcases hx with rfl | ⟨rfl, rfl⟩
  · unfold sqrt
    cases unpack x with
    | nan => exact .free
    | inf s => exact .ite .free .refl
    | fin s m => exact .ite .refl (.ite .free .refl)
  · rw [sqrt, sqrt, unpack_of_nan hn, unpack_of_nan hn']
    exact .free

theorem rem_sameOrFree (hn : isNaN nan = true) (hn' : isNaN nan' = true)
    (hx : SameOrFree nan nan' x x') (m : ℕ) : SameOrFree nan nan' (rem nan x m) (rem nan' x' m) := by
  rcases hx with rfl | ⟨rfl, rfl⟩
  · unfold rem
    cases unpack x with
    | nan => exact .free
    | inf s => exact .free
    | fin s u => exact .refl
  · rw [rem, rem, unpack_of_nan hn, unpack_of_nan hn']
    exact .free

/-- No comparison with a NaN holds (log 7). -/
theorem le_nan_right (h : isNaN y = true) : le x y = false := by
  rw [le, orderKey, orderKey, unpack_of_nan h]
  cases unpack x <;> rfl

/-- A comparison has one outcome under both choices. -/
theorem le_right_congr (hn : isNaN nan = true) (hn' : isNaN nan' = true)
    (h : SameOrFree nan nan' y y') : le x y = le x y' := by
  rcases h with rfl | ⟨rfl, rfl⟩
  · rfl
  · rw [le_nan_right hn, le_nan_right hn']

theorem floor_of_nan (h : isNaN x = true) : floor x = none := by rw [floor, unpack_of_nan h]

/-! ### Results that are no NaN -/

theorem isNaN_pack {neg : Bool} {m : ℕ} (h : m ≤ infMag) : isNaN (pack neg m) = false := by
  rw [isNaN, magBits_pack (h.trans_lt (by decide))]
  exact decide_eq_false (not_lt.2 h)

theorem isNaN_infinity (neg : Bool) : isNaN (infinity neg) = false := isNaN_pack le_rfl

theorem isNaN_roundTo (neg : Bool) (n d : ℕ) : isNaN (roundTo neg n d) = false :=
  isNaN_pack (roundMag_le_infMag n d)

/-- A finite value and a value that is no NaN have a sum. -/
theorem isNaN_add (hx : isFinite x = true) (hy : isNaN y = false) : isNaN (add nan x y) = false := by
  rw [isNaN_eq_false_iff] at hy
  unfold add
  rw [unpack_of_finite hx]
  cases h : unpack y with
  | nan => exact absurd h hy
  | inf t => exact isNaN_infinity t
  | fin t n =>
    simp only
    split_ifs
    · exact isNaN_pack (Nat.zero_le _)
    · exact isNaN_roundTo _ _ _

/-- A finite value can be taken from a value that is no NaN. -/
theorem isNaN_sub (hx : isNaN x = false) (hy : isFinite y = true) : isNaN (sub nan x y) = false := by
  rw [isNaN_eq_false_iff] at hx
  unfold sub add
  rw [unpack_negate hy]
  cases h : unpack x with
  | nan => exact absurd h hx
  | inf s => exact isNaN_infinity s
  | fin s m =>
    simp only
    split_ifs
    · exact isNaN_pack (Nat.zero_le _)
    · exact isNaN_roundTo _ _ _

theorem isNaN_mul (hx : isFinite x = true) (hy : isFinite y = true) : isNaN (mul nan x y) = false := by
  rw [mul_eq_roundTo hx hy]
  exact isNaN_roundTo _ _ _

/-- A value that is no NaN can be divided by a finite one that is not zero. -/
theorem isNaN_div (hx : isNaN x = false) (hy : isFinite y = true) (h0 : units y ≠ 0) :
    isNaN (div nan x y) = false := by
  rw [isNaN_eq_false_iff] at hx
  have hmag : magUnits (magBits y) ≠ 0 := mt (units_eq_zero_iff hy).2 h0
  unfold div
  rw [unpack_of_finite hy]
  cases h : unpack x with
  | nan => exact absurd h hx
  | inf s => exact isNaN_infinity _
  | fin s m =>
    simp only [if_neg hmag]
    exact isNaN_roundTo _ _ _

/-- A product with a factor of magnitude at most 1 stays finite. -/
theorem isFinite_mul_of_le_one (hx : isFinite x = true) (hy : isFinite y = true)
    (h1 : |units x| ≤ unitScale) : isFinite (mul nan x y) = true := by
  refine (mul_finite hx hy (roundMag_finite unitScale_pos hy ?_)).1
  rw [abs_mul, mul_comm]
  exact mul_le_mul_of_nonneg_left h1 (abs_nonneg _)

/-- An integer of a rate's size is finite and not zero. -/
theorem toNum_finite_ne_zero {n : ℕ} (h1 : 1 ≤ n) (h24 : n ≤ 2 ^ 24) :
    isFinite (toNum n) = true ∧ units (toNum n) ≠ 0 := by
  have hsign : decide ((n : ℤ) < 0) = false := decide_eq_false (by omega)
  rw [toNum, hsign, Int.natAbs_natCast]
  have hone : roundMag (1 * unitScale) 1 = 0x3F800000 := by decide +kernel
  have hmax : roundMag (2 ^ 24 * unitScale) 1 = 0x4B800000 := by decide +kernel
  have hlow := roundMag_mono one_pos one_pos
    (Nat.mul_le_mul_right 1 (Nat.mul_le_mul_right unitScale h1))
  have hhigh := roundMag_mono one_pos one_pos
    (Nat.mul_le_mul_right 1 (Nat.mul_le_mul_right unitScale h24))
  rw [hone] at hlow
  rw [hmax] at hhigh
  obtain ⟨hfin, hunits⟩ := roundTo_finite (neg := false) (hhigh.trans_lt (by decide))
  refine ⟨hfin, ?_⟩
  have hpos : magUnits 0 < magUnits (roundMag (n * unitScale) 1) :=
    magUnits_lt.2 (lt_of_lt_of_le (by decide) hlow)
  rw [hunits, signed_false]
  omega

/-- A finite value lies strictly between the infinities in the numeric order. -/
theorem orderKey_of_finite {b : F32} (hb : isFinite b = true) :
    ∃ k : ℤ, orderKey b = some k ∧ k.natAbs < 2 ^ 278 := by
  refine ⟨_, by rw [orderKey, unpack_of_finite hb], ?_⟩
  rw [natAbs_signed]
  exact (magUnits_lt_of_finite hb).trans (by decide +kernel)

/-- A value between two finite ones is finite. -/
theorem isFinite_of_between {lo hi : F32} (hlo : isFinite lo = true) (hhi : isFinite hi = true)
    (h : Machine.between lo hi v) : isFinite v = true := by
  obtain ⟨h1, h2⟩ := h
  obtain ⟨a, ha, halow⟩ := orderKey_of_finite hlo
  obtain ⟨b, hb, hbhigh⟩ := orderKey_of_finite hhi
  rw [le, ha] at h1
  rw [le, hb] at h2
  rw [isFinite_iff]
  cases hv : unpack v with
  | nan => simp [orderKey, hv] at h1
  | fin s u => exact ⟨s, u, rfl⟩
  | inf s =>
    simp only [orderKey, hv, decide_eq_true_eq] at h1 h2
    generalize 2 ^ 278 = top at halow hbhigh h1 h2
    cases s
    · rw [signed_false] at h2; omega
    · rw [signed_true] at h1; omega

theorem isFinite_of_inUnit {p : F32} (h : inUnit p = true) : isFinite p = true := by
  rw [isFinite_iff]
  unfold inUnit at h
  cases hp : unpack p with
  | nan => simp [hp] at h
  | inf s => simp [hp] at h
  | fin s u => exact ⟨s, u, rfl⟩

end Operations

end Sys2Proof.Binary32
end

/-! SUPPORT. The sample step under two choices of the free NaN: the smoothers, the trigger, the write path and
the LFO do the same, and only the crossfaded value can differ. Settles O56. -/

section
namespace Sys2Proof.Machine

open Sys2Proof.Binary32

theorem sample_eq_interp {N : Type} (C : Config N) (e : Engine N) (w : N) :
    sample C e w = interp C e (readPos C e (delay C e.phase w)) := (rfl)

section DataPath

variable {nan nan' : F32} (hn : isNaN nan = true) (hn' : isNaN nan' = true)

include hn hn'

/-! ### The reads and the blend -/

theorem delay_sameOrFree (p w : F32) :
    SameOrFree nan nan' (delay (config nan) p w) (delay (config nan') p w) := by
  simp only [delay_eq, config_mul, config_add, config_cnum, config_sin2pi]
  exact freeOnlyAsResult_mul.sameOrFree hn hn' .refl
    (freeOnlyAsResult_add.sameOrFree hn hn' .refl freeOnlyAsResult_mul.same)

/-- A comparison of MODF has one outcome under both choices. -/
theorem numEq_congr {x x' : F32} (hx : SameOrFree nan nan' x x') (y : F32) :
    numEq (config nan) x y = numEq (config nan') x' y := by
  rcases hx with rfl | ⟨rfl, rfl⟩
  · simp only [numEq, config_le]
  · simp only [numEq, config_le, le_nan_right hn, le_nan_right hn', Bool.and_false]

theorem modf_sameOrFree {x x' : F32} (hx : SameOrFree nan nan' x x') (m : ℕ) :
    SameOrFree nan nan' (modf (config nan) x m) (modf (config nan') x' m) := by
  have hrem := rem_sameOrFree hn hn' hx m
  simp only [modf_eq, config_rem, config_toNum, numEq_congr hn hn' hrem]
  exact .ite .refl hrem

theorem readPos_sameOrFree (e : Engine F32) {d d' : F32} (hd : SameOrFree nan nan' d d') :
    SameOrFree nan nan' (readPos (config nan) e d) (readPos (config nan') e d') := by
  simp only [readPos_eq, readArg_eq, config_sub, config_add, config_mul, config_toNum, config_toParams]
  refine modf_sameOrFree hn hn' (freeOnlyAsResult_sub.sameOrFree hn hn' ?_ .refl) _
  refine freeOnlyAsResult_add.sameOrFree hn hn' ?_ .refl
  exact freeOnlyAsResult_sub.sameOrFree hn hn' .refl
    (freeOnlyAsResult_mul.sameOrFree hn hn' hd .refl)

theorem cubic_sameOrFree {a a' : F32} (ha : SameOrFree nan nan' a a') (s0 s1 s2 s3 : F32) :
    SameOrFree nan nan' (cubic (config nan) a s0 s1 s2 s3) (cubic (config nan') a' s0 s1 s2 s3) := by
  have add {x x' y y'} (hx : SameOrFree nan nan' x x') (hy : SameOrFree nan nan' y y') :=
    freeOnlyAsResult_add.sameOrFree hn hn' hx hy
  have sub {x x' y y'} (hx : SameOrFree nan nan' x x') (hy : SameOrFree nan nan' y y') :=
    freeOnlyAsResult_sub.sameOrFree hn hn' hx hy
  have mul {x x' y y'} (hx : SameOrFree nan nan' x x') (hy : SameOrFree nan nan' y y') :=
    freeOnlyAsResult_mul.sameOrFree hn hn' hx hy
  have div {x x' y y'} (hx : SameOrFree nan nan' x x') (hy : SameOrFree nan nan' y y') :=
    freeOnlyAsResult_div.sameOrFree hn hn' hx hy
  have hm1 := sub ha (.refl (v := toNum 1))
  have hm2 := sub ha (.refl (v := toNum 2))
  have hp1 := add ha (.refl (v := toNum 1))
  simp only [cubic_eq, config_add, config_sub, config_mul, config_div, config_toNum]
  exact add (add (add
    (div (mul (mul (mul ha hm1) hm2) .refl) .refl)
    (div (mul (mul (mul hm1 hp1) hm2) .refl) .refl))
    (div (mul (mul (mul ha hp1) hm2) .refl) .refl))
    (div (mul (mul (mul ha hp1) hm1) .refl) .refl)

/-- A read that answers has a position, which is no NaN; so both choices read the same taps. -/
theorem sample_sameOrFree {e : Engine F32} {w y : F32} (h : sample (config nan) e w = .ok y) :
    ∃ y', sample (config nan') e w = .ok y' ∧ SameOrFree nan nan' y y' := by
  rw [sample_eq_interp] at h ⊢
  obtain ⟨i, s0, s1, s2, s3, hfloor, h0, h1, h2, h3, hy⟩ := interp_eq_ok.1 h
  have hrel := readPos_sameOrFree hn hn' e (delay_sameOrFree hn hn' e.phase w)
  have hpos : isNaN (readPos (config nan) e (delay (config nan) e.phase w)) = false := by
    by_contra hnan
    rw [config_floor, floor_of_nan (by simpa using hnan)] at hfloor
    cases hfloor
  have heq := hrel.eq_of_not_nan hn hpos
  refine ⟨_, interp_eq_ok.2 ⟨i, s0, s1, s2, s3, ?_, h0, h1, h2, h3, rfl⟩, ?_⟩
  · rw [heq]
    exact hfloor
  · rw [hy, heq]
    simp only [config_sub, config_toNum]
    exact cubic_sameOrFree hn hn' freeOnlyAsResult_sub.same s0 s1 s2 s3

theorem blend_sameOrFree (c len : ℕ) {yp yp' ya ya' : F32} (hp : SameOrFree nan nan' yp yp')
    (ha : SameOrFree nan nan' ya ya') :
    SameOrFree nan nan' (blend (config nan) c len yp ya) (blend (config nan') c len yp' ya') := by
  have hr := freeOnlyAsResult_div.same (nan := nan) (nan' := nan') (x := toNum c) (y := toNum len)
  simp only [blend_eq, weights_eq, config_add, config_mul, config_sqrt, config_sub, config_div,
    config_toNum]
  exact freeOnlyAsResult_add.sameOrFree hn hn'
    (freeOnlyAsResult_mul.sameOrFree hn hn'
      (sqrt_sameOrFree hn hn' (freeOnlyAsResult_sub.sameOrFree hn hn' .refl hr)) hp)
    (freeOnlyAsResult_mul.sameOrFree hn hn' (sqrt_sameOrFree hn hn' hr) ha)

/-- The crossfader goes the same way under both choices; only its value can differ. -/
theorem crossfade_sameOrFree {e e1 : Engine F32} {y : F32}
    (h : crossfade (config nan) e = .ok (y, e1)) :
    ∃ y', crossfade (config nan') e = .ok (y', e1) ∧ SameOrFree nan nan' y y' := by
  obtain ⟨ya, hya, hcase⟩ := crossfade_eq_ok.1 h
  obtain ⟨ya', hya', ha⟩ := sample_sameOrFree hn hn' hya
  rcases hcase with ⟨hidle, hr⟩ | ⟨htrans, yp, hyp, hcnt, hr⟩
  · obtain ⟨rfl, rfl⟩ := Prod.mk.injEq .. ▸ hr
    exact ⟨ya', crossfade_eq_ok.2 ⟨ya', hya', .inl ⟨hidle, rfl⟩⟩, ha⟩
  · obtain ⟨rfl, rfl⟩ := Prod.mk.injEq .. ▸ hr
    obtain ⟨yp', hyp', hp⟩ := sample_sameOrFree hn hn' hyp
    exact ⟨_, crossfade_eq_ok.2 ⟨ya', hya', .inr ⟨htrans, yp', hyp', hcnt, rfl⟩⟩,
      blend_sameOrFree hn hn' _ _ hp ha⟩

/-! ### The registers that no NaN reaches -/

omit hn hn' in
/-- A smoother's two products are finite, so its sum is no NaN (R112, R123). -/
theorem isNaN_smooth {p s : F32} (hp : isFinite p = true) (hs : isFinite s = true) :
    isNaN (smooth (config nan) p s) = false := by
  have hcoeff : sub nan 0x3F800000#32 0x3F733333#32 = 0x3D4CCCD0#32 := by
    rw [sub_nan_irrel 0#32 (by decide) (by decide)]
    decide +kernel
  simp only [smooth_eq, config_add, config_mul, config_sub, config_toNum, config_cnum, config_toParams,
    toNum_one, cnum_k, hcoeff]
  exact isNaN_add (isFinite_mul_of_le_one (by decide) hp (by decide +kernel))
    (isNaN_mul (by decide) hs)

theorem smooth_congr {p s : F32} (hp : isFinite p = true) (hs : isFinite s = true) :
    smooth (config nan') p s = smooth (config nan) p s := by
  have hrel : SameOrFree nan nan' (smooth (config nan) p s) (smooth (config nan') p s) := by
    simp only [smooth_eq, config_add, config_mul, config_sub, config_toNum, config_cnum, config_toParams]
    exact freeOnlyAsResult_add.sameOrFree hn hn'
      (freeOnlyAsResult_mul.sameOrFree hn hn' freeOnlyAsResult_sub.same .refl) freeOnlyAsResult_mul.same
  exact hrel.eq_of_not_nan hn (isNaN_smooth hp hs)

omit hn' in
/-- The LFO's sum and difference each have a finite operand, so the phase is one under both choices (R121,
R123). -/
theorem nextPhase_congr {p f : F32} {sr : Reg} (hp : isFinite p = true) (hf : isNaN f = false)
    (h1 : 1 ≤ sr.toNat) (h24 : sr.toNat ≤ 2 ^ 24) :
    nextPhase (config nan') p f sr = nextPhase (config nan) p f sr := by
  obtain ⟨hfin, hne⟩ := toNum_finite_ne_zero h1 h24
  have hdiv : div nan' f (toNum sr.toNat) = div nan f (toNum sr.toNat) :=
    freeOnlyAsResult_div.same.eq_of_not_nan hn (isNaN_div hf hfin hne)
  have hadd : add nan' p (div nan f (toNum sr.toNat)) = add nan p (div nan f (toNum sr.toNat)) :=
    freeOnlyAsResult_add.same.eq_of_not_nan hn (isNaN_add hp (isNaN_div hf hfin hne))
  have hsub : sub nan' (add nan p (div nan f (toNum sr.toNat))) 0x3F800000#32 =
      sub nan (add nan p (div nan f (toNum sr.toNat))) 0x3F800000#32 :=
    freeOnlyAsResult_sub.same.eq_of_not_nan hn
      (isNaN_sub (isNaN_add hp (isNaN_div hf hfin hne)) (by decide))
  simp only [nextPhase_eq, regInt, config_add, config_div, config_sub, config_toNum, config_le, toNum_one,
    hdiv, hadd, hsub]

end DataPath

/-! ### The sample step and PROCESS -/

theorem trigger_config (nan nan' : F32) (e : Engine F32) :
    trigger (config nan') e = trigger (config nan) e := by
  simp only [trigger, numEq, config_le]

/-- The crossfader changes nothing that the LFO reads. -/
theorem crossfade_frame {N : Type} {C : Config N} {e e1 : Engine N} {y : N}
    (h : crossfade C e = .ok (y, e1)) :
    e1.phase = e.phase ∧ e1.sfreq = e.sfreq ∧ e1.sr = e.sr := by
  obtain ⟨ya, -, ⟨-, hr⟩ | ⟨-, yp, -, -, hr⟩⟩ := crossfade_eq_ok.1 h
  · obtain ⟨-, rfl⟩ := Prod.mk.injEq .. ▸ hr
    exact ⟨rfl, rfl, rfl⟩
  · obtain ⟨-, rfl⟩ := Prod.mk.injEq .. ▸ hr
    simp

/-- Two engines that agree in everything but the outputs, whose one value each has is the same or each
choice's own NaN. -/
def SameButOutputs (nan nan' : F32) (r r' : Engine F32) : Prop :=
  r.outR = r.outL ∧ ∃ v', SameOrFree nan nan' r.outL v' ∧ r' = { r with outL := v', outR := v' }

theorem withOutputs_self {N : Type} {e : Engine N} (h : e.outR = e.outL) :
    { e with outL := e.outL, outR := e.outL } = e := by
  cases e
  cases h
  rfl

theorem SameButOutputs.report {nan nan' : F32} {r r' : Engine F32} (h : SameButOutputs nan nan' r r')
    (c : ResultCode) (w : Word) : SameButOutputs nan nan' (report c w r) (report c w r') := by
  obtain ⟨hout, v', hv, rfl⟩ := h
  refine ⟨by simpa using hout, v', by simpa using hv, ?_⟩
  rw [report_eq, report_eq]

/-- The operands of the smoothers and of the LFO in a prepared state (R56). -/
structure FiniteOperands (e : Engine F32) : Prop where
  freq : isFinite e.freq = true
  width : isFinite e.width = true
  gain : isFinite e.gain = true
  sfreq : isFinite e.sfreq = true
  swidth : isFinite e.swidth = true
  sgain : isFinite e.sgain = true
  phase : isFinite e.phase = true
  rate : 1 ≤ e.sr.toNat ∧ e.sr.toNat ≤ 2 ^ 24

theorem finiteOperands_of_inv {e : Engine F32} (h : Inv e) (hp : e.status.prepared = true) :
    FiniteOperands e := by
  have hsr : e.sr ≠ 0#32 := fun h0 => by
    have := (h.unsized h0).prepared
    rw [hp] at this
    cases this
  have hsized := h.sized hsr
  have hfreq : ∀ {v}, freqOk v → isFinite v = true := isFinite_of_between (by decide) (by decide)
  have hwidth : ∀ {v}, widthOk v → isFinite v = true := isFinite_of_between (by decide) (by decide)
  have hgain : ∀ {v}, gainOk v → isFinite v = true := isFinite_of_between (by decide) (by decide)
  have hlow := hsized.rateLow
  have hhigh := hsized.rateHigh
  exact {
    freq := hfreq h.freq
    width := hwidth h.width
    gain := hgain h.gain
    sfreq := hfreq hsized.sfreq
    swidth := hwidth hsized.swidth
    sgain := hgain hsized.sgain
    phase := isFinite_of_inUnit h.phase
    rate := ⟨by omega, by omega⟩ }

section SampleStep

variable {nan nan' : F32} (hn : isNaN nan = true) (hn' : isNaN nan' = true) {e : Engine F32}

include hn hn'

theorem smoothAll_congr (h : FiniteOperands e) :
    smoothAll (config nan') e = smoothAll (config nan) e := by
  rw [smoothAll, smooth_congr hn hn' h.freq h.sfreq, smooth_congr hn hn' h.width h.swidth,
    smooth_congr hn hn' h.gain h.sgain, smoothAll]

/-- One sample step under both choices: the stages agree up to the output, which scales the crossfaded
value. -/
theorem sampleStep_sameButOutputs (h : FiniteOperands e) {x : F32} {r : Engine F32}
    (hr : sampleStep (config nan) x e = .ok r) :
    ∃ r', sampleStep (config nan') x e = .ok r' ∧ SameButOutputs nan nan' r r' := by
  obtain ⟨y, e1, e2, hcross, hwrite, rfl⟩ := sampleStep_eq_ok.1 hr
  obtain ⟨y', hcross', hy⟩ := crossfade_sameOrFree hn hn' hcross
  obtain ⟨hcur, rfl⟩ := writePath_eq_ok.1 hwrite
  obtain ⟨hphase, hsfreq, hsr⟩ := crossfade_frame hcross
  simp only [trigger_phase, trigger_sfreq, trigger_sr, smoothAll_phase, smoothAll_sfreq, smoothAll_sr]
    at hphase hsfreq hsr
  have hnext : nextPhase (config nan') e1.phase e1.sfreq e1.sr =
      nextPhase (config nan) e1.phase e1.sfreq e1.sr := by
    rw [hphase, hsfreq, hsr]
    exact nextPhase_congr hn h.phase (isNaN_smooth h.freq h.sfreq) h.rate.1 h.rate.2
  rw [← trigger_config nan nan', ← smoothAll_congr hn hn' h] at hcross'
  refine ⟨_, sampleStep_eq_ok.2 ⟨y', e1, _, hcross', writePath_eq_ok.2 ⟨hcur, rfl⟩, rfl⟩, rfl,
    mul nan' y' e1.sgain, freeOnlyAsResult_mul.sameOrFree hn hn' hy .refl, ?_⟩
  simp only [lfoAdvance, output, hnext]
  rfl

/-- PROCESS under both choices. -/
theorem process_sameButOutputs (h : Inv e) {bits : F32} {w : Word} {r : Engine F32}
    (hr : process (config nan) bits w e = .ok r) :
    ∃ r', process (config nan') bits w e = .ok r' ∧ SameButOutputs nan nan' r r' := by
  rcases process_eq_ok.1 hr with ⟨hp, rfl⟩ | ⟨hp, e1, hs, rfl⟩
  · refine ⟨_, process_eq_ok.2 (.inl ⟨hp, rfl⟩), SameButOutputs.report ?_ _ _⟩
    exact ⟨h.outputs, e.outL, .refl, (withOutputs_self h.outputs).symm⟩
  · rw [inputSample_config nan, ← inputSample_config nan'] at hs
    obtain ⟨e1', hs', hsame⟩ := sampleStep_sameButOutputs hn hn' (finiteOperands_of_inv h hp) hs
    exact ⟨_, process_eq_ok.2 (.inr ⟨hp, e1', hs', rfl⟩), hsame.report _ _⟩

end SampleStep

/-- Settles O56: the outputs are the one place where the two choices can differ, and they differ only in being
each choice's NaN. -/
theorem naNReachesOnlyOutputs : Obligations.NaNReachesOnlyOutputs := by
  intro nan nan' bits w e r hinv hn hn' hr
  obtain ⟨r', hr', hout, v', hv, rfl⟩ := process_sameButOutputs hn hn' hinv hr
  refine ⟨_, hr', rfl, fun hnot => ?_⟩
  rw [hv.eq_of_not_nan hn hnot]
  exact withOutputs_self hout

end Sys2Proof.Machine
end

/-! SUPPORT. The F32 operations keep the numeric order of exact results (R9, R12), so an operation on operands
between bounds lies between the operation's results at the bounds. -/

section
namespace Sys2Proof.Binary32

open Sys2Proof.Machine

section Order

variable {nan x x' y y' : F32}

/-- A magnitude pattern's place in the numeric order: its value, and for the infinity past every value. -/
def orderMag (m : ℕ) : ℕ := if m = infMag then 2 ^ 278 else magUnits m

theorem orderMag_zero : orderMag 0 = 0 := by decide

theorem orderMag_mono {m m' : ℕ} (h : m ≤ m') (h' : m' ≤ infMag) : orderMag m ≤ orderMag m' := by
  have hinf : magUnits infMag ≤ 2 ^ 278 := by decide +kernel
  unfold orderMag
  split_ifs with hm hm'
  · exact le_rfl
  · omega
  · exact (magUnits_le.2 (h.trans h')).trans hinf
  · exact magUnits_le.2 h

theorem orderKey_of_inf {b : F32} {neg : Bool} (h : unpack b = .inf neg) :
    orderKey b = some (signed neg (2 ^ 278)) := by
  rw [orderKey, h]

theorem orderKey_of_fin {b : F32} {neg : Bool} {u : ℕ} (h : unpack b = .fin neg u) :
    orderKey b = some (signed neg u) := by
  rw [orderKey, h]

/-- A rounded pattern has the place of its magnitude, with its sign. -/
theorem orderKey_pack (s : Bool) {m : ℕ} (h : m ≤ infMag) :
    orderKey (pack s m) = some (signed s (orderMag m)) := by
  rcases h.lt_or_eq with hlt | rfl
  · rw [orderKey_of_fin (unpack_pack_fin hlt), orderMag, if_neg hlt.ne]
  · rw [← infinity, orderKey_of_inf (unpack_infinity s), orderMag, if_pos rfl]

/-- Rounding keeps the order of exact signed fractions, up to the infinities. -/
theorem le_roundTo {s s' : Bool} {n n' d d' : ℕ} (hd : 0 < d) (hd' : 0 < d')
    (h : signed s n * d' ≤ signed s' n' * d) : le (roundTo s n d) (roundTo s' n' d') = true := by
  rw [le, roundTo, roundTo, orderKey_pack s (roundMag_le_infMag n d),
    orderKey_pack s' (roundMag_le_infMag n' d'), decide_eq_true_eq]
  have hup (hle : n * d' ≤ n' * d) : orderMag (roundMag n d) ≤ orderMag (roundMag n' d') :=
    orderMag_mono (roundMag_mono hd hd' hle) (roundMag_le_infMag _ _)
  have hdown (hle : n' * d ≤ n * d') : orderMag (roundMag n' d') ≤ orderMag (roundMag n d) :=
    orderMag_mono (roundMag_mono hd' hd hle) (roundMag_le_infMag _ _)
  have hnonneg : (0 : ℤ) ≤ n * d' := by positivity
  have hnonneg' : (0 : ℤ) ≤ n' * d := by positivity
  cases s <;> cases s' <;> simp only [signed_false, signed_true, neg_mul] at h ⊢
  · exact_mod_cast hup (by exact_mod_cast h)
  · have hn : n = 0 := by
      have : (n : ℤ) * d' = 0 := by omega
      exact (Nat.mul_eq_zero.1 (by exact_mod_cast this)).resolve_right hd'.ne'
    have hn' : n' = 0 := by
      have : (n' : ℤ) * d = 0 := by omega
      exact (Nat.mul_eq_zero.1 (by exact_mod_cast this)).resolve_right hd.ne'
    simp [hn, hn', roundMag_zero, hd, hd', orderMag_zero]
  · omega
  · have := hdown (by exact_mod_cast neg_le_neg_iff.1 h)
    omega

/-- Addition keeps the order of the exact sums. -/
theorem le_add (hx : isFinite x = true) (hy : isFinite y = true) (hx' : isFinite x' = true)
    (hy' : isFinite y' = true) (h : units x + units y ≤ units x' + units y') :
    le (add nan x y) (add nan x' y') = true := by
  obtain ⟨s, hadd, hs⟩ := add_eq_roundTo (nan := nan) hx hy
  obtain ⟨s', hadd', hs'⟩ := add_eq_roundTo (nan := nan) hx' hy'
  rw [hadd, hadd']
  exact le_roundTo one_pos one_pos (by rw [hs, hs']; omega)

/-- Subtraction keeps the order of the exact differences. -/
theorem le_sub (hx : isFinite x = true) (hy : isFinite y = true) (hx' : isFinite x' = true)
    (hy' : isFinite y' = true) (h : units x - units y ≤ units x' - units y') :
    le (sub nan x y) (sub nan x' y') = true := by
  refine le_add hx (isFinite_negate hy) hx' (isFinite_negate hy') ?_
  rw [units_negate hy, units_negate hy']
  omega

/-- Multiplication keeps the order of the exact products. -/
theorem le_mul (hx : isFinite x = true) (hy : isFinite y = true) (hx' : isFinite x' = true)
    (hy' : isFinite y' = true) (h : units x * units y ≤ units x' * units y') :
    le (mul nan x y) (mul nan x' y') = true := by
  rw [mul_eq_roundTo hx hy, mul_eq_roundTo hx' hy']
  refine le_roundTo unitScale_pos unitScale_pos ?_
  rw [← signed_mul, ← signed_mul, ← units_of_finite hx, ← units_of_finite hy, ← units_of_finite hx',
    ← units_of_finite hy']
  exact mul_le_mul_of_nonneg_right h (Int.natCast_nonneg _)

/-- Division by positive values keeps the order of the exact quotients. -/
theorem le_div (hx : isFinite x = true) (hy : isFinite y = true) (hx' : isFinite x' = true)
    (hy' : isFinite y' = true) (hpos : 0 < units y) (hpos' : 0 < units y')
    (h : units x * units y' ≤ units x' * units y) : le (div nan x y) (div nan x' y') = true := by
  have hnum (z : F32) (hz : isFinite z = true) :
      signed (signBit z) (magUnits (magBits z) * unitScale) = units z * unitScale := by
    rw [units_of_finite hz]
    cases signBit z <;> simp
  have hden (z : F32) (hz : isFinite z = true) (h0 : 0 < units z) :
      (magUnits (magBits z) : ℤ) = units z := by
    rw [units_of_finite hz, signBit_of_units_pos hz h0, signed_false]
  have hmag := hden y hy hpos
  have hmag' := hden y' hy' hpos'
  rw [div_eq_roundTo hx hy hpos.ne', div_eq_roundTo hx' hy' hpos'.ne', signBit_of_units_pos hy hpos,
    signBit_of_units_pos hy' hpos', Bool.bne_false, Bool.bne_false]
  refine le_roundTo (by omega) (by omega) ?_
  rw [hnum x hx, hnum x' hx', hmag, hmag', mul_right_comm, mul_right_comm (units x')]
  exact mul_le_mul_of_nonneg_right h (Int.natCast_nonneg _)

/-- `toNum` keeps the order of the integers. -/
theorem le_toNum {n n' : ℕ} (h : n ≤ n') : le (toNum n) (toNum n') = true := by
  have hsign (k : ℕ) : decide ((k : ℤ) < 0) = false := decide_eq_false (by omega)
  rw [toNum, toNum, hsign, hsign, Int.natAbs_natCast, Int.natAbs_natCast]
  refine le_roundTo one_pos one_pos ?_
  rw [signed_false, signed_false]
  exact_mod_cast Nat.mul_le_mul_right 1 (Nat.mul_le_mul_right unitScale h)

end Order

/-! ### Values between bounds -/

section Between

variable {lo hi v : F32}

theorem between_iff_units (hlo : isFinite lo = true) (hhi : isFinite hi = true) :
    between lo hi v ↔ isFinite v = true ∧ units lo ≤ units v ∧ units v ≤ units hi := by
  constructor
  · intro h
    have hv := isFinite_of_between hlo hhi h
    exact ⟨hv, (le_iff_units hlo hv).1 h.1, (le_iff_units hv hhi).1 h.2⟩
  · rintro ⟨hv, h1, h2⟩
    exact ⟨(le_iff_units hlo hv).2 h1, (le_iff_units hv hhi).2 h2⟩

/-- A value in `[0, 1)`, in units. -/
theorem inUnit_iff {p : F32} :
    inUnit p = true ↔ isFinite p = true ∧ 0 ≤ units p ∧ units p < unitScale := by
  rw [isFinite_iff]
  unfold inUnit units
  cases unpack p <;> simp

end Between

end Sys2Proof.Binary32
end

/-! SUPPORT. The ranges that the data path keeps under F32: the smoother between bounds that it fixes, the clamp
between its bounds, and the phase in `[0, 1)` (R56). -/

section
namespace Sys2Proof.Binary32

open Sys2Proof.Machine

variable {nan lo hi p p' s s' : F32}

/-! ### The smoother (R112) -/

/-- `1 - K`, rounded once (R112). -/
theorem sub_one_k : sub nan 0x3F800000#32 0x3F733333#32 = 0x3D4CCCD0#32 := by
  rw [sub_nan_irrel 0#32 (by decide) (by decide)]
  decide +kernel

theorem smooth_config (nan p s : F32) :
    smooth (config nan) p s = add nan (mul nan 0x3D4CCCD0#32 p) (mul nan 0x3F733333#32 s) := by
  simp only [smooth_eq, config_add, config_mul, config_sub, config_toNum, config_cnum, config_toParams,
    toNum_one, cnum_k, sub_one_k]

/-- The two products of a smoother stay finite, for its coefficients are below 1. -/
theorem isFinite_smooth_products (hp : isFinite p = true) (hs : isFinite s = true) :
    isFinite (mul nan 0x3D4CCCD0#32 p) = true ∧ isFinite (mul nan 0x3F733333#32 s) = true :=
  ⟨isFinite_mul_of_le_one (by decide) hp (by decide +kernel),
    isFinite_mul_of_le_one (by decide) hs (by decide +kernel)⟩

/-- The smoother is monotone in both arguments (R56). -/
theorem smooth_mono (hp : isFinite p = true) (hs : isFinite s = true) (hp' : isFinite p' = true)
    (hs' : isFinite s' = true) (hpp : units p ≤ units p') (hss : units s ≤ units s') :
    le (smooth (config nan) p s) (smooth (config nan) p' s') = true := by
  obtain ⟨hfp, hfs⟩ := isFinite_smooth_products (nan := nan) hp hs
  obtain ⟨hfp', hfs'⟩ := isFinite_smooth_products (nan := nan) hp' hs'
  have hcoeff : 0 ≤ units 0x3D4CCCD0#32 ∧ 0 ≤ units 0x3F733333#32 := by decide +kernel
  have hprod := (le_iff_units hfp hfp').1
    (le_mul (by decide) hp (by decide) hp' (mul_le_mul_of_nonneg_left hpp hcoeff.1))
  have hsum := (le_iff_units hfs hfs').1
    (le_mul (by decide) hs (by decide) hs' (mul_le_mul_of_nonneg_left hss hcoeff.2))
  rw [smooth_config, smooth_config]
  exact le_add hfp hfs hfp' hfs' (add_le_add hprod hsum)

/-- The free NaN does not reach a smoother. -/
theorem smooth_nan_irrel (nan' : F32) (hp : isFinite p = true) (hs : isFinite s = true) :
    smooth (config nan) p s = smooth (config nan') p s := by
  obtain ⟨hfp, hfs⟩ := isFinite_smooth_products (nan := nan') hp hs
  rw [smooth_config, smooth_config, mul_nan_irrel nan' (by decide) hp, mul_nan_irrel nan' (by decide) hs,
    add_nan_irrel nan' hfp hfs]

/-- The six bounds of the raw ranges (R31 to R33). -/
def rangeBounds : List F32 :=
  [0x3C23D70A#32, 0x41A00000#32, 0x3A03126F#32, 0x3ECCCCCD#32, 0x3D0186E2#32, 0x41200000#32]

theorem isFinite_rangeBounds : ∀ b ∈ rangeBounds, isFinite b = true :=
  List.all_eq_true.1 (by decide)

/-- The smoother fixes each bound (R56 item 4). -/
theorem smooth_rangeBounds : ∀ b ∈ rangeBounds, smooth (config nan) b b = b := by
  intro b hb
  have hfin := isFinite_rangeBounds b hb
  have hall : rangeBounds.all (fun b => decide (smooth (config 0#32) b b = b)) = true := by decide +kernel
  rw [smooth_nan_irrel 0#32 hfin hfin]
  exact of_decide_eq_true (List.all_eq_true.1 hall b hb)

/-- The smoother keeps a range between two of the bounds (R56 item 4). -/
theorem smooth_between (hlo : lo ∈ rangeBounds) (hhi : hi ∈ rangeBounds) (hp : between lo hi p)
    (hs : between lo hi s) : between lo hi (smooth (config nan) p s) := by
  have hflo := isFinite_rangeBounds lo hlo
  have hfhi := isFinite_rangeBounds hi hhi
  obtain ⟨hfp, hlop, hphi⟩ := (between_iff_units hflo hfhi).1 hp
  obtain ⟨hfs, hlos, hshi⟩ := (between_iff_units hflo hfhi).1 hs
  have hlow := smooth_mono (nan := nan) hflo hflo hfp hfs hlop hlos
  have hhigh := smooth_mono (nan := nan) hfp hfs hfhi hfhi hphi hshi
  rw [smooth_rangeBounds lo hlo] at hlow
  rw [smooth_rangeBounds hi hhi] at hhigh
  exact ⟨hlow, hhigh⟩

/-! ### The phase (R121, R122) -/

theorem toNum_rate_pos : isFinite (toNum (41 : ℕ)) = true ∧ 0 < units (toNum (41 : ℕ)) := by decide +kernel

/-- A phase increment is at most that of 20 Hz at the rate 41, which is below 1/2 (R122). -/
theorem increment_between {f : F32} {n : ℕ} (hf : freqOk f) (hlow : 41 ≤ n) (hhigh : n ≤ 2 ^ 24) :
    between 0x00000000#32 0x3EF9C190#32 (div nan f (toNum n)) := by
  have hfreqMin : 0 ≤ units 0x3C23D70A#32 := by decide +kernel
  obtain ⟨hff, hf0, hf1⟩ := (between_iff_units (by decide) (by decide)).1 hf
  obtain ⟨hfn, -⟩ := toNum_finite_ne_zero (by omega : 1 ≤ n) hhigh
  obtain ⟨hf41, hpos41⟩ := toNum_rate_pos
  have hn := (le_iff_units hf41 hfn).1 (le_toNum hlow)
  have hbottom : div nan 0x00000000#32 (toNum (41 : ℕ)) = 0x00000000#32 := by
    rw [div_nan_irrel 0#32 (by decide) hf41 hpos41.ne']
    decide +kernel
  have htop : div nan 0x41A00000#32 (toNum (41 : ℕ)) = 0x3EF9C190#32 := by
    rw [div_nan_irrel 0#32 (by decide) hf41 hpos41.ne']
    decide +kernel
  have hzero : units 0x00000000#32 = 0 := by decide +kernel
  constructor
  · rw [← hbottom]
    refine le_div (by decide) hf41 hff hfn hpos41 (hpos41.trans_le hn) ?_
    rw [hzero, zero_mul]
    exact mul_nonneg (hfreqMin.trans hf0) hpos41.le
  · rw [← htop]
    refine le_div hff hfn (by decide) hf41 (hpos41.trans_le hn) hpos41 ?_
    exact mul_le_mul hf1 hn hpos41.le (by decide +kernel)

/-- Before the wrap the next phase is below 3/2. -/
theorem phaseSum_between {q : F32} (hp : between 0x00000000#32 0x3F800000#32 p)
    (hq : between 0x00000000#32 0x3EF9C190#32 q) :
    between 0x00000000#32 0x3FBE7064#32 (add nan p q) := by
  obtain ⟨hfp, hp0, hp1⟩ := (between_iff_units (by decide) (by decide)).1 hp
  obtain ⟨hfq, hq0, hq1⟩ := (between_iff_units (by decide) (by decide)).1 hq
  have hbottom : add nan 0x00000000#32 0x00000000#32 = 0x00000000#32 := by
    rw [add_nan_irrel 0#32 (by decide) (by decide)]
    decide +kernel
  have htop : add nan 0x3F800000#32 0x3EF9C190#32 = 0x3FBE7064#32 := by
    rw [add_nan_irrel 0#32 (by decide) (by decide)]
    decide +kernel
  constructor
  · rw [← hbottom]
    exact le_add (by decide) (by decide) hfp hfq (add_le_add hp0 hq0)
  · rw [← htop]
    exact le_add hfp hfq (by decide) (by decide) (add_le_add hp1 hq1)

/-- The wrap takes a phase in `[1, 3/2)` to `[0, 1/2)`. -/
theorem phaseWrap_between {ph : F32} (h : between 0x3F800000#32 0x3FBE7064#32 ph) :
    between 0x00000000#32 0x3EF9C190#32 (sub nan ph 0x3F800000#32) := by
  obtain ⟨hf, h0, h1⟩ := (between_iff_units (by decide) (by decide)).1 h
  have hbottom : sub nan 0x3F800000#32 0x3F800000#32 = 0x00000000#32 := by
    rw [sub_nan_irrel 0#32 (by decide) (by decide)]
    decide +kernel
  have htop : sub nan 0x3FBE7064#32 0x3F800000#32 = 0x3EF9C190#32 := by
    rw [sub_nan_irrel 0#32 (by decide) (by decide)]
    decide +kernel
  constructor
  · rw [← hbottom]
    exact le_sub (by decide) (by decide) hf (by decide) (sub_le_sub_right h0 _)
  · rw [← htop]
    exact le_sub hf (by decide) (by decide) (by decide) (sub_le_sub_right h1 _)

/-- The phase stays in `[0, 1)` at every accepted rate (R122). -/
theorem phaseOk_nextPhase {f : F32} {sr : Reg} (hp : phaseOk p) (hf : freqOk f) (hlow : 41 ≤ sr.toNat)
    (hhigh : sr.toNat ≤ 2 ^ 24) : phaseOk (nextPhase (config nan) p f sr) := by
  have hone : units 0x3F800000#32 = unitScale := by decide +kernel
  have hzero : units 0x00000000#32 = 0 := by decide +kernel
  have hhalf : units 0x3EF9C190#32 < unitScale := by decide +kernel
  obtain ⟨hfp, hp0, hp1⟩ := inUnit_iff.1 hp
  have hp' : between 0x00000000#32 0x3F800000#32 p :=
    (between_iff_units (by decide) (by decide)).2 ⟨hfp, by rwa [hzero], by rw [hone]; exact hp1.le⟩
  have hsum := phaseSum_between (nan := nan) hp' (increment_between (nan := nan) hf hlow hhigh)
  simp only [nextPhase_eq, regInt, config_add, config_div, config_sub, config_toNum, config_le, toNum_one]
  generalize add nan p (div nan f (toNum sr.toNat)) = ph at hsum ⊢
  obtain ⟨hfph, hph0, -⟩ := (between_iff_units (by decide) (by decide)).1 hsum
  rw [hzero] at hph0
  rw [phaseOk, inUnit_iff]
  split_ifs with hwrap
  · obtain ⟨hfw, hw0, hw1⟩ := (between_iff_units (by decide) (by decide)).1
      (phaseWrap_between (nan := nan) ⟨hwrap, hsum.2⟩)
    exact ⟨hfw, by rwa [hzero] at hw0, hw1.trans_lt hhalf⟩
  · rw [le_iff_units (by decide) hfph, hone, not_le] at hwrap
    exact ⟨hfph, hph0, hwrap⟩

end Sys2Proof.Binary32
end

/-! SUPPORT. The invariant of R56 over any configuration whose arithmetic keeps the legal ranges, as F32 and
REAL do: reset meets it, and every command word keeps it. Settles O34. -/

section
namespace Sys2Proof.Machine

variable {N : Type}

/-! ### What the invariant needs of an arithmetic -/

/-- The configuration has VIBCORE's parameters, and its defaults, clamp, smoother and LFO stay in the legal
ranges. -/
structure KeepsRanges (L : Legal N) (C : Config N) : Prop where
  params : C.toParams = Params.vibcore
  zero : C.toNum 0 = L.zero
  zeroPhase : L.phase (C.toNum 0)
  defFreq : L.freq (C.cnum C.defFreq)
  defWidth : L.width (C.cnum C.defWidth)
  defGain : L.gain (C.cnum C.defGain)
  clampFreq : ∀ bits, Binary32.isFinite bits = true →
    L.freq (clamp C (C.cnum C.freqMin) (C.cnum C.freqMax) (C.ofBits bits))
  clampWidth : ∀ bits, Binary32.isFinite bits = true →
    L.width (clamp C (C.cnum C.widthMin) (C.cnum C.maxWidth) (C.ofBits bits))
  clampGain : ∀ bits, Binary32.isFinite bits = true →
    L.gain (clamp C (C.cnum C.gainMin) (C.cnum C.gainMax) (C.ofBits bits))
  smoothFreq : ∀ {p s}, L.freq p → L.freq s → L.freq (smooth C p s)
  smoothWidth : ∀ {p s}, L.width p → L.width s → L.width (smooth C p s)
  smoothGain : ∀ {p s}, L.gain p → L.gain s → L.gain (smooth C p s)
  nextPhase : ∀ {p f sr}, L.phase p → L.freq f → 41 ≤ sr.toNat → sr.toNat ≤ 2 ^ 24 →
    L.phase (nextPhase C p f sr)
  input : ∀ bits, C.isPosZero (inputSample C bits) = false → L.word (inputSample C bits)
  wordNonzero : ∀ {v}, L.word v → C.isPosZero v = false

/-- Where the comparison is a linear order of values, the clamp lies between its bounds (R140). -/
theorem clamp_between {α : Type} [LinearOrder α] {C : Config N} {S : N → Prop} (val : N → α)
    (hle : ∀ x y, S x → S y → (C.le x y = true ↔ val x ≤ val y)) {lo hi v : N} (hlo : S lo) (hhi : S hi)
    (hv : S v) (h : val lo ≤ val hi) :
    C.le lo (clamp C lo hi v) = true ∧ C.le (clamp C lo hi v) hi = true := by
  have hlt : ∀ x y, S x → S y → (numLt C x y = true ↔ val x < val y) := fun x y hx hy => by
    rw [numLt, Bool.and_eq_true, Bool.not_eq_true', ← Bool.not_eq_true, hle x y hx hy, hle y x hy hx,
      lt_iff_le_not_ge]
  have hmax : S (numMax C v lo) ∧ val lo ≤ val (numMax C v lo) := by
    unfold numMax
    split_ifs with hc
    · exact ⟨hlo, le_rfl⟩
    · rw [hlt v lo hv hlo, not_lt] at hc
      exact ⟨hv, hc⟩
  obtain ⟨hS, hge⟩ := hmax
  unfold clamp numMin
  split_ifs with hc
  · exact ⟨(hle _ _ hlo hhi).2 h, (hle _ _ hhi hhi).2 le_rfl⟩
  · rw [hlt hi _ hhi hS, not_lt] at hc
    exact ⟨(hle _ _ hlo hS).2 hge, (hle _ _ hS hhi).2 hc⟩

/-! ### F32 and REAL keep the ranges -/

theorem clamp_between_f32 (nan : F32) {lo hi bits : F32} (hlo : Binary32.isFinite lo = true)
    (hhi : Binary32.isFinite hi = true) (h : Binary32.units lo ≤ Binary32.units hi)
    (hbits : Binary32.isFinite bits = true) : between lo hi (clamp (Binary32.config nan) lo hi bits) :=
  clamp_between (C := Binary32.config nan) (S := fun b => Binary32.isFinite b = true) Binary32.units
    (fun _ _ hx hy => Binary32.le_iff_units hx hy) hlo hhi hbits h

theorem keepsRanges_f32 (nan : F32) : KeepsRanges Legal.f32 (Binary32.config nan) where
  params := rfl
  zero := Binary32.toNum_zero
  zeroPhase := by
    rw [Binary32.config_toNum, Binary32.toNum_zero]
    exact (by decide +kernel : Binary32.inUnit 0x00000000#32 = true)
  defFreq := (⟨by decide +kernel, by decide +kernel⟩ : freqOk (Binary32.cnum Params.vibcore.defFreq))
  defWidth := (⟨by decide +kernel, by decide +kernel⟩ : widthOk (Binary32.cnum Params.vibcore.defWidth))
  defGain := (⟨by decide +kernel, by decide +kernel⟩ : gainOk (Binary32.cnum Params.vibcore.defGain))
  clampFreq bits hbits := by
    simp only [Binary32.config_toParams, Binary32.config_cnum, Binary32.cnum_freqMin, Binary32.cnum_freqMax]
    exact clamp_between_f32 nan (by decide) (by decide) (by decide +kernel) hbits
  clampWidth bits hbits := by
    simp only [Binary32.config_toParams, Binary32.config_cnum, Binary32.cnum_widthMin,
      Binary32.cnum_maxWidth]
    exact clamp_between_f32 nan (by decide) (by decide) (by decide +kernel) hbits
  clampGain bits hbits := by
    simp only [Binary32.config_toParams, Binary32.config_cnum, Binary32.cnum_gainMin, Binary32.cnum_gainMax]
    exact clamp_between_f32 nan (by decide) (by decide) (by decide +kernel) hbits
  smoothFreq := Binary32.smooth_between (by decide) (by decide)
  smoothWidth := Binary32.smooth_between (by decide) (by decide)
  smoothGain := Binary32.smooth_between (by decide) (by decide)
  nextPhase := Binary32.phaseOk_nextPhase
  input bits h := by
    have hne : inputSample (Binary32.config nan) bits ≠ 0#32 := fun h0 => by
      rw [(Binary32.config_isPosZero nan _).2 h0] at h
      cases h
    refine ⟨hne, ?_⟩
    rw [inputSample_config]
    split_ifs with hfin
    · exact hfin
    · decide
  wordNonzero hv := Bool.eq_false_iff.2 (mt (Binary32.config_isPosZero nan _).1 hv.1)

theorem clamp_between_real {lo hi : ℝ} (h : lo ≤ hi) (v : ℝ) :
    lo ≤ clamp Reals.config lo hi v ∧ clamp Reals.config lo hi v ≤ hi := by
  have hclamp := clamp_between (C := Reals.config) (S := fun _ => True) id
    (fun x y _ _ => Reals.config_le x y) (lo := lo) (hi := hi) (v := v) trivial trivial trivial h
  rwa [Reals.config_le, Reals.config_le] at hclamp

/-- One smoothing is a convex combination (R113). -/
theorem smooth_between_real {lo hi p s : ℝ} (hp : lo ≤ p ∧ p ≤ hi) (hs : lo ≤ s ∧ s ≤ hi) :
    lo ≤ smooth Reals.config p s ∧ smooth Reals.config p s ≤ hi := by
  obtain ⟨hlop, hphi⟩ := hp
  obtain ⟨hlos, hshi⟩ := hs
  rw [smooth_eq]
  norm_num [Params.vibcore]
  constructor <;> linarith

/-- At an accepted rate the increment is below 1/2, so one subtraction wraps the phase (R122). -/
theorem nextPhase_real {p f : ℝ} {sr : Reg} (hp : 0 ≤ p ∧ p < 1) (hf : 0 ≤ f ∧ f ≤ 20)
    (hsr : 41 ≤ sr.toNat) :
    0 ≤ nextPhase Reals.config p f sr ∧ nextPhase Reals.config p f sr < 1 := by
  obtain ⟨hp0, hp1⟩ := hp
  have hrate : (41 : ℝ) ≤ sr.toNat := by exact_mod_cast hsr
  have hlow : 0 ≤ f / sr.toNat := div_nonneg hf.1 (by linarith)
  have hhigh : f / sr.toNat ≤ 1 / 2 := by
    rw [div_le_div_iff₀ (by linarith) two_pos]
    linarith
  simp only [nextPhase_eq, regInt, Reals.config_add, Reals.config_sub, Reals.config_div,
    Reals.config_toNum, Reals.config_le, Int.cast_natCast, Int.cast_one]
  split_ifs with hwrap
  · constructor <;> linarith
  · exact ⟨by linarith, not_le.1 hwrap⟩

theorem keepsRanges_real : KeepsRanges Legal.real Reals.config where
  params := rfl
  zero := Int.cast_zero
  zeroPhase := by norm_num [Legal.real]
  defFreq := by norm_num [Legal.real, Params.vibcore]
  defWidth := by norm_num [Legal.real, Params.vibcore]
  defGain := by norm_num [Legal.real, Params.vibcore]
  clampFreq bits _ := by
    simpa [Legal.real, Params.vibcore] using
      clamp_between_real (by norm_num : (1 / 100 : ℝ) ≤ 20) (Reals.config.ofBits bits)
  clampWidth bits _ := by
    simpa [Legal.real, Params.vibcore] using
      clamp_between_real (by norm_num : (1 / 2000 : ℝ) ≤ 2 / 5) (Reals.config.ofBits bits)
  clampGain bits _ := by
    simpa [Legal.real, Params.vibcore] using
      clamp_between_real (by norm_num : (4244337 / 134217728 : ℝ) ≤ 10) (Reals.config.ofBits bits)
  smoothFreq := smooth_between_real
  smoothWidth := smooth_between_real
  smoothGain := smooth_between_real
  nextPhase hp hf hlow _ := nextPhase_real hp ⟨by linarith [hf.1], hf.2⟩ hlow
  input bits h h0 := by
    rw [(Reals.config_isPosZero _).2 h0] at h
    cases h
  wordNonzero hv := Bool.eq_false_iff.2 (mt (Reals.config_isPosZero _).1 hv)

/-! ### What the invariant gives -/

section Steps

variable {L : Legal N} {C : Config N} {e r : Engine N}

/-- PREPARED = 1 implies that SR is not 0 (R56 item 2). -/
theorem InvOf.sr_ne_zero_of_prepared (h : InvOf L e) (hp : e.status.prepared = true) : e.sr ≠ 0#32 := by
  intro h0
  rw [(h.unsized h0).prepared] at hp
  cases hp

/-- A transition lasts at least 8 samples (R152). -/
theorem Sized.tlen_pos (h : Sized L e) : 0 < e.tlen.toNat := by
  have := h.rateLow
  rw [h.tlen]
  omega

/-- The capacity of an accepted rate is within `MAX_CAPACITY` (R152, R153). -/
theorem Sized.cap_le (h : Sized L e) : e.cap.toNat ≤ 131072 := by
  have := h.rateHigh
  rw [h.cap]
  omega

/-- The buffer is in canonical form: a legal word is not +0 (log 3). -/
theorem InvOf.canonical (hC : KeepsRanges L C) (h : InvOf L e) : Canonical C.isPosZero e.buf :=
  ⟨h.buf, fun c hc => hC.wordNonzero (h.words c hc).2⟩

/-! ### The report and the setters keep the invariant -/

theorem ResultCode.code_lt (c : ResultCode) : c.code.toNat < 8 := by cases c <;> decide

theorem Cause.code_lt (c : Cause) : c.code.toNat < 7 := by cases c <;> decide

theorem InvOf.report (h : InvOf L e) (c : ResultCode) (w : Word) : InvOf L (report c w e) := by
  rw [report_eq]
  exact { h with
    sized := fun hsr => { h.sized hsr with }
    unsized := fun h0 => { h.unsized h0 with }
    last := c.code_lt
    capture := fun hs => by
      obtain ⟨hsticky, hc⟩ := Bool.or_eq_false_iff.1 hs
      simpa [hc] using h.capture hsticky }

theorem InvOf.putFreq (h : InvOf L e) {v : N} (hv : L.freq v) : InvOf L (putFreq v e) :=
  { h with
    freq := hv
    sized := fun hsr => { h.sized hsr with }
    unsized := fun h0 => { h.unsized h0 with } }

theorem InvOf.putWidth (h : InvOf L e) {v : N} (hv : L.width v) : InvOf L (putWidth v e) :=
  { h with
    width := hv
    sized := fun hsr => { h.sized hsr with }
    unsized := fun h0 => { h.unsized h0 with } }

theorem InvOf.putGain (h : InvOf L e) {v : N} (hv : L.gain v) : InvOf L (putGain v e) :=
  { h with
    gain := hv
    sized := fun hsr => { h.sized hsr with }
    unsized := fun h0 => { h.unsized h0 with } }

/-- A setter keeps the invariant when the clamped values of its register are legal (R140). -/
theorem InvOf.setParam (h : InvOf L e) {put : N → Engine N → Engine N} {lo hi : N} (bits : F32) (w : Word)
    (hput : Binary32.isFinite bits = true → InvOf L (put (clamp C lo hi (C.ofBits bits)) e)) :
    InvOf L (setParam C put lo hi bits w e) := by
  rcases setParam_cases C put lo hi bits w e with ⟨hfin, heq⟩ | ⟨-, heq⟩ <;> rw [heq]
  · exact (hput hfin).report _ _
  · exact h.report _ _

/-! ### PREPARE keeps the invariant -/

/-- The rates that PREPARE accepts (R153). -/
theorem rate_of_prepareCheck {sr : ℕ} (h : prepareCheck Params.vibcore sr = none) : 41 ≤ sr ∧ sr ≤ 218453 := by
  simp only [prepareCheck, capacityOf_vibcore, transitionOf_vibcore, reachOf_vibcore] at h
  split_ifs at h with h0 hmax hcap hreach htlen hphase
  simp only [Params.vibcore] at hcap hphase
  omega

/-- A rejected PREPARE keeps the registers of the last accepted one (R155). -/
theorem InvOf.prepare_rejected (h : InvOf L e) (cause : Cause) : InvOf L (setPrepared false cause.code e) :=
  { h with
    sized := fun hsr => { h.sized hsr with }
    unsized := fun h0 => { h.unsized h0 with prepared := rfl }
    cause := cause.code_lt }

/-- An accepted PREPARE sets the sizes of its rate and copies the raw parameters (R151, R154). -/
theorem InvOf.prepare_accepted (hC : KeepsRanges L C) (h : InvOf L e) {sr : BitVec 32} (blk : BitVec 24)
    (hsr : prepareCheck C.toParams sr.toNat = none) :
    InvOf L (setPrepared true 0#4 (prepareInit C (setSizes C.toParams sr blk e))) := by
  rw [hC.params] at hsr ⊢
  obtain ⟨hlow, hhigh⟩ := rate_of_prepareCheck hsr
  have hne : sr ≠ 0#32 := fun h0 => by
    rw [h0] at hlow
    exact absurd hlow (by decide)
  have hcap : (BitVec.ofNat 32 (capacityOf Params.vibcore sr.toNat)).toNat = (3 * sr.toNat + 4) / 5 := by
    rw [capacityOf_vibcore, BitVec.toNat_ofNat]
    omega
  have htlen : (BitVec.ofNat 32 (transitionOf Params.vibcore sr.toNat)).toNat = sr.toNat / 5 := by
    rw [transitionOf_vibcore, BitVec.toNat_ofNat]
    omega
  have hsized : Sized L (setPrepared true 0#4 (prepareInit C (setSizes Params.vibcore sr blk e))) :=
    { rateLow := hlow, rateHigh := hhigh, cap := hcap, tlen := htlen
      wcur := by
        refine lt_of_lt_of_eq ?_ hcap.symm
        change 0 < _
        omega
      sfreq := h.freq, swidth := h.width, sgain := h.gain, aw := h.width, pw := h.width }
  exact {
    freq := h.freq, width := h.width, gain := h.gain
    sized := fun _ => hsized
    unsized := fun h0 => absurd h0 hne
    phase := hC.zeroPhase
    trans := fun ht => by cases ht
    idle := fun _ => rfl
    cnt := Nat.zero_le _
    maxblk := by
      have := blk.isLt
      simp only [setPrepared_maxblk, prepareInit_maxblk, setSizes_maxblk, BitVec.toNat_setWidth]
      omega
    buf := h.buf.filter _
    words := fun c hc => h.words c (List.mem_of_mem_filter hc)
    outputs := rfl
    last := h.last
    cause := (by decide : (0#4).toNat < 7)
    capture := h.capture }

theorem InvOf.prepare (hC : KeepsRanges L C) (h : InvOf L e) (sr : BitVec 32) (blk : BitVec 24) (w : Word) :
    InvOf L (prepare C sr blk w e) := by
  rcases prepare_cases C sr blk w e with ⟨hsr, heq⟩ | ⟨cause, -, heq⟩ <;> rw [heq]
  · exact (h.prepare_accepted hC blk hsr).report _ _
  · exact (h.prepare_rejected cause).report _ _

/-! ### The stages of a sample step keep the invariant, once a PREPARE has been accepted -/

/-- The smoothers move the smoothed values between themselves and the raw ones (R56 item 4). -/
theorem InvOf.smoothAll (hC : KeepsRanges L C) (h : InvOf L e) (hsr : e.sr ≠ 0#32) :
    InvOf L (smoothAll C e) :=
  { h with
    sized := fun _ => { h.sized hsr with
      sfreq := hC.smoothFreq h.freq (h.sized hsr).sfreq
      swidth := hC.smoothWidth h.width (h.sized hsr).swidth
      sgain := hC.smoothGain h.gain (h.sized hsr).sgain }
    unsized := fun h0 => absurd h0 hsr }

/-- The trigger copies AW and SWIDTH, both in the width range, and starts the counter at 0 (R114). -/
theorem InvOf.trigger (h : InvOf L e) (hsr : e.sr ≠ 0#32) : InvOf L (trigger C e) := by
  rcases trigger_cases C e with ⟨-, -, heq⟩ | ⟨-, heq⟩ <;> rw [heq]
  · exact { h with
      sized := fun _ => { h.sized hsr with aw := (h.sized hsr).swidth, pw := (h.sized hsr).aw }
      unsized := fun h0 => absurd h0 hsr
      trans := fun _ => (h.sized hsr).tlen_pos
      idle := fun ht => by cases ht
      cnt := Nat.zero_le _ }
  · exact h

/-- The count ends at the transition's length, where the crossfader turns Idle (R116). -/
theorem InvOf.countStep (h : InvOf L e) (hsr : e.sr ≠ 0#32) (hcnt : e.cnt.toNat < e.tlen.toNat) :
    InvOf L (countStep e) := by
  have hlt := e.tlen.isLt
  have hnext : (e.cnt + 1#32).toNat = e.cnt.toNat + 1 := by
    rw [BitVec.toNat_add, BitVec.toNat_ofNat]
    omega
  have hle : (e.cnt + 1#32).toNat ≤ e.tlen.toNat := by omega
  unfold Machine.countStep
  split_ifs with hend
  · exact { h with
      sized := fun _ => { h.sized hsr with pw := (h.sized hsr).aw }
      unsized := fun h0 => absurd h0 hsr
      trans := fun ht => by cases ht
      idle := fun _ => rfl
      cnt := hle }
  · exact { h with
      sized := fun _ => { h.sized hsr with }
      unsized := fun h0 => absurd h0 hsr
      trans := fun _ => lt_of_le_of_ne hle fun heq => hend (BitVec.eq_of_toNat_eq heq)
      cnt := hle }

theorem InvOf.crossfade {y : N} (h : InvOf L e) (hsr : e.sr ≠ 0#32) (hr : crossfade C e = .ok (y, r)) :
    InvOf L r ∧ r.sr = e.sr := by
  obtain ⟨ya, -, ⟨-, heq⟩ | ⟨-, yp, -, hcnt, heq⟩⟩ := crossfade_eq_ok.1 hr <;>
    obtain ⟨-, rfl⟩ := Prod.mk.injEq .. ▸ heq
  · exact ⟨h, rfl⟩
  · exact ⟨h.countStep hsr hcnt, countStep_sr e⟩

theorem InvOf.output (h : InvOf L e) (hsr : e.sr ≠ 0#32) (y : N) : InvOf L (output C y e) :=
  { h with
    sized := fun _ => { h.sized hsr with }
    unsized := fun h0 => absurd h0 hsr
    outputs := rfl }

/-- The write path stays inside the buffer and stores the finite input (R62, R100). -/
theorem InvOf.writePath (hC : KeepsRanges L C) {x : N} (hx : C.isPosZero x = false → L.word x)
    (h : InvOf L e) (hsr : e.sr ≠ 0#32) (hr : writePath C x e = .ok r) : InvOf L r := by
  obtain ⟨hcur, rfl⟩ := writePath_eq_ok.1 hr
  have hcap := (h.sized hsr).cap_le
  exact { h with
    sized := fun _ => { h.sized hsr with
      wcur := by
        have := Nat.mod_lt (e.wcur.toNat + 1) (by omega : 0 < e.cap.toNat)
        rw [BitVec.toNat_ofNat]
        exact (Nat.mod_le _ _).trans_lt this }
    unsized := fun h0 => absurd h0 hsr
    buf := (canonical_bufInsert _ x (h.canonical hC)).1
    words := fun c hc => by
      rcases mem_bufInsert hc with ⟨rfl, hnz⟩ | hc
      · exact ⟨by simp only; omega, hx hnz⟩
      · exact h.words c hc }

theorem InvOf.lfoAdvance (hC : KeepsRanges L C) (h : InvOf L e) (hsr : e.sr ≠ 0#32) :
    InvOf L (lfoAdvance C e) :=
  { h with
    sized := fun _ => { h.sized hsr with }
    unsized := fun h0 => absurd h0 hsr
    phase := hC.nextPhase h.phase (h.sized hsr).sfreq (h.sized hsr).rateLow
      ((h.sized hsr).rateHigh.trans (by norm_num)) }

theorem InvOf.sampleStep (hC : KeepsRanges L C) (bits : F32) (h : InvOf L e) (hsr : e.sr ≠ 0#32)
    (hr : sampleStep C (inputSample C bits) e = .ok r) : InvOf L r := by
  obtain ⟨y, e1, e2, hcross, hwrite, rfl⟩ := sampleStep_eq_ok.1 hr
  have hsmooth := h.smoothAll hC hsr
  have htrigger := hsmooth.trigger (C := C) hsr
  obtain ⟨h1, hsr1⟩ := htrigger.crossfade (by simpa using hsr) hcross
  have hne : e1.sr ≠ 0#32 := by rw [hsr1]; simpa using hsr
  have h2 := (h1.output (C := C) hne y).writePath hC (hC.input bits) hne hwrite
  obtain ⟨-, rfl⟩ := writePath_eq_ok.1 hwrite
  exact h2.lfoAdvance hC hne

theorem InvOf.process (hC : KeepsRanges L C) (h : InvOf L e) {bits : F32} {w : Word}
    (hr : process C bits w e = .ok r) : InvOf L r := by
  rcases process_eq_ok.1 hr with ⟨-, rfl⟩ | ⟨hp, e1, hs, rfl⟩
  · exact h.report _ _
  · exact (h.sampleStep hC bits (h.sr_ne_zero_of_prepared hp) hs).report _ _

/-! ### Reset, and every command word -/

theorem invOf_reset (hC : KeepsRanges L C) : InvOf L (Engine.reset C) where
  freq := hC.defFreq
  width := hC.defWidth
  gain := hC.defGain
  sized hsr := absurd rfl hsr
  unsized _ := {
    prepared := rfl, trans := rfl, maxblk := rfl, cap := rfl, tlen := rfl, wcur := rfl, cnt := rfl
    phase := hC.zero, sfreq := hC.zero, swidth := hC.zero, sgain := hC.zero, aw := hC.zero, pw := hC.zero
    outL := hC.zero }
  phase := hC.zeroPhase
  trans ht := by cases ht
  idle _ := rfl
  cnt := le_rfl
  maxblk := (by decide : (0#32).toNat < 2 ^ 24)
  buf := .nil
  words c hc := by cases hc
  outputs := rfl
  last := (by decide : (0#4).toNat < 8)
  cause := (by decide : (0#4).toNat < 7)
  capture _ := ⟨rfl, rfl⟩

theorem InvOf.runInstr (hC : KeepsRanges L C) (h : InvOf L e) {i : Instr} {w : Word}
    (hr : runInstr C i w e = .ok r) : InvOf L r := by
  cases i with
  | nop => cases hr; exact h.report _ _
  | prepare sr blk => cases hr; exact h.prepare hC sr blk w
  | process bits => exact h.process hC hr
  | setfreq bits => cases hr; exact h.setParam bits w fun hfin => h.putFreq (hC.clampFreq bits hfin)
  | setwidth bits => cases hr; exact h.setParam bits w fun hfin => h.putWidth (hC.clampWidth bits hfin)
  | setgain bits => cases hr; exact h.setParam bits w fun hfin => h.putGain (hC.clampGain bits hfin)

theorem InvOf.runWord (hC : KeepsRanges L C) (h : InvOf L e) {w : Word} (hr : runWord C w e = .ok r) :
    InvOf L r := by
  unfold Machine.runWord at hr
  cases hd : decode w with
  | illegal => rw [hd] at hr; cases hr; exact h.report _ _
  | reserved => rw [hd] at hr; cases hr; exact h.report _ _
  | instr i => rw [hd] at hr; exact h.runInstr hC hr

end Steps

theorem inv_reset : Inv State.reset.toEngine := invOf_reset (keepsRanges_f32 0x7FC00000#32)

theorem step_keeps_inv {s t : State} (h : Inv s.toEngine) (hs : step s = .next t) : Inv t.toEngine := by
  cases hp : s.pending with
  | nil =>
    rw [step_idle hp] at hs
    cases hs
    exact h
  | cons ev rest =>
    cases ev with
    | reset =>
      rw [step_reset hp] at hs
      rw [← Host.Outcome.next.inj hs, hardwareReset_toEngine]
      exact inv_reset
    | command w =>
      obtain ⟨n, heq⟩ := step_eq_withEngine_runWord hp
      rw [heq] at hs
      obtain ⟨e, he, rfl⟩ := withEngine_eq_next.1 hs
      exact h.runWord (keepsRanges_f32 (freeNaN s)) he

/-- Settles O34: F32 and REAL both keep the legal ranges, so in both every command word keeps the invariant. -/
theorem stepKeepsInvariant : Obligations.StepKeepsInvariant :=
  ⟨fun _ _ => step_keeps_inv, fun _ _ _ h => h.runWord keepsRanges_real⟩

end Sys2Proof.Machine
end

/-! SUPPORT. What the read port shows, and STATUS as the number its fields make. Settles O12 and O13. -/

section
namespace Sys2Proof.Machine

/-- Above the map every address is reserved (R54). -/
theorem portValue_reserved {N : Type} (C : Config N) (e : Engine N) {a : BitVec 8} (h : 0x16 ≤ a.toNat) :
    portValue C e a = .word 0#32 := by
  unfold portValue
  split
  case h_23 => rfl
  all_goals omega

/-- Settles O12: the rows of the map by its definition, and the reserved addresses by
`portValue_reserved`. -/
theorem readPortMap : Obligations.ReadPortMap := by
  intro s
  refine ⟨rfl, rfl, rfl, rfl, rfl, rfl, rfl, rfl, rfl, rfl, rfl, rfl, rfl, rfl, rfl, rfl, rfl, rfl, rfl, rfl,
    rfl, rfl, fun a ha => ?_, fun a b => rfl⟩
  rw [readPort, portValue_reserved _ _ ha]
  rfl

/-- Placing `y` at bit `k`, above all of `x`, adds it there. -/
theorem toNat_or_shiftLeft {x y : Reg} {k : ℕ} (hx : x.toNat < 2 ^ k) (hy : y.toNat * 2 ^ k < 2 ^ 32) :
    (x ||| y <<< k).toNat = x.toNat + y.toNat * 2 ^ k := by
  rw [BitVec.toNat_or, BitVec.toNat_shiftLeft, Nat.shiftLeft_eq, Nat.mod_eq_of_lt hy, Nat.or_comm,
    ← Nat.shiftLeft_eq, ← Nat.shiftLeft_add_eq_or_of_lt hx, Nat.shiftLeft_eq, Nat.add_comm]

theorem bit_toNat (b : Bool) : (bit b).toNat = b.toNat := by cases b <;> rfl

/-- STATUS as read, as a number: the fields at their places, and nothing else (R50). -/
theorem statusWord_toNat (st : Status) :
    st.word.toNat = st.prepared.toNat + st.trans.toNat * 2 ^ 1 + st.last.toNat * 2 ^ 4
      + st.cfgCause.toNat * 2 ^ 8 + st.sticky.toNat * 2 ^ 16 := by
  have hprepared := st.prepared.toNat_lt
  have htrans := st.trans.toNat_lt
  have hsticky := st.sticky.toNat_lt
  have hlast := st.last.isLt
  have hcause := st.cfgCause.isLt
  have hwide : ∀ v : BitVec 4, (v.setWidth 32).toNat = v.toNat := fun v => by
    rw [BitVec.toNat_setWidth]; omega
  have h1 := toNat_or_shiftLeft (x := bit st.prepared) (y := bit st.trans) (k := 1)
    (by rw [bit_toNat]; omega) (by rw [bit_toNat]; omega)
  have h4 := toNat_or_shiftLeft (x := bit st.prepared ||| bit st.trans <<< 1)
    (y := st.last.setWidth 32) (k := 4) (by rw [h1, bit_toNat, bit_toNat]; omega) (by rw [hwide]; omega)
  have h8 := toNat_or_shiftLeft
    (x := bit st.prepared ||| bit st.trans <<< 1 ||| st.last.setWidth 32 <<< 4)
    (y := st.cfgCause.setWidth 32) (k := 8) (by rw [h4, h1, bit_toNat, bit_toNat, hwide]; omega)
    (by rw [hwide]; omega)
  rw [Status.word, toNat_or_shiftLeft _ (by rw [bit_toNat]; omega), h8, h4, h1]
  · simp only [bit_toNat, hwide]
  · rw [h8, h4, h1, bit_toNat, bit_toNat, hwide, hwide]; omega

/-- Settles O13: the fields are the binary digits of `statusWord_toNat`. -/
theorem statusWordLayout : Obligations.StatusWordLayout := by
  intro s
  have hword : readPort s 0x01#8 = s.status.word := rfl
  have hnat := statusWord_toNat s.status
  have hprepared := s.status.prepared.toNat_lt
  have htrans := s.status.trans.toNat_lt
  have hsticky := s.status.sticky.toNat_lt
  have hlast := s.status.last.isLt
  have hcause := s.status.cfgCause.isLt
  rw [hword]
  simp only [← BitVec.toNat_inj, BitVec.extractLsb'_toNat, Nat.shiftRight_eq_div_pow, BitVec.toNat_ofBool,
    BitVec.toNat_ofNat, hnat]
  refine ⟨?_, ?_, ?_, ?_, ?_, ?_, ?_, ?_⟩ <;> omega

end Sys2Proof.Machine
end

/-! SUPPORT. A stream of command words as a fold of what each word does to a part of the engine, for any part whose
next value is a function of its old value and the word (R2, R69). -/

section
namespace Sys2Proof.Machine

/-- A run that completes is a step that completes and a run of the rest. -/
theorem run_succ_eq_next {M : Host.Core} {k : Nat} {s t : M.State} :
    M.run (k + 1) s = .next t ↔ ∃ s', M.step s = .next s' ∧ M.run k s' = .next t := by
  rw [Host.Core.run]
  cases M.step s <;> simp

/-- With the stream taken, the run is over (R175). -/
theorem runEvents_nil {s t : State} :
    runEvents (commandEvents []) s = .next t ↔ t = { s with pending := [] } :=
  ⟨fun h => (Host.Outcome.next.inj h).symm, fun h => h ▸ rfl⟩

/-- A run that completes takes its first word by that word's reference semantics, and then the rest. -/
theorem runEvents_cons {w : Word} {ws : List Word} {s t : State}
    (h : runEvents (commandEvents (w :: ws)) s = .next t) :
    ∃ e n, runWord s.config w s.toEngine = .ok e ∧
      runEvents (commandEvents ws) { s with toEngine := e, nanTick := n } = .next t := by
  obtain ⟨n, hn⟩ := step_eq_withEngine_runWord
    (s := { s with pending := commandEvents (w :: ws) }) (rest := commandEvents ws) rfl
  obtain ⟨s', hstep, hrest⟩ := run_succ_eq_next.1 h
  obtain ⟨e, he, rfl⟩ := withEngine_eq_next.1 (hn.symm.trans hstep)
  exact ⟨e, n, he, hrest⟩

/-- A part of the engine that every word changes by a function `after` of that part, whatever the free NaN is, ends
as the fold of `after` over the stream. -/
theorem view_runEvents {α : Type} {view : Engine F32 → α} {after : α → Word → α}
    (hword : ∀ nan w e r, runWord (Binary32.config nan) w e = .ok r → view r = after (view e) w)
    {ws : List Word} {s t : State} (h : runEvents (commandEvents ws) s = .next t) :
    view t.toEngine = ws.foldl after (view s.toEngine) := by
  induction ws generalizing s with
  | nil => rw [runEvents_nil.1 h]; rfl
  | cons w ws ih =>
    obtain ⟨e, n, he, hrest⟩ := runEvents_cons h
    rw [ih hrest, List.foldl_cons, ← hword _ _ _ _ he]

/-! ### Merges of two streams (R70) -/

section Merges

variable {α β : Type} {xs ys zs : List α}

theorem Merge.swap (h : Merge xs ys zs) : Merge ys xs zs := by
  induction h with
  | nil => exact .nil
  | left x _ ih => exact .right x ih
  | right y _ ih => exact .left y ih

/-- Elements that change nothing can be merged in anywhere. -/
theorem Merge.foldl_eq {f : β → α → β} (h : Merge xs ys zs) (hys : ∀ y ∈ ys, ∀ b, f b y = b) (b : β) :
    zs.foldl f b = xs.foldl f b := by
  induction h generalizing b with
  | nil => rfl
  | left x _ ih => exact ih hys (f b x)
  | right y _ ih =>
    obtain ⟨hy, hys⟩ := List.forall_mem_cons.1 hys
    rw [List.foldl_cons, hy b]
    exact ih hys b

end Merges

end Sys2Proof.Machine
end

/-! SUPPORT. The buffer with what decides its writes, and the raw parameters, as two parts of the engine: each
command word changes each part by a function of that part alone, PROCESS only the first and the setters only the
second (R69, R70, R100, R140). Settles O39. -/

section
namespace Sys2Proof

/-- Decoding an instruction's word gives the instruction back (R80 to R89). -/
@[simp] theorem decode_encode (i : Instr) : decode (encode i) = .instr i := by
  cases i <;> simp [decode, encode, restField_eq_zero_iff]

namespace Machine

variable {N : Type}

/-- The delay buffer, with the registers that decide where and whether a word is written (R61, R100, R130). -/
structure BufferPart (N : Type) where
  buf : List (Nat × N)
  wcur : Reg
  cap : Reg
  prepared : Bool

/-- The raw parameters (R31 to R33). -/
structure RawPart (N : Type) where
  freq : N
  width : N
  gain : N

/-- The buffer's part of an engine. -/
def bufferPart (e : Engine N) : BufferPart N := ⟨e.buf, e.wcur, e.cap, e.status.prepared⟩

/-- The raw parameters of an engine. -/
def rawPart (e : Engine N) : RawPart N := ⟨e.freq, e.width, e.gain⟩

/-- WRITE_PATH on the buffer's part (R100). -/
def BufferPart.write (C : Config N) (x : N) (p : BufferPart N) : BufferPart N :=
  { p with buf := bufInsert C.isPosZero p.wcur.toNat x p.buf
           wcur := BitVec.ofNat 32 ((p.wcur.toNat + 1) % p.cap.toNat) }

/-- A command word on the buffer's part: a PROCESS writes its input while prepared, a PREPARE clears the words of the
new capacity or is refused, and nothing else reaches it (R100, R151, R155). -/
def BufferPart.after (C : Config N) (p : BufferPart N) (w : Word) : BufferPart N :=
  match decode w with
  | .instr (.process b) => if p.prepared then p.write C (inputSample C b) else p
  | .instr (.prepare sr _) =>
    if prepareCheck C.toParams sr.toNat = none then
      { buf := bufClear (BitVec.ofNat 32 (capacityOf C.toParams sr.toNat)).toNat p.buf
        wcur := 0#32
        cap := BitVec.ofNat 32 (capacityOf C.toParams sr.toNat)
        prepared := true }
    else { p with prepared := false }
  | _ => p

/-- A command word on the raw parameters: a setter writes the clamp of a finite operand, and nothing else reaches
them (R140). -/
def RawPart.after (C : Config N) (p : RawPart N) (w : Word) : RawPart N :=
  match decode w with
  | .instr (.setfreq b) =>
    if Binary32.isFinite b then
      { p with freq := clamp C (C.cnum C.freqMin) (C.cnum C.freqMax) (C.ofBits b) } else p
  | .instr (.setwidth b) =>
    if Binary32.isFinite b then
      { p with width := clamp C (C.cnum C.widthMin) (C.cnum C.maxWidth) (C.ofBits b) } else p
  | .instr (.setgain b) =>
    if Binary32.isFinite b then
      { p with gain := clamp C (C.cnum C.gainMin) (C.cnum C.gainMax) (C.ofBits b) } else p
  | _ => p

/-! ### The free NaN reaches neither part -/

theorem BufferPart.after_config (nan nan' : F32) (p : BufferPart F32) (w : Word) :
    p.after (Binary32.config nan) w = p.after (Binary32.config nan') w := rfl

theorem RawPart.after_config (nan nan' : F32) (p : RawPart F32) (w : Word) :
    p.after (Binary32.config nan) w = p.after (Binary32.config nan') w := rfl

/-! ### What each operation does to the two parts -/

section Parts

variable {C : Config N} {e r : Engine N}

@[simp] theorem bufferPart_report (c : ResultCode) (w : Word) (e : Engine N) :
    bufferPart (report c w e) = bufferPart e := by simp [bufferPart]

@[simp] theorem rawPart_report (c : ResultCode) (w : Word) (e : Engine N) :
    rawPart (report c w e) = rawPart e := by simp [rawPart]

/-- The crossfader reads the buffer and the cursor and changes neither (R116, R117). -/
theorem crossfade_parts {y : N} (h : crossfade C e = .ok (y, r)) :
    bufferPart r = bufferPart e ∧ rawPart r = rawPart e := by
  obtain ⟨ya, -, ⟨-, heq⟩ | ⟨-, yp, -, -, heq⟩⟩ := crossfade_eq_ok.1 h <;>
    obtain ⟨-, rfl⟩ := Prod.mk.injEq .. ▸ heq
  · exact ⟨rfl, rfl⟩
  · simp [bufferPart, rawPart]

/-- A sample step reaches the buffer by WRITE_PATH alone, and no raw parameter (R130). -/
theorem sampleStep_parts {x : N} (h : sampleStep C x e = .ok r) :
    bufferPart r = (bufferPart e).write C x ∧ rawPart r = rawPart e := by
  obtain ⟨y, e1, e2, hcross, hwrite, rfl⟩ := sampleStep_eq_ok.1 h
  obtain ⟨-, rfl⟩ := writePath_eq_ok.1 hwrite
  obtain ⟨hbuffer, hraw⟩ := crossfade_parts hcross
  have hbefore : bufferPart (trigger C (smoothAll C e)) = bufferPart e := by simp [bufferPart]
  have hrawBefore : rawPart (trigger C (smoothAll C e)) = rawPart e := by simp [rawPart]
  rw [← hbefore, ← hrawBefore, ← hbuffer, ← hraw]
  exact ⟨rfl, rfl⟩

theorem process_parts {b : F32} {w : Word} (h : process C b w e = .ok r) :
    bufferPart r = (if e.status.prepared then (bufferPart e).write C (inputSample C b) else bufferPart e) ∧
      rawPart r = rawPart e := by
  rcases process_eq_ok.1 h with ⟨hp, rfl⟩ | ⟨hp, e1, hs, rfl⟩
  · simp [hp]
  · simp [hp, sampleStep_parts hs]

theorem bufferPart_setParam {put : N → Engine N → Engine N} (hput : ∀ v, bufferPart (put v e) = bufferPart e)
    (lo hi : N) (b : F32) (w : Word) : bufferPart (setParam C put lo hi b w e) = bufferPart e := by
  rcases setParam_cases C put lo hi b w e with ⟨-, heq⟩ | ⟨-, heq⟩ <;> simp [heq, hput]

theorem rawPart_setParam (put : N → Engine N → Engine N) (lo hi : N) (b : F32) (w : Word) :
    rawPart (setParam C put lo hi b w e) =
      if Binary32.isFinite b then rawPart (put (clamp C lo hi (C.ofBits b)) e) else rawPart e := by
  rcases setParam_cases C put lo hi b w e with ⟨hfin, heq⟩ | ⟨hfin, heq⟩ <;> simp [heq, hfin]

theorem bufferPart_runWord {w : Word} (h : runWord C w e = .ok r) :
    bufferPart r = (bufferPart e).after C w := by
  unfold runWord at h
  unfold BufferPart.after
  cases hd : decode w with
  | illegal => rw [hd] at h; cases h; exact bufferPart_report ..
  | reserved => rw [hd] at h; cases h; exact bufferPart_report ..
  | instr i =>
    rw [hd] at h
    cases i with
    | nop => cases h; exact bufferPart_report ..
    | prepare sr blk =>
      cases h
      rcases prepare_cases C sr blk w e with ⟨hsr, heq⟩ | ⟨cause, hsr, heq⟩ <;>
        simp only [heq, hsr, bufferPart_report] <;> rfl
    | process b => exact (process_parts h).1
    | setfreq b => cases h; exact bufferPart_setParam (fun _ => rfl) ..
    | setwidth b => cases h; exact bufferPart_setParam (fun _ => rfl) ..
    | setgain b => cases h; exact bufferPart_setParam (fun _ => rfl) ..

theorem rawPart_runWord {w : Word} (h : runWord C w e = .ok r) : rawPart r = (rawPart e).after C w := by
  unfold runWord at h
  unfold RawPart.after
  cases hd : decode w with
  | illegal => rw [hd] at h; cases h; exact rawPart_report ..
  | reserved => rw [hd] at h; cases h; exact rawPart_report ..
  | instr i =>
    rw [hd] at h
    cases i with
    | nop => cases h; exact rawPart_report ..
    | prepare sr blk =>
      cases h
      rcases prepare_cases C sr blk w e with ⟨-, heq⟩ | ⟨cause, -, heq⟩ <;> rw [heq] <;>
        exact rawPart_report ..
    | process b => exact (process_parts h).2
    | setfreq b => cases h; exact rawPart_setParam ..
    | setwidth b => cases h; exact rawPart_setParam ..
    | setgain b => cases h; exact rawPart_setParam ..

/-! ### Each path leaves the other's part alone (R69, R70) -/

theorem BufferPart.after_setter {i : Instr} (hi : isSetter i = true) (p : BufferPart N) :
    p.after C (encode i) = p := by
  match i, hi with
  | .setfreq b, _ => simp [BufferPart.after]
  | .setwidth b, _ => simp [BufferPart.after]
  | .setgain b, _ => simp [BufferPart.after]

theorem RawPart.after_process (b : F32) (p : RawPart N) : p.after C (encode (.process b)) = p := by
  simp [RawPart.after]

end Parts

/-! ### Runs and merges -/

section Runs

variable {ws : List Word} {s t : State}

theorem bufferPart_runEvents (nan : F32) (h : runEvents (commandEvents ws) s = .next t) :
    bufferPart t.toEngine = ws.foldl (BufferPart.after (Binary32.config nan)) (bufferPart s.toEngine) :=
  view_runEvents (fun nan' w e _ hr =>
    (bufferPart_runWord hr).trans (BufferPart.after_config nan' nan (bufferPart e) w)) h

theorem rawPart_runEvents (nan : F32) (h : runEvents (commandEvents ws) s = .next t) :
    rawPart t.toEngine = ws.foldl (RawPart.after (Binary32.config nan)) (rawPart s.toEngine) :=
  view_runEvents (fun nan' w e _ hr =>
    (rawPart_runWord hr).trans (RawPart.after_config nan' nan (rawPart e) w)) h

/-- After a merge the buffer's part is what the audio path alone makes of it, and the raw parameters are what the
control path alone makes of them. -/
theorem parts_of_merge (nan : F32) {audio control : List Instr} (haudio : ∀ i ∈ audio, ∃ b, i = .process b)
    (hcontrol : ∀ i ∈ control, isSetter i = true) (hm : Merge (audio.map encode) (control.map encode) ws)
    (h : runEvents (commandEvents ws) s = .next t) :
    bufferPart t.toEngine =
        (audio.map encode).foldl (BufferPart.after (Binary32.config nan)) (bufferPart s.toEngine) ∧
      rawPart t.toEngine =
        (control.map encode).foldl (RawPart.after (Binary32.config nan)) (rawPart s.toEngine) := by
  rw [bufferPart_runEvents nan h, rawPart_runEvents nan h]
  refine ⟨hm.foldl_eq (List.forall_mem_map.2 fun i hi => ?_) _,
    hm.swap.foldl_eq (List.forall_mem_map.2 fun i hi => ?_) _⟩
  · exact BufferPart.after_setter (hcontrol i hi)
  · obtain ⟨b, rfl⟩ := haudio i hi
    exact RawPart.after_process b

end Runs

/-- Settles O39: by `parts_of_merge` both merges end with the same two parts. -/
theorem mergeOrderKeepsBuffer : Obligations.MergeOrderKeepsBuffer := by
  intro s t t' audio control ws ws' _ haudio hcontrol hm hm' h h'
  obtain ⟨hbuffer, hraw⟩ := parts_of_merge 0#32 haudio hcontrol hm h
  obtain ⟨hbuffer', hraw'⟩ := parts_of_merge 0#32 haudio hcontrol hm' h'
  obtain ⟨hbuf, hwcur, -, -⟩ := BufferPart.mk.inj (hbuffer.trans hbuffer'.symm)
  obtain ⟨hfreq, hwidth, hgain⟩ := RawPart.mk.inj (hraw.trans hraw'.symm)
  exact ⟨hbuf, hwcur, hfreq, hwidth, hgain⟩

end Machine

end Sys2Proof
end

/-! SUPPORT. A word and a register value as the list of their bytes, least significant first (R65). Settles O7. -/

section
namespace Sys2Proof

/-- Byte `k` of a bit vector: its bits `8k+7:8k`. -/
theorem toNat_byte {n : Nat} (v : BitVec n) (k : Nat) :
    (v.extractLsb' (8 * k) 8).toNat = v.toNat / 2 ^ (8 * k) % 2 ^ 8 := by
  rw [BitVec.extractLsb'_toNat, Nat.shiftRight_eq_div_pow]

theorem wordBytes_eq_map (w : Word) : wordBytes w = (List.range 8).map fun k => w.extractLsb' (8 * k) 8 := rfl

theorem regBytes_eq_map (v : Reg) : regBytes v = (List.range 4).map fun k => v.extractLsb' (8 * k) 8 := rfl

/-- Eight bytes of a word, put together again in the same order, are the word. -/
theorem wordOfBytes_wordBytes (w : Word) : wordOfBytes (wordBytes w) = some w := by
  rw [wordBytes, wordOfBytes]
  iterate 7 rw [BitVec.extractLsb'_append_extractLsb'_eq_extractLsb' (by decide)]
  exact congrArg some BitVec.extractLsb'_eq_self

/-- Settles O7, from the two lists of bytes. -/
theorem transportIsLittleEndian : Obligations.TransportIsLittleEndian := by
  refine ⟨fun w => ⟨rfl, wordOfBytes_wordBytes w, fun k hk => ?_⟩, fun v => ⟨rfl, fun k hk => ?_⟩⟩
  · rw [wordBytes_eq_map, ← toNat_byte]
    simp [hk]
  · rw [regBytes_eq_map, ← toNat_byte]
    simp [hk]

end Sys2Proof
end

/-! SUPPORT. BufRead and BufWrite at the indices in use and outside them (R61). Settles O30. -/

section
namespace Sys2Proof.Machine

variable {N : Type}

/-- The model fault of a read outside the buffer (R61, log 8). -/
theorem bufRead_outside (C : Config N) {e : Engine N} {i : Int} (h : i < 0 ∨ regInt e.cap ≤ i) :
    bufRead C e i = .error .bufferIndex := if_neg (by omega)

/-- The model fault of a write outside the buffer (R61, log 8). -/
theorem bufWrite_outside (C : Config N) {e : Engine N} {i : Int} (v : N) (h : i < 0 ∨ regInt e.cap ≤ i) :
    bufWrite C i v e = .error .bufferIndex := if_neg (by omega)

theorem bufSorted_iff_canonical (nan : F32) (e : Engine F32) :
    bufSorted e ↔ Canonical (Binary32.config nan).isPosZero e.buf := by
  simp only [bufSorted, Canonical, ← Bool.not_eq_true, Binary32.config_isPosZero, ne_eq]

/-- A read at any index after a write at `i`: the written word there, and elsewhere what it was, the model fault
included (R61). -/
theorem bufRead_bufWrite {nan v : F32} {e e' : Engine F32} {i : Int} (hs : bufSorted e)
    (h : bufWrite (Binary32.config nan) i v e = .ok e') (j : Int) :
    bufRead (Binary32.config nan) e' j = if j = i then .ok v else bufRead (Binary32.config nan) e j := by
  obtain ⟨⟨h0, hcap⟩, rfl⟩ := bufWrite_eq_ok.1 h
  have hzero : ∀ u, (Binary32.config nan).isPosZero u = true → u = (Binary32.config nan).toNum 0 := by
    simp
  have hlookup := bufLookup_bufInsert hzero ((bufSorted_iff_canonical nan e).1 hs) i.toNat v j.toNat
  by_cases hj : 0 ≤ j ∧ j < regInt e.cap
  · have hindex : j.toNat = i.toNat ↔ j = i := by omega
    simp only [bufRead, hj, and_self, if_true, hlookup, hindex]
    split_ifs <;> rfl
  · rw [if_neg (by rintro rfl; exact hj ⟨h0, hcap⟩)]
    simp only [bufRead, hj, if_false]

/-- Settles O30: the write inside by `bufRead_bufWrite`, and both faults outside. -/
theorem bufferReadAfterWrite : Obligations.BufferReadAfterWrite := by
  intro nan v e i j hs
  refine ⟨fun hi => ?_, fun hi => ⟨bufWrite_outside _ v hi, bufRead_outside _ hi⟩⟩
  have hw := (bufWrite_eq_ok (C := Binary32.config nan) (v := v)).2 ⟨hi, rfl⟩
  refine ⟨_, hw, ?_, rfl, fun hj => ?_, fun hj => ?_⟩
  · rw [bufSorted_iff_canonical nan] at hs ⊢
    exact canonical_bufInsert i.toNat v hs
  · rw [bufRead_bufWrite hs hw, if_pos hj]
  · rw [bufRead_bufWrite hs hw, if_neg hj]

end Sys2Proof.Machine
end

/-! SUPPORT. Which words decode to a command, are illegal or are reserved: by the command's own word, and by the
word's fields (R80 to R89). Settles O1, O2, O3, O4, O5 and O6. -/

section
namespace Sys2Proof

open Machine

/-- Settles O1, which `decode_encode` says of every instruction. -/
theorem decodeOfEncode : Obligations.DecodeOfEncode := fun i _ => decode_encode i

/-- Settles O2, by the fields of the word in each arm of the decoder. -/
theorem encodeOfDecode : Obligations.EncodeOfDecode := fun _ _ => encode_of_decode

/-- Decoding and encoding undo each other: exactly one word decodes to each command. -/
theorem decode_eq_instr_iff {w : Word} {i : Instr} : decode w = .instr i ↔ encode i = w :=
  ⟨encode_of_decode, fun h => h ▸ decode_encode i⟩

/-! ### Words by their fields -/

theorem packWord_inj {opc opc' : BitVec 8} {mid mid' : BitVec 24} {low low' : BitVec 32} :
    packWord opc mid low = packWord opc' mid' low' ↔ opc = opc' ∧ mid = mid' ∧ low = low' := by
  constructor
  · intro h
    exact ⟨by simpa using congrArg opcField h, by simpa using congrArg midField h,
      by simpa using congrArg lowField h⟩
  · rintro ⟨rfl, rfl, rfl⟩
    rfl

theorem packWord_eq_iff {opc : BitVec 8} {mid : BitVec 24} {low : BitVec 32} {w : Word} :
    packWord opc mid low = w ↔ opcField w = opc ∧ midField w = mid ∧ lowField w = low := by
  conv_lhs => rw [← packWord_fields w, packWord_inj]
  simp only [eq_comm]

/-- The opcode is the top byte, with nothing above it (R80). -/
theorem opcField_toNat_eq_div (w : Word) : (opcField w).toNat = w.toNat / 2 ^ 56 := by
  rw [opcField_toNat, Nat.mod_eq_of_lt (by omega)]

/-- Under format P's mask a word is compared by its opcode (R85). -/
theorem and_opcMask_eq_iff {w : Word} {opc : BitVec 8} :
    w &&& 0xFF00000000000000#64 = packWord opc 0#24 0#32 ↔ opcField w = opc := by
  conv_lhs => rw [← packWord_fields w, Laws.packWord_and_opc, packWord_inj]
  simp

/-- Under format V's mask a word is compared by its opcode and its reserved field (R85). -/
theorem and_opcMidMask_eq_iff {w : Word} {opc : BitVec 8} :
    w &&& 0xFFFFFFFF00000000#64 = packWord opc 0#24 0#32 ↔ opcField w = opc ∧ midField w = 0#24 := by
  conv_lhs => rw [← packWord_fields w, Laws.packWord_and_opcMid, packWord_inj]
  simp

/-! ### What a word decodes to, by its fields -/

/-- A word whose row is format P's: any operands (R82). -/
theorem exists_decode_eq_prepare_iff {w : Word} :
    (∃ sr blk, decode w = .instr (.prepare sr blk)) ↔ opcField w = 0x01#8 := by
  simp [decode_eq_instr_iff, encode, packWord_eq_iff]

/-- A word whose row is one of format V, where `mk` has opcode `opc`: the reserved field is 0 and any operand
(R83). -/
theorem exists_decode_eq_value_iff {mk : F32 → Instr} {opc : BitVec 8}
    (hmk : ∀ b, encode (mk b) = packWord opc 0#24 b) {w : Word} :
    (∃ b, decode w = .instr (mk b)) ↔ w &&& 0xFFFFFFFF00000000#64 = packWord opc 0#24 0#32 := by
  simp [decode_eq_instr_iff, hmk, packWord_eq_iff, and_opcMidMask_eq_iff]

/-- The first test of the decoder decides the illegal words alone (R86, R89). -/
theorem decode_eq_illegal_iff {w : Word} : decode w = .illegal ↔ 0x06#8 ≤ opcField w := by
  unfold decode
  split_ifs <;> simp [*]

/-- The reserved words: a legal opcode of format N or V, whose reserved field is not 0 (R87). -/
theorem decode_eq_reserved_iff {w : Word} :
    decode w = .reserved ↔
      opcField w = 0x00#8 ∧ restField w ≠ 0#56 ∨
        0x02#8 ≤ opcField w ∧ opcField w < 0x06#8 ∧ midField w ≠ 0#24 := by
  unfold decode
  constructor
  · intro h
    split_ifs at h with hillegal h0 hrest h1 hmid
    · exact .inl ⟨h0, hrest⟩
    · exact .inr ⟨by bv_omega, by bv_omega, hmid⟩
  · rintro (⟨h0, hrest⟩ | ⟨h2, h6, hmid⟩)
    · simp [h0, hrest]
    · rw [if_neg (by bv_omega), if_neg (by bv_omega), if_neg (by bv_omega), if_pos hmid]

/-- A word that is neither illegal nor a command is reserved (R89). -/
theorem decode_eq_reserved_iff_not {w : Word} :
    decode w = .reserved ↔ decode w ≠ .illegal ∧ ∀ i, decode w ≠ .instr i := by
  cases decode w <;> simp

/-! ### The obligations -/

/-- Settles O3: each row by the fields that its mask keeps, and the other words by the decoder's two refusals. -/
theorem decodeFollowsOpcodeTable : Obligations.DecodeFollowsOpcodeTable := by
  intro w
  have hillegal : decode w = .illegal ↔ 6 ≤ w.toNat / 2 ^ 56 := by
    rw [decode_eq_illegal_iff, BitVec.le_def, opcField_toNat_eq_div]
    rfl
  refine ⟨?nop, ?prepare, ?process, ?setfreq, ?setwidth, ?setgain, hillegal, ?reserved, ?block⟩
  case nop =>
    rw [decode_eq_instr_iff, show (0xFFFFFFFFFFFFFFFF#64 : Word) = BitVec.allOnes 64 from rfl,
      BitVec.and_allOnes]
    exact eq_comm
  case prepare => exact exists_decode_eq_prepare_iff.trans and_opcMask_eq_iff.symm
  case process => exact exists_decode_eq_value_iff (opc := 0x02#8) fun _ => rfl
  case setfreq => exact exists_decode_eq_value_iff (opc := 0x03#8) fun _ => rfl
  case setwidth => exact exists_decode_eq_value_iff (opc := 0x04#8) fun _ => rfl
  case setgain => exact exists_decode_eq_value_iff (opc := 0x05#8) fun _ => rfl
  case reserved => rw [decode_eq_reserved_iff_not, Ne, hillegal, not_le]
  case block => intro samples; simp [blockWords]

/-- Settles O4: the word is the decoded command's own, so its fields are the operands. -/
theorem decodedOperandFields : Obligations.DecodedOperandFields := by
  constructor
  · intro w sr blk h
    obtain ⟨-, rfl, rfl⟩ := packWord_eq_iff.1 (encode_of_decode h)
    exact ⟨lowField_toNat w, midField_toNat w⟩
  · intro w b h
    have hlow : lowField w = b := by
      rcases h with h | h | h | h <;> exact (packWord_eq_iff.1 (encode_of_decode h)).2.2
    rw [← hlow, lowField_toNat]

/-- Settles O5: the assembler run on each line of R92's table. -/
theorem encodingExamples : Obligations.EncodingExamples := by
  refine ⟨?_, ?_, ?_, ?_, ?_, ?_, ?_, ?_, ?_, decode_eq_illegal_iff.2 (by decide), ?_,
    decode_eq_reserved_iff.2 (by decide)⟩ <;> decide +kernel

/-- Settles O6: each word is its command's own, and the last two are refused by their opcode and reserved field. -/
theorem writtenWordsDecode : Obligations.WrittenWordsDecode :=
  ⟨decode_encode .nop, decode_encode (.prepare 48000#32 512#24), decode_encode (.process 0x3F800000#32),
    decode_encode (.setfreq 0x41A00000#32), decode_encode (.setwidth 0x3E000000#32),
    decode_encode (.setgain 0xC0400000#32), decode_eq_reserved_iff.2 (by decide),
    decode_eq_illegal_iff.2 (by decide)⟩

end Sys2Proof
end

/-! SUPPORT. The error report as the only effect of a command word: of a word that is no command (R86, R87), and
of every command that ends with an error but NONFINITE_INPUT (R163). Settles O9, O10 and O16. -/

section
namespace Sys2Proof.Machine

variable {N : Type} {C : Config N} {e r : Engine N} {w : Word}

/-- `report` of an error code is all that `reportError` writes (R161). -/
theorem report_eq_reportError {c : ResultCode} (hc : c.isError = true) (w : Word) (s : State) :
    { s with toEngine := report c w s.toEngine } = reportError c.code (wordHi w) (wordLo w) s := by
  simp only [report, hc, if_true, reportError]

/-- Settles O9: such a word decodes as illegal, and its step is that report. -/
theorem illegalWordOnlyReports : Obligations.IllegalWordOnlyReports := by
  intro s w rest hp hopc
  have hd : decode w = .illegal := by
    rw [decode_eq_illegal_iff, BitVec.le_def, opcField_toNat_eq_div]
    exact hopc
  rw [step_word hp, hd]
  exact congrArg Host.Outcome.next (report_eq_reportError (c := .illegalOpcode) rfl w _)

/-- Settles O10: opcode 1 has no reserved field, and a word whose reserved field is not 0 decodes as reserved. -/
theorem reservedWordOnlyReports : Obligations.ReservedWordOnlyReports := by
  refine ⟨fun w hopc => ?_, fun s w rest hp hfields => ?_⟩
  · rw [exists_decode_eq_prepare_iff, ← BitVec.toNat_inj, opcField_toNat_eq_div]
    exact hopc
  · have hd : decode w = .reserved := by
      rw [decode_eq_reserved_iff]
      simp only [BitVec.le_def, BitVec.lt_def, ne_eq, ← BitVec.toNat_inj, opcField_toNat_eq_div,
        restField_toNat, midField_toNat, BitVec.toNat_ofNat]
      omega
    rw [step_word hp, hd]
    exact congrArg Host.Outcome.next (report_eq_reportError (c := .reservedBits) rfl w _)

/-! ### Which commands end with an error -/

/-- An error code but NONFINITE_INPUT: that of a command that is refused (R160, R163). -/
def RefusalCode (code : BitVec 4) : Prop := 2 ≤ code.toNat ∧ code ≠ 7#4

/-- A setter's finite operand is accepted (R140). -/
theorem not_refusalCode_clampCode (lo hi v : N) : ¬ RefusalCode (clampCode C lo hi v).code := by
  unfold clampCode RefusalCode
  split <;> decide

/-- A sample step that ran is no refusal (R130). -/
theorem not_refusalCode_inputCode (bits : F32) : ¬ RefusalCode (inputCode bits).code := by
  unfold inputCode RefusalCode
  split <;> decide

/-- The engine after a refused command word: the report is the word's only effect, or it follows what a rejected
PREPARE leaves of the configuration (R155, R163). -/
inductive Refused (w : Word) (e : Engine N) : Engine N → Prop where
  | onlyReports (c : ResultCode) (hc : c ≠ .configRejected) : Refused w e (report c w e)
  | rejected (cause : Cause) : Refused w e (report .configRejected w (setPrepared false cause.code e))

theorem setParam_refused {put : N → Engine N → Engine N} {lo hi : N} {bits : F32}
    (hcode : RefusalCode (setParam C put lo hi bits w e).status.last) :
    Refused w e (setParam C put lo hi bits w e) := by
  rcases setParam_cases C put lo hi bits w e with ⟨-, heq⟩ | ⟨-, heq⟩ <;>
    rw [heq, report_status_last] at hcode <;> rw [heq]
  · exact absurd hcode (not_refusalCode_clampCode lo hi _)
  · exact .onlyReports _ (by decide)

theorem prepare_refused {sr : BitVec 32} {blk : BitVec 24}
    (hcode : RefusalCode (prepare C sr blk w e).status.last) : Refused w e (prepare C sr blk w e) := by
  rcases prepare_cases C sr blk w e with ⟨-, heq⟩ | ⟨cause, -, heq⟩ <;>
    rw [heq, report_status_last] at hcode <;> rw [heq]
  · exact absurd hcode.1 (by decide)
  · exact .rejected cause

theorem process_refused {bits : F32} (h : process C bits w e = .ok r) (hcode : RefusalCode r.status.last) :
    Refused w e r := by
  rcases process_eq_ok.1 h with ⟨-, rfl⟩ | ⟨-, e1, -, rfl⟩
  · exact .onlyReports _ (by decide)
  · rw [report_status_last] at hcode
    exact absurd hcode (not_refusalCode_inputCode bits)

/-- Every command word that ends with the code of a refusal is refused as a whole (R163). -/
theorem runWord_refused (h : runWord C w e = .ok r) (hcode : RefusalCode r.status.last) : Refused w e r := by
  unfold runWord at h
  cases hd : decode w with
  | illegal => rw [hd] at h; cases h; exact .onlyReports _ (by decide)
  | reserved => rw [hd] at h; cases h; exact .onlyReports _ (by decide)
  | instr i =>
    rw [hd] at h
    cases i with
    | nop => cases h; exact .onlyReports _ (by decide)
    | prepare sr blk => cases h; exact prepare_refused hcode
    | process bits => exact process_refused h hcode
    | setfreq bits => cases h; exact setParam_refused hcode
    | setwidth bits => cases h; exact setParam_refused hcode
    | setgain bits => cases h; exact setParam_refused hcode

theorem ResultCode.code_eq_five_iff {c : ResultCode} : c.code = 5#4 ↔ c = .configRejected := by
  cases c <;> decide

theorem Cause.code_ne_zero (cause : Cause) : cause.code ≠ 0#4 := by cases cause <;> decide

/-- Settles O16: the step is the word's reference semantics, and both ways of being refused keep the registers. -/
theorem errorsAreCompleteOrNothing : Obligations.ErrorsAreCompleteOrNothing := by
  intro s t w rest hp hs h2 h7
  obtain ⟨n, hn⟩ := step_eq_withEngine_runWord hp
  obtain ⟨r, hr, rfl⟩ := withEngine_eq_next.1 (hn.symm.trans hs)
  cases runWord_refused hr ⟨h2, h7⟩ with
  | onlyReports c hc => simp [ResultCode.code_eq_five_iff, hc]
  | rejected cause => simp [ResultCode.code, cause.code_ne_zero]

end Sys2Proof.Machine
end

/-! SUPPORT. The wraparound law: WRITE_PATH moves every word one place further behind the cursor and puts the input
directly behind it (R64, R100, R101). Settles O31. -/

section
namespace Sys2Proof.Machine

/-- A buffer's part in use that holds the inputs `xs`, latest first, behind its cursor: the word `j` behind it is the
`j`-th latest, or +0 where fewer have been written (R101). -/
structure HoldsInputs (p : BufferPart F32) (xs : List F32) : Prop where
  prepared : p.prepared = true
  cursor : p.wcur.toNat < p.cap.toNat
  canonical : Canonical (Binary32.config 0#32).isPosZero p.buf
  word : ∀ j : ℕ, 1 ≤ j → j ≤ p.cap.toNat →
    bufLookup 0#32 p.buf (circular p.cap (regInt p.wcur - j)).toNat = xs.getD (j - 1) 0#32

/-- The cursor after a write, as a circular index (R64, R100). -/
theorem regInt_cursor_next {wcur cap : Reg} (h : wcur.toNat < cap.toNat) :
    regInt (BitVec.ofNat 32 ((wcur.toNat + 1) % cap.toNat)) = circular cap (regInt wcur + 1) := by
  have hlt := Nat.mod_lt (wcur.toNat + 1) (by omega : 0 < cap.toNat)
  have hcap := cap.isLt
  rw [circular, regInt, regInt, regInt, BitVec.toNat_ofNat, Nat.mod_eq_of_lt (by omega)]
  push_cast
  rfl

/-- Counting back from the next cursor is counting one less back from the present one (R64). -/
theorem circular_cursor_next (cap : Reg) (i : ℤ) (j : ℕ) :
    circular cap (circular cap (i + 1) - (j + 1 : ℕ)) = circular cap (i - j) := by
  rw [circular, circular, Int.emod_sub_emod, circular]
  push_cast
  ring_nf

/-- The words at 1 to `CAP - 1` behind the cursor are not the one at the cursor (R101). -/
theorem circular_behind_ne {wcur cap : Reg} (h : wcur.toNat < cap.toNat) {j : ℕ} (h1 : 1 ≤ j)
    (hj : j < cap.toNat) : (circular cap (regInt wcur - j)).toNat ≠ wcur.toNat := by
  have hrange := (circular_range (Nat.zero_lt_of_lt h) (regInt wcur - j)).1
  have hcases : circular cap (regInt wcur - j) = regInt wcur - j ∨
      circular cap (regInt wcur - j) = regInt wcur - j + regInt cap := by
    unfold circular regInt
    by_cases hle : j ≤ wcur.toNat
    · exact .inl (Int.emod_eq_of_lt (by omega) (by omega))
    · right
      rw [← Int.add_emod_right]
      exact Int.emod_eq_of_lt (by omega) (by omega)
  unfold regInt at hrange hcases ⊢
  omega

/-- WRITE_PATH puts its input in front (R100). -/
theorem HoldsInputs.write {nan x : F32} {p : BufferPart F32} {xs : List F32} (h : HoldsInputs p xs) :
    HoldsInputs (p.write (Binary32.config nan) x) (x :: xs) := by
  have hcur := h.cursor
  have hself : circular p.cap (regInt p.wcur) = regInt p.wcur :=
    Int.emod_eq_of_lt (by unfold regInt; omega) (by unfold regInt; omega)
  refine ⟨h.prepared, ?_, canonical_bufInsert _ x h.canonical, fun j h1 hj => ?_⟩
  · have hnext := regInt_cursor_next hcur
    have hrange := circular_range (by omega : 0 < p.cap.toNat) (regInt p.wcur + 1)
    rw [← hnext] at hrange
    exact Int.ofNat_lt.1 hrange.2
  · obtain ⟨k, rfl⟩ : ∃ k, j = k + 1 := ⟨j - 1, by omega⟩
    change k + 1 ≤ p.cap.toNat at hj
    change bufLookup 0#32 (bufInsert (Binary32.config 0#32).isPosZero p.wcur.toNat x p.buf) (circular p.cap
      (regInt (BitVec.ofNat 32 ((p.wcur.toNat + 1) % p.cap.toNat)) - (k + 1 : ℕ))).toNat = _
    rw [bufLookup_bufInsert (fun v hv => (Binary32.config_isPosZero _ v).1 hv) h.canonical,
      regInt_cursor_next hcur, circular_cursor_next]
    cases k with
    | zero =>
      rw [Nat.cast_zero, sub_zero, hself, regInt, Int.toNat_natCast, if_pos rfl]
      rfl
    | succ k =>
      rw [if_neg (circular_behind_ne hcur (by omega) (by omega)), h.word (k + 1) (by omega) (by omega)]
      rfl

/-- The inputs that the PROCESS commands among `ws` write, in order (R130, R133). -/
def writtenInputs (ws : List Word) : List F32 :=
  (processOperands ws).map fun b => if Binary32.isFinite b then b else 0#32

/-- A word puts the input it writes in front, if it writes one. -/
theorem HoldsInputs.after {nan : F32} {p : BufferPart F32} {xs : List F32} (h : HoldsInputs p xs) {w : Word}
    (hw : notPrepare w) :
    HoldsInputs (p.after (Binary32.config nan) w) (writtenInputs [w] ++ xs) := by
  unfold BufferPart.after writtenInputs processOperands
  cases hd : decode w with
  | illegal => simpa [hd] using h
  | reserved => simpa [hd] using h
  | instr i =>
    cases i with
    | prepare sr blk => exact absurd hd (hw sr blk)
    | process b => simpa [hd, h.prepared, inputSample_config] using h.write
    | nop => simpa [hd] using h
    | setfreq b => simpa [hd] using h
    | setwidth b => simpa [hd] using h
    | setgain b => simpa [hd] using h

theorem writtenInputs_cons (w : Word) (ws : List Word) :
    writtenInputs (w :: ws) = writtenInputs [w] ++ writtenInputs ws := by
  simp only [writtenInputs, processOperands, ← List.map_append, ← List.filterMap_append, List.singleton_append]

/-- A single word writes at most one input. -/
theorem reverse_writtenInputs_singleton (w : Word) : (writtenInputs [w]).reverse = writtenInputs [w] := by
  unfold writtenInputs processOperands
  rw [List.filterMap_cons]
  split <;> rfl

/-- A stream without a PREPARE leaves its inputs behind the cursor, the latest first (R101). -/
theorem HoldsInputs.foldl {nan : F32} {ws : List Word} (hws : ∀ w ∈ ws, notPrepare w) {p : BufferPart F32}
    {xs : List F32} (h : HoldsInputs p xs) :
    HoldsInputs (ws.foldl (BufferPart.after (Binary32.config nan)) p) ((writtenInputs ws).reverse ++ xs) := by
  induction ws generalizing p xs with
  | nil => exact h
  | cons w ws ih =>
    obtain ⟨hw, hws⟩ := List.forall_mem_cons.1 hws
    rw [List.foldl_cons, writtenInputs_cons, List.reverse_append, reverse_writtenInputs_singleton,
      List.append_assoc]
    exact ih hws (h.after hw)

/-- A prepared engine with a cleared buffer holds no input yet (R154). -/
theorem holdsInputs_nil {e : Engine F32} (h : Inv e) (hp : e.status.prepared = true)
    (hclear : ∀ i, i < e.cap.toNat → bufWord e i = 0#32) : HoldsInputs (bufferPart e) [] := by
  have hcur := (h.sized (h.sr_ne_zero_of_prepared hp)).wcur
  refine ⟨hp, hcur, h.canonical (keepsRanges_f32 0#32), fun j _ _ => ?_⟩
  obtain ⟨h0, hlt⟩ := circular_range (by omega : 0 < e.cap.toNat) (regInt e.wcur - j)
  refine hclear _ ((Int.toNat_lt h0).2 hlt)

/-- Settles O31, by induction on the stream (`HoldsInputs.foldl`). -/
theorem wraparoundLaw : Obligations.WraparoundLaw := by
  intro s t ws hinv hp _ hclear hws hrun j h1 hj
  have h := (holdsInputs_nil hinv hp hclear).foldl (nan := 0#32) hws
  rw [← bufferPart_runEvents 0#32 hrun, List.append_nil] at h
  have hcur := h.cursor
  refine bufRead_eq_ok.2 ⟨circular_range (Nat.zero_lt_of_lt hcur) _, ?_⟩
  rw [State.config_eq, Binary32.config_toNum, Binary32.toNum_zero]
  exact h.word j h1 hj

end Sys2Proof.Machine
end

/-! SUPPORT. What a PROCESS does to the smoothed values, the sweep-width state and the outputs, said once over any
configuration (R112 to R120, R130). -/

section
namespace Sys2Proof.Machine

variable {N : Type}

/-- The smoothed values (R41 to R43). -/
structure SmoothedPart (N : Type) where
  sfreq : N
  swidth : N
  sgain : N

/-- The smoothed values of an engine. -/
def smoothedPart (e : Engine N) : SmoothedPart N := ⟨e.sfreq, e.swidth, e.sgain⟩

/-- The sweep-width state (R44 to R47), with the transition's length and whether a PROCESS runs. -/
structure SweepPart (N : Type) where
  aw : N
  pw : N
  cnt : Reg
  tlen : Reg
  trans : Bool
  prepared : Bool

/-- The sweep-width state of an engine. -/
def sweepPart (e : Engine N) : SweepPart N :=
  ⟨e.aw, e.pw, e.cnt, e.tlen, e.status.trans, e.status.prepared⟩

/-- The edge from Idle to Transitioning, towards the width `v` (R114). -/
def SweepPart.fire (v : N) (p : SweepPart N) : SweepPart N :=
  { p with pw := p.aw, aw := v, cnt := 0#32, trans := true }

/-- The count of a transition's step, and its end at the transition's length (R116). -/
def SweepPart.count (p : SweepPart N) : SweepPart N :=
  if p.cnt + 1#32 = p.tlen then { p with cnt := p.cnt + 1#32, pw := p.aw, trans := false }
  else { p with cnt := p.cnt + 1#32 }

theorem SweepPart.count_aw (p : SweepPart N) : p.count.aw = p.aw := by unfold count; split_ifs <;> rfl

theorem SweepPart.count_cnt (p : SweepPart N) : p.count.cnt = p.cnt + 1#32 := by
  unfold count; split_ifs <;> rfl

@[simp] theorem sweepPart_report (c : ResultCode) (w : Word) (e : Engine N) :
    sweepPart (report c w e) = sweepPart e := by simp [sweepPart]

theorem sweepPart_countStep (e : Engine N) : sweepPart (countStep e) = (sweepPart e).count := by
  by_cases h : e.cnt + 1#32 = e.tlen <;> simp [countStep, SweepPart.count, sweepPart, h]

section Process

variable {C : Config N} {e r : Engine N}

/-- The crossfader moves the sweep-width state alone: by the count while Transitioning, not at all while Idle (R116,
R117). -/
theorem crossfade_sweep {y : N} (h : crossfade C e = .ok (y, r)) :
    smoothedPart r = smoothedPart e ∧
      ((e.status.trans = false ∧ sweepPart r = sweepPart e) ∨
       (e.status.trans = true ∧ e.cnt.toNat < e.tlen.toNat ∧ sweepPart r = (sweepPart e).count)) := by
  obtain ⟨ya, -, ⟨ht, heq⟩ | ⟨ht, yp, -, hcnt, heq⟩⟩ := crossfade_eq_ok.1 h <;>
    obtain ⟨-, rfl⟩ := Prod.mk.injEq .. ▸ heq
  · exact ⟨rfl, .inl ⟨ht, rfl⟩⟩
  · exact ⟨by simp [smoothedPart], .inr ⟨ht, hcnt, sweepPart_countStep e⟩⟩

/-- A PROCESS of a prepared engine, by its crossfaded value `y` (R130). -/
theorem process_stages {bits : F32} {w : Word} (hp : e.status.prepared = true)
    (h : process C bits w e = .ok r) :
    ∃ y e1, crossfade C (trigger C (smoothAll C e)) = .ok (y, e1) ∧ rawPart r = rawPart e ∧
      smoothedPart r = smoothedPart (smoothAll C e) ∧ sweepPart r = sweepPart e1 ∧
      r.outL = C.mul y r.sgain ∧ r.outR = r.outL := by
  have hraw := (process_parts h).2
  rcases process_eq_ok.1 h with ⟨hp', -⟩ | ⟨-, e2, hs, rfl⟩
  · rw [hp] at hp'; cases hp'
  · obtain ⟨y, e1, e3, hcross, hwrite, rfl⟩ := sampleStep_eq_ok.1 hs
    obtain ⟨-, rfl⟩ := writePath_eq_ok.1 hwrite
    obtain ⟨hsmoothed, -⟩ := crossfade_sweep hcross
    refine ⟨y, e1, hcross, hraw, ?_, by simp [sweepPart], by simp, by simp⟩
    simpa [smoothedPart] using hsmoothed

/-- A PROCESS leaves the engine prepared (R131). -/
theorem process_prepared {bits : F32} {w : Word} (hp : e.status.prepared = true)
    (h : process C bits w e = .ok r) : r.status.prepared = true := by
  have hpart := congrArg BufferPart.prepared (process_parts h).1
  rw [if_pos hp] at hpart
  exact hpart.trans hp

/-- The smoothed values after a PROCESS (R112). -/
theorem process_smoothed {bits : F32} {w : Word} (hp : e.status.prepared = true)
    (h : process C bits w e = .ok r) :
    r.sfreq = smooth C e.freq e.sfreq ∧ r.swidth = smooth C e.width e.swidth ∧
      r.sgain = smooth C e.gain e.sgain := by
  obtain ⟨y, e1, -, -, hsmoothed, -⟩ := process_stages hp h
  exact SmoothedPart.mk.inj hsmoothed

/-- The sweep-width state after a PROCESS: Idle without a trigger, Idle with one, and Transitioning (R114, R116,
R117). -/
theorem process_sweep {bits : F32} {w : Word} (hp : e.status.prepared = true)
    (h : process C bits w e = .ok r) :
    (e.status.trans = false ∧ numEq C r.swidth e.aw = true ∧ sweepPart r = sweepPart e) ∨
    (e.status.trans = false ∧ numEq C r.swidth e.aw = false ∧
      sweepPart r = ((sweepPart e).fire r.swidth).count) ∨
    (e.status.trans = true ∧ e.cnt.toNat < e.tlen.toNat ∧ sweepPart r = (sweepPart e).count) := by
  obtain ⟨y, e1, hcross, -, -, hsweep, -⟩ := process_stages hp h
  obtain ⟨-, hswidth, -⟩ := process_smoothed hp h
  rw [hswidth, hsweep]
  obtain ⟨-, hcases⟩ := crossfade_sweep hcross
  rcases trigger_cases C (smoothAll C e) with ⟨ht, hne, heq⟩ | ⟨hnot, heq⟩ <;> rw [heq] at hcases
  · rcases hcases with ⟨ht', -⟩ | ⟨-, -, hcount⟩
    · cases ht'
    · exact .inr (.inl ⟨ht, hne, hcount⟩)
  · rcases hcases with ⟨ht, hsame⟩ | ⟨ht, hcnt, hcount⟩
    · refine .inl ⟨ht, hnot.resolve_left ?_, hsame⟩
      rw [ht]
      exact Bool.false_ne_true
    · exact .inr (.inr ⟨ht, hcnt, hcount⟩)

end Process

end Sys2Proof.Machine
end

/-! SUPPORT. A transition as a count of the PROCESS commands: from any Transitioning state, `n` of them later. Settles
O37. -/

section
namespace Sys2Proof.Machine

variable {N : Type}

/-- A transition of length `len` from the width `p` to the width `a`, at its count `n`, which may be its last (R116,
R118). -/
structure InTransition (p a : N) (len n : ℕ) (q : SweepPart N) : Prop where
  prepared : q.prepared = true
  aw : q.aw = a
  tlen : q.tlen.toNat = len
  cnt : q.cnt.toNat = n
  running : n < len → q.trans = true ∧ q.pw = p
  ended : n = len → q.trans = false ∧ q.pw = a

/-- One step further (R116). -/
theorem InTransition.count {p a : N} {len n : ℕ} {q : SweepPart N} (h : InTransition p a len n q)
    (hlt : n < len) : InTransition p a len (n + 1) q.count := by
  obtain ⟨hprep, haw, rfl, rfl, hrun, -⟩ := h
  have htlen := q.tlen.isLt
  have hnext : (q.cnt + 1#32).toNat = q.cnt.toNat + 1 := by
    rw [BitVec.toNat_add, BitVec.toNat_ofNat]
    omega
  have hend : q.cnt + 1#32 = q.tlen ↔ q.cnt.toNat + 1 = q.tlen.toNat := by
    rw [← BitVec.toNat_inj, hnext]
  unfold SweepPart.count
  split_ifs with h
  · exact ⟨hprep, haw, rfl, hnext, fun hn => absurd (hend.1 h) hn.ne, fun _ => ⟨rfl, haw⟩⟩
  · exact ⟨hprep, haw, rfl, hnext, fun _ => hrun hlt, fun hn => absurd (hend.2 hn) h⟩

theorem sweepPart_setParam {C : Config N} {put : N → Engine N → Engine N} {e : Engine N}
    (hput : ∀ v, sweepPart (put v e) = sweepPart e) (lo hi : N) (b : F32) (w : Word) :
    sweepPart (setParam C put lo hi b w e) = sweepPart e := by
  rcases setParam_cases C put lo hi b w e with ⟨-, heq⟩ | ⟨-, heq⟩ <;> simp [heq, hput]

/-- A word that is no PREPARE moves a transition by the PROCESS it may be, setters not at all (R118). -/
theorem InTransition.runWord {C : Config N} {p a : N} {len n : ℕ} {e r : Engine N} {w : Word}
    (h : InTransition p a len n (sweepPart e)) (hw : notPrepare w) (hr : runWord C w e = .ok r)
    (hle : n + (processOperands [w]).length ≤ len) :
    InTransition p a len (n + (processOperands [w]).length) (sweepPart r) := by
  unfold Machine.runWord at hr
  unfold processOperands at hle ⊢
  cases hd : decode w with
  | illegal => rw [hd] at hr; cases hr; simpa [hd] using h
  | reserved => rw [hd] at hr; cases hr; simpa [hd] using h
  | instr i =>
    rw [hd] at hr
    cases i with
    | prepare sr blk => exact absurd hd (hw sr blk)
    | process b =>
      have hlt : n < len := by simp [hd] at hle; omega
      have htrans : e.status.trans = true := (h.running hlt).1
      rcases process_sweep h.prepared hr with ⟨ht, -⟩ | ⟨ht, -⟩ | ⟨-, -, hcount⟩
      · rw [htrans] at ht; cases ht
      · rw [htrans] at ht; cases ht
      · rw [hcount]
        simpa [hd] using h.count hlt
    | nop => cases hr; simpa [hd, nop] using h
    | setfreq b => cases hr; rw [setFreq, sweepPart_setParam fun _ => rfl]; simpa [hd] using h
    | setwidth b => cases hr; rw [setWidth, sweepPart_setParam fun _ => rfl]; simpa [hd] using h
    | setgain b => cases hr; rw [setGain, sweepPart_setParam fun _ => rfl]; simpa [hd] using h

theorem processOperands_cons (w : Word) (ws : List Word) :
    processOperands (w :: ws) = processOperands [w] ++ processOperands ws := by
  simp only [processOperands, ← List.filterMap_append, List.singleton_append]

/-- A stream without a PREPARE moves a transition by its PROCESS commands. -/
theorem InTransition.runEvents {p a : F32} {len n : ℕ} {ws : List Word} {s t : State}
    (h : InTransition p a len n (sweepPart s.toEngine)) (hws : ∀ w ∈ ws, notPrepare w)
    (hle : n + (processOperands ws).length ≤ len) (hrun : runEvents (commandEvents ws) s = .next t) :
    InTransition p a len (n + (processOperands ws).length) (sweepPart t.toEngine) := by
  induction ws generalizing s n with
  | nil => rw [runEvents_nil.1 hrun]; exact h
  | cons w ws ih =>
    obtain ⟨hw, hws⟩ := List.forall_mem_cons.1 hws
    obtain ⟨e, m, he, hrest⟩ := runEvents_cons hrun
    rw [processOperands_cons, List.length_append, ← Nat.add_assoc] at hle ⊢
    exact ih (h.runWord hw he (Nat.le_of_add_right_le hle)) hws hle hrest

/-- Settles O37: the invariant puts the count below the length, and the stream moves it by its PROCESS commands. -/
theorem transitionLength : Obligations.TransitionLength := by
  intro s t ws hinv hp htrans hws hle hrun
  have hlt := hinv.trans htrans
  have hstart : InTransition s.pw s.aw s.tlen.toNat s.cnt.toNat (sweepPart s.toEngine) :=
    ⟨hp, rfl, rfl, rfl, fun _ => ⟨htrans, rfl⟩, fun heq => absurd heq hlt.ne⟩
  obtain ⟨-, haw, htlen, hcnt, hrunning, hended⟩ := hstart.runEvents hws hle hrun
  rw [← htlen, ← hcnt] at hrunning hended
  exact ⟨haw, hcnt, hrunning, hended⟩

end Sys2Proof.Machine
end

/-! SUPPORT. The smoother under REAL: what is left of the distance to the raw value shrinks by K with every step (R112,
R113). Settles O52, O59 and O60. -/

section
namespace Sys2Proof.Machine

/-- One smoothing leaves 19/20 of the distance (R112). -/
theorem smooth_real (p s : ℝ) : smooth Reals.config p s = p + 19 / 20 * (s - p) := by
  rw [smooth_eq]
  norm_num [Params.vibcore]
  ring

/-- `n` smoothings leave `(19/20)^n` of it (R113). -/
theorem smooth_real_iterate (p s : ℝ) (n : ℕ) :
    (smooth Reals.config p)^[n] s = p + (19 / 20) ^ n * (s - p) := by
  induction n with
  | zero => simp
  | succ n ih =>
    rw [Function.iterate_succ_apply', ih, smooth_real]
    ring

/-- Settles O52. -/
theorem smootherRealLaws : Obligations.SmootherRealLaws := by
  refine ⟨fun p s => ?_, fun p s lo hi hlop hphi hlos hshi => smooth_between_real ⟨hlop, hphi⟩ ⟨hlos, hshi⟩,
    smooth_real_iterate, fun p s n hne => ?_⟩
  · rw [smooth_real]
    ring
  · rw [smooth_real_iterate, ne_eq, add_eq_left, mul_eq_zero, not_or]
    exact ⟨by positivity, sub_ne_zero.2 hne⟩

/-- The smoothed width comes strictly nearer to the raw one, from the same side, so it cannot meet a committed width
that lay beyond it (R187). -/
theorem Gliding.smooth_ne_aw {e : Engine ℝ} (h : Gliding e) : smooth Reals.config e.width e.swidth ≠ e.aw := by
  obtain ⟨hne, -, hle⟩ := h
  have hpos := abs_pos.2 (sub_ne_zero.2 hne)
  intro heq
  rw [← heq, smooth_real, add_sub_cancel_left, abs_mul, abs_of_pos (by norm_num : (0 : ℝ) < 19 / 20)] at hle
  linarith

/-- With the committed width kept, or replaced by the smoothed one, the next smoothed width is gliding again
(R187). -/
theorem gliding_of_smoothed {e r : Engine ℝ} (h : Gliding e) (hwidth : r.width = e.width)
    (hswidth : r.swidth = smooth Reals.config e.width e.swidth) (haw : r.aw = e.aw ∨ r.aw = r.swidth) :
    Gliding r := by
  obtain ⟨hne, hside, hle⟩ := h
  have hpos := abs_pos.2 (sub_ne_zero.2 hne)
  have hdist : r.swidth - r.width = 19 / 20 * (e.swidth - e.width) := by
    rw [hswidth, hwidth, smooth_real, add_sub_cancel_left]
  refine ⟨fun heq => ?_, ?_⟩
  · rw [heq, sub_self] at hdist
    exact sub_ne_zero.2 hne (by linarith)
  · rcases haw with haw | haw <;> rw [haw]
    · rw [hdist, hwidth, abs_mul, abs_of_pos (by norm_num : (0 : ℝ) < 19 / 20)]
      exact ⟨by nlinarith, by linarith⟩
    · exact ⟨mul_self_nonneg _, le_rfl⟩

/-- Settles O59: every PROCESS of a gliding engine either counts, with the committed width kept, or fires the trigger,
with the smoothed width committed. -/
theorem glidingNeverSettles : Obligations.GlidingNeverSettles := by
  refine ⟨fun bits w e r hp hg hr => ?_, fun e hrest hne => ?_⟩
  · obtain ⟨-, -, -, hraw, -⟩ := process_stages hp hr
    obtain ⟨-, hwidth, -⟩ := RawPart.mk.inj hraw
    obtain ⟨-, hswidth, -⟩ := process_smoothed hp hr
    have hprep := process_prepared hp hr
    have hne := hg.smooth_ne_aw
    rcases process_sweep hp hr with ⟨-, heq, -⟩ | ⟨-, -, hsweep⟩ | ⟨ht, -, hsweep⟩
    · rw [Reals.numEq_iff, hswidth] at heq
      exact absurd heq hne
    · have haw : r.aw = r.swidth := (congrArg SweepPart.aw hsweep).trans (SweepPart.count_aw _)
      have hcnt : r.cnt = 1#32 := (congrArg SweepPart.cnt hsweep).trans (SweepPart.count_cnt _)
      exact ⟨gliding_of_smoothed hg hwidth hswidth (.inr haw), hprep, hwidth,
        fun _ => ⟨haw, by rw [haw, hswidth]; exact hne, hcnt⟩⟩
    · have haw : r.aw = e.aw := (congrArg SweepPart.aw hsweep).trans (SweepPart.count_aw _)
      refine ⟨gliding_of_smoothed hg hwidth hswidth (.inl haw), hprep, hwidth, fun hidle => ?_⟩
      rw [ht] at hidle
      cases hidle
  · exact ⟨by rw [hrest]; exact hne.symm, by rw [hrest]; exact mul_self_nonneg _, by rw [hrest]⟩

/-- A block of samples is a PROCESS of the first and a block of the rest (R133). -/
theorem runWords_blockWords_cons {N : Type} {C : Config N} {b : F32} {samples : List F32} {e r : Engine N}
    (h : runWords C (blockWords (b :: samples)) e = .ok r) :
    ∃ e1, process C b (encode (.process b)) e = .ok e1 ∧ runWords C (blockWords samples) e1 = .ok r := by
  rw [blockWords, List.map_cons, runWords, runWord, decode_encode] at h
  cases hs : process C b (encode (.process b)) e with
  | error f => simp only [runInstr, hs] at h; cases h
  | ok e1 => simp only [runInstr, hs] at h; exact ⟨e1, rfl, h⟩

/-- A block of `n` samples smooths each value `n` times towards its raw one (R112, R144). -/
theorem smoothed_runWords_blockWords {N : Type} {C : Config N} {samples : List F32} {e r : Engine N}
    (hp : e.status.prepared = true) (h : runWords C (blockWords samples) e = .ok r) :
    r.sfreq = (smooth C e.freq)^[samples.length] e.sfreq ∧
      r.swidth = (smooth C e.width)^[samples.length] e.swidth ∧
      r.sgain = (smooth C e.gain)^[samples.length] e.sgain := by
  induction samples generalizing e with
  | nil => cases h; exact ⟨rfl, rfl, rfl⟩
  | cons b samples ih =>
    obtain ⟨e1, hb, hrest⟩ := runWords_blockWords_cons h
    obtain ⟨hfreq, hwidth, hgain⟩ := RawPart.mk.inj (process_parts hb).2
    obtain ⟨hsfreq, hswidth, hsgain⟩ := process_smoothed hp hb
    have := ih (process_prepared hp hb) hrest
    rwa [hfreq, hwidth, hgain, hsfreq, hswidth, hsgain] at this

/-- Settles O60: the block smooths `n` times, which `smooth_real_iterate` says in closed form. -/
theorem settersTakeEffectGeometrically : Obligations.SettersTakeEffectGeometrically := by
  refine ⟨fun samples e r hp hr => ?_, by norm_num, by norm_num⟩
  obtain ⟨hfreq, hwidth, hgain⟩ := smoothed_runWords_blockWords hp hr
  exact ⟨hfreq.trans (smooth_real_iterate ..), hwidth.trans (smooth_real_iterate ..),
    hgain.trans (smooth_real_iterate ..)⟩

end Sys2Proof.Machine
end

/-! SUPPORT. The cubic under REAL as a weighted sum of its taps (R105, R107). Settles O50. -/

section
namespace Sys2Proof.Reals

open Sys2Proof.Machine

/-- The cubic under REAL with its four weights multiplied out (R105, R107). -/
theorem cubic_real (a s0 s1 s2 s3 : ℝ) :
    cubic config a s0 s1 s2 s3 =
      -(a * (1 - a) * (2 - a)) / 6 * s0 + (1 - a) * (1 + a) * (2 - a) / 2 * s1 +
        a * (1 + a) * (2 - a) / 2 * s2 + -(a * (1 + a) * (1 - a)) / 6 * s3 := by
  simp only [cubic_eq, config_add, config_sub, config_mul, config_div, config_toNum]
  push_cast
  ring

/-- On `[0, 1)` the outer weights are at most 0, the inner ones at least 0, so their magnitudes sum to
`1 + a (1 - a)`, at most 5/4 (R107). -/
theorem cubic_real_abs_le {a M s0 s1 s2 s3 : ℝ} (ha : 0 ≤ a) (ha1 : a < 1) (h0 : |s0| ≤ M) (h1 : |s1| ≤ M)
    (h2 : |s2| ≤ M) (h3 : |s3| ≤ M) : |cubic config a s0 s1 s2 s3| ≤ 1.25 * M := by
  have hM : 0 ≤ M := (abs_nonneg s0).trans h0
  have hb : 0 ≤ 1 - a := by linarith
  have hc : 0 ≤ 2 - a := by linarith
  have hd : 0 ≤ 1 + a := by linarith
  have hterm {w s : ℝ} (hw : 0 ≤ w) (hs : |s| ≤ M) : |w * s| ≤ w * M := by
    rw [abs_mul, abs_of_nonneg hw]
    exact mul_le_mul_of_nonneg_left hs hw
  have t0 := hterm (by positivity : 0 ≤ a * (1 - a) * (2 - a) / 6) h0
  have t1 := hterm (by positivity : 0 ≤ (1 - a) * (1 + a) * (2 - a) / 2) h1
  have t2 := hterm (by positivity : 0 ≤ a * (1 + a) * (2 - a) / 2) h2
  have t3 := hterm (by positivity : 0 ≤ a * (1 + a) * (1 - a) / 6) h3
  rw [cubic_real]
  rw [abs_le] at t0 t1 t2 t3 ⊢
  have hsum : (1 + a * (1 - a)) * M ≤ 1.25 * M := by
    refine mul_le_mul_of_nonneg_right ?_ hM
    nlinarith [sq_nonneg (a - 1 / 2)]
  constructor <;> linarith

/-- Settles O50, from the weights multiplied out. -/
theorem cubicWeightLaws : Obligations.CubicWeightLaws := by
  unfold Obligations.CubicWeightLaws
  simp only [cubic_real]
  refine ⟨fun a s0 s1 s2 s3 => by ring, fun a => by ring, fun a i c0 c1 c2 c3 => by ring,
    fun a ha ha1 => ?_, fun a M s0 s1 s2 s3 ha ha1 h0 h1 h2 h3 => ?_, by norm_num, by norm_num⟩
  · have hb : 0 ≤ 1 - a := by linarith
    have hc : 0 ≤ 2 - a := by linarith
    have hd : 0 ≤ 1 + a := by linarith
    have w0 : 0 ≤ a * (1 - a) * (2 - a) := by positivity
    have w1 : 0 ≤ (1 - a) * (1 + a) * (2 - a) := by positivity
    have w2 : 0 ≤ a * (1 + a) * (2 - a) := by positivity
    have w3 : 0 ≤ a * (1 + a) * (1 - a) := by positivity
    refine ⟨by linarith, by linarith, by linarith, by linarith, ?_⟩
    rw [abs_of_nonpos (by linarith), abs_of_nonneg (by linarith), abs_of_nonneg (by linarith),
      abs_of_nonpos (by linarith)]
    ring
  · rw [← cubic_real]
    exact cubic_real_abs_le ha ha1 h0 h1 h2 h3

end Sys2Proof.Reals
end

/-! SUPPORT. The blend under REAL (R115, R116, R119) and the bound on the output (R137). Settles O58. -/

section
namespace Sys2Proof.Reals

open Sys2Proof.Machine

/-- The weights under REAL are the roots of `1 - r` and `r` (R115). -/
theorem weights_real (c len : ℕ) :
    weights config c len = (Real.sqrt (1 - (c : ℝ) / len), Real.sqrt ((c : ℝ) / len)) := by
  simp only [weights_eq, config_sqrt, config_sub, config_div, config_toNum, Int.cast_one, Int.cast_natCast]

/-- The blend under REAL (R116). -/
theorem blend_real (c len : ℕ) (yp ya : ℝ) :
    blend config c len yp ya = Real.sqrt (1 - (c : ℝ) / len) * yp + Real.sqrt ((c : ℝ) / len) * ya := by
  simp only [blend_eq, weights_real, config_add, config_mul]

/-- The ratio of a counter below its length (R115). -/
theorem ratio_mem {c len : ℕ} (h : c < len) : 0 ≤ (c : ℝ) / len ∧ (c : ℝ) / len < 1 := by
  have hlen : (0 : ℝ) < len := by exact_mod_cast Nat.zero_lt_of_lt h
  exact ⟨by positivity, (div_lt_one hlen).2 (by exact_mod_cast h)⟩

/-- Roots whose squares sum to 1 sum to at most the root of 2 (R119). -/
theorem sqrt_add_sqrt_le {r : ℝ} (h0 : 0 ≤ r) (h1 : r ≤ 1) :
    Real.sqrt (1 - r) + Real.sqrt r ≤ Real.sqrt 2 := by
  refine Real.le_sqrt_of_sq_le ?_
  have hp := Real.sq_sqrt (sub_nonneg.2 h1)
  have hq := Real.sq_sqrt h0
  nlinarith [sq_nonneg (Real.sqrt (1 - r) - Real.sqrt r)]

/-- A blend of two samples is at most the root of 2 times their bound (R119). -/
theorem blend_real_abs_le {c len : ℕ} (h : c < len) {yp ya B : ℝ} (hp : |yp| ≤ B) (ha : |ya| ≤ B) :
    |blend config c len yp ya| ≤ Real.sqrt 2 * B := by
  obtain ⟨h0, h1⟩ := ratio_mem h
  rw [blend_real]
  calc |Real.sqrt (1 - (c : ℝ) / len) * yp + Real.sqrt ((c : ℝ) / len) * ya|
      ≤ Real.sqrt (1 - (c : ℝ) / len) * |yp| + Real.sqrt ((c : ℝ) / len) * |ya| := by
        refine (abs_add_le _ _).trans_eq ?_
        rw [abs_mul, abs_mul, abs_of_nonneg (Real.sqrt_nonneg _), abs_of_nonneg (Real.sqrt_nonneg _)]
    _ ≤ Real.sqrt (1 - (c : ℝ) / len) * B + Real.sqrt ((c : ℝ) / len) * B := by gcongr
    _ = (Real.sqrt (1 - (c : ℝ) / len) + Real.sqrt ((c : ℝ) / len)) * B := by ring
    _ ≤ Real.sqrt 2 * B :=
      mul_le_mul_of_nonneg_right (sqrt_add_sqrt_le h0 h1.le) ((abs_nonneg yp).trans hp)

/-- A read is at most 5/4 of the largest buffer word (R107). -/
theorem sample_real_abs_le {e : Engine ℝ} {M w y : ℝ} (hM : ∀ i, |bufLookup 0 e.buf i| ≤ M)
    (h : sample config e w = .ok y) : |y| ≤ 1.25 * M := by
  have hread {j : ℤ} {s : ℝ} (hs : bufRead config e j = .ok s) : |s| ≤ M := by
    obtain ⟨-, rfl⟩ := bufRead_eq_ok.1 hs
    rw [config_toNum, Int.cast_zero]
    exact hM _
  rw [sample_eq_interp] at h
  obtain ⟨i, s0, s1, s2, s3, hfloor, h0, h1, h2, h3, rfl⟩ := interp_eq_ok.1 h
  obtain rfl := Option.some.inj ((config_floor _).symm.trans hfloor)
  rw [config_sub, config_toNum]
  exact cubic_real_abs_le (Int.fract_nonneg _) (Int.fract_lt_one _) (hread h0) (hread h1) (hread h2)
    (hread h3)

/-- The crossfaded value is a read of the active width, or a blend of two reads. -/
theorem crossfade_real_abs_le {e r : Engine ℝ} {M y : ℝ} (hM : ∀ i, |bufLookup 0 e.buf i| ≤ M)
    (h : crossfade config e = .ok (y, r)) :
    |y| ≤ Real.sqrt 2 * (1.25 * M) ∧ (e.status.trans = false → |y| ≤ 1.25 * M) := by
  have hM0 : 0 ≤ M := (abs_nonneg _).trans (hM 0)
  obtain ⟨ya, hya, ⟨-, heq⟩ | ⟨ht, yp, hyp, hcnt, heq⟩⟩ := crossfade_eq_ok.1 h <;>
    obtain ⟨rfl, -⟩ := Prod.mk.injEq .. ▸ heq
  · have hle := sample_real_abs_le hM hya
    refine ⟨hle.trans (le_mul_of_one_le_left (by positivity) ?_), fun _ => hle⟩
    exact Real.one_le_sqrt.2 one_le_two
  · refine ⟨blend_real_abs_le hcnt (sample_real_abs_le hM hyp) (sample_real_abs_le hM hya), fun hidle => ?_⟩
    rw [ht] at hidle
    cases hidle

/-- Settles O58: the output is the crossfaded value times a smoothed gain that is not negative. -/
theorem realOutputBound : Obligations.RealOutputBound := by
  intro bits w e r M hp _ hM hgain hsgain hr
  obtain ⟨y, e1, hcross, -, -, -, hout, -⟩ := process_stages hp hr
  obtain ⟨-, -, hsmooth⟩ := process_smoothed hp hr
  have hgain' : 0 ≤ r.sgain := by
    rw [hsmooth, smooth_real]
    linarith
  obtain ⟨hany, hidle⟩ := crossfade_real_abs_le (M := M) (by simpa using hM) hcross
  rw [hout, config_mul, abs_mul, abs_of_nonneg hgain']
  refine ⟨mul_le_mul_of_nonneg_right (by linarith) hgain', fun ht heq => ?_⟩
  refine mul_le_mul_of_nonneg_right (hidle ?_) hgain'
  rcases trigger_cases config (smoothAll config e) with ⟨-, hne, -⟩ | ⟨-, htrig⟩
  · rw [smoothAll_swidth, heq, smoothAll_aw, Bool.eq_false_iff, ne_eq, numEq_iff] at hne
    exact absurd rfl hne
  · rw [htrig]
    exact ht

end Sys2Proof.Reals
end

/-! SUPPORT. Rounding between representable bounds: an exact result between two values that finite patterns have is
rounded to a value between them (R9). A representable result is the case of equal bounds: it is not rounded. -/

section
namespace Sys2Proof.Binary32

open Sys2Proof.Machine

/-! ### Representable numbers of units -/

/-- A number of units that some finite pattern has. -/
def Representable (v : ℤ) : Prop := ∃ b : F32, isFinite b = true ∧ units b = v

theorem representable_units {b : F32} (h : isFinite b = true) : Representable (units b) := ⟨b, h, rfl⟩

theorem Representable.neg {v : ℤ} (h : Representable v) : Representable (-v) := by
  obtain ⟨b, hb, rfl⟩ := h
  exact ⟨negate b, isFinite_negate hb, units_negate hb⟩

/-- The magnitudes of at most 24 significant bits below `2^128` have a pattern. -/
theorem exists_magUnits_eq {q k : ℕ} (hq : q < 2 ^ 24) (hk : k ≤ 253) :
    ∃ m < infMag, magUnits m = q * 2 ^ k := by
  induction k generalizing q with
  | zero => exact ⟨q, hq.trans (by decide), by simpa using magUnits_layout (k := 0) hq (.inl rfl)⟩
  | succ k ih =>
    by_cases hn : 2 ^ 23 ≤ q
    · refine ⟨(k + 1) * 2 ^ 23 + q, ?_, magUnits_layout hq (.inr hn)⟩
      have : infMag = 255 * 2 ^ 23 := by decide
      omega
    · obtain ⟨m, hm, heq⟩ := ih (q := 2 * q) (by omega) (by omega)
      exact ⟨m, hm, by rw [heq, pow_succ]; ring⟩

/-- A significand of at most 24 bits at an exponent in range is representable. -/
theorem representable_mul_two_pow {q : ℤ} {k : ℕ} (hq : |q| < 2 ^ 24) (hk : k ≤ 253) :
    Representable (q * 2 ^ k) := by
  have hbounds := abs_lt.1 hq
  obtain ⟨m, hm, heq⟩ := exists_magUnits_eq (q := q.natAbs) (by omega) hk
  refine ⟨pack (decide (q < 0)) m, isFinite_pack hm, ?_⟩
  rw [units_pack hm, heq]
  by_cases hneg : q < 0
  · rw [decide_eq_true hneg, signed_true]
    push_cast
    rw [abs_of_neg hneg]
    ring
  · rw [decide_eq_false hneg, signed_false]
    push_cast
    rw [abs_of_nonneg (not_lt.1 hneg)]

theorem unitScale_eq : (unitScale : ℤ) = 2 ^ 149 := by rw [unitScale]; norm_cast

/-- A finite value as a significand of at most 24 bits, normalised unless the exponent is 0. -/
theorem units_eq_mul_two_pow {x : F32} (hx : isFinite x = true) :
    ∃ (q : ℤ) (k : ℕ), units x = q * 2 ^ k ∧ |q| < 2 ^ 24 ∧ k ≤ 253 ∧ (k = 0 ∨ 2 ^ 23 ≤ |q|) := by
  obtain ⟨k, q, hlayout, hq, hn⟩ := magBits_layout (magBits x)
  have hk : k ≤ 253 := by
    have hmag := isFinite_magBits hx
    have hinf : infMag = 255 * 2 ^ 23 := by decide
    omega
  rw [units_of_finite hx, hlayout, magUnits_layout hq hn]
  have hq' : (q : ℤ) < 2 ^ 24 := by exact_mod_cast hq
  have hn' : k = 0 ∨ (2 : ℤ) ^ 23 ≤ q := hn.imp_right fun h => by exact_mod_cast h
  have habs : |(q : ℤ)| = q := abs_of_nonneg (Int.natCast_nonneg q)
  cases signBit x
  · exact ⟨q, k, by simp, by rwa [habs], hk, by rwa [habs]⟩
  · exact ⟨-q, k, by simp, by rwa [abs_neg, habs], hk, by rwa [abs_neg, habs]⟩

/-- An integer of at most `2^24` in magnitude is representable. -/
theorem representable_int {n : ℤ} (h : |n| ≤ 2 ^ 24) : Representable (n * unitScale) := by
  rw [unitScale_eq]
  rcases lt_or_eq_of_le h with hlt | heq
  · exact representable_mul_two_pow hlt (by norm_num)
  · obtain rfl | rfl := (abs_eq (by norm_num)).1 heq
    · exact representable_mul_two_pow (q := 2 ^ 23) (k := 150) (by norm_num) (by norm_num)
    · exact representable_mul_two_pow (q := -2 ^ 23) (k := 150) (by norm_num) (by norm_num)

theorem representable_zero : Representable 0 := ⟨0#32, by decide, by decide +kernel⟩

/-- A value less a natural number is representable where that leaves at least 0 and less than `2^24`: the difference
has no more significant bits than the value, or is an integer (Sterbenz; R102, R104). -/
theorem representable_sub_nat {x : F32} (hx : isFinite x = true) {n : ℕ} (h0 : 0 ≤ units x - n * unitScale)
    (h24 : units x - n * unitScale < 2 ^ 24 * unitScale) : Representable (units x - n * unitScale) := by
  obtain ⟨q, k, hux, hq, hk, -⟩ := units_eq_mul_two_pow hx
  rw [unitScale_eq, hux] at h0 h24 ⊢
  rcases le_or_gt k 149 with hle | hgt
  · have hsplit : (2 : ℤ) ^ 149 = 2 ^ (149 - k) * 2 ^ k := by rw [← pow_add]; congr 1; omega
    rw [hsplit, ← mul_assoc, ← sub_mul] at h0 ⊢
    have hq0 := nonneg_of_mul_nonneg_left h0 (by positivity)
    have hsub : (0 : ℤ) ≤ n * 2 ^ (149 - k) := by positivity
    refine representable_mul_two_pow ?_ hk
    rw [abs_of_nonneg hq0]
    exact (sub_le_self _ hsub).trans_lt ((le_abs_self q).trans_lt hq)
  · have hsplit : (2 : ℤ) ^ k = 2 ^ (k - 149) * 2 ^ 149 := by rw [← pow_add]; congr 1; omega
    rw [hsplit, ← mul_assoc, ← sub_mul] at h0 h24 ⊢
    refine representable_mul_two_pow ?_ (by norm_num)
    rw [abs_of_nonneg (nonneg_of_mul_nonneg_left h0 (by positivity))]
    exact lt_of_mul_lt_mul_right h24 (by positivity)

/-! ### Finite values between bounds -/

/-- A finite value between two numbers of units. -/
structure Within (lo hi : ℤ) (v : F32) : Prop where
  finite : isFinite v = true
  low : lo ≤ units v
  high : units v ≤ hi

theorem Within.mono {lo hi lo' hi' : ℤ} {v : F32} (h : Within lo hi v) (hlo : lo' ≤ lo) (hhi : hi ≤ hi') :
    Within lo' hi' v := ⟨h.finite, hlo.trans h.low, h.high.trans hhi⟩

theorem Within.units_eq {u : ℤ} {v : F32} (h : Within u u v) : units v = u := le_antisymm h.high h.low

/-- Rounding an exact fraction between two representable bounds (R9). -/
theorem within_roundTo {s : Bool} {n d : ℕ} (hd : 0 < d) {lo hi : ℤ} (hlo : Representable lo)
    (hhi : Representable hi) (h1 : lo * d ≤ signed s n) (h2 : signed s n ≤ hi * d) :
    Within lo hi (roundTo s n d) := by
  have hself {b : F32} (hb : isFinite b = true) : roundTo (signBit b) (magUnits (magBits b) * d) d = b := by
    rw [roundTo, roundMag_exact hd (isFinite_magBits hb).le, pack_unpacked]
  have hval {b : F32} (hb : isFinite b = true) : signed (signBit b) (magUnits (magBits b) * d) = units b * d := by
    rw [units_of_finite hb]
    cases signBit b <;> simp
  obtain ⟨b, hb, rfl⟩ := hlo
  obtain ⟨c, hc, rfl⟩ := hhi
  have hlow := le_roundTo (s := signBit b) (s' := s) (n := magUnits (magBits b) * d) (n' := n) hd hd
    (by rw [hval hb]; exact mul_le_mul_of_nonneg_right h1 (Int.natCast_nonneg _))
  have hhigh := le_roundTo (s := s) (s' := signBit c) (n := n) (n' := magUnits (magBits c) * d) hd hd
    (by rw [hval hc]; exact mul_le_mul_of_nonneg_right h2 (Int.natCast_nonneg _))
  rw [hself hb] at hlow
  rw [hself hc] at hhigh
  obtain ⟨hfin, hl, hh⟩ := (between_iff_units hb hc).1 ⟨hlow, hhigh⟩
  exact ⟨hfin, hl, hh⟩

section Operations

variable {nan x y : F32} {lo hi : ℤ} (hx : isFinite x = true) (hy : isFinite y = true)
  (hlo : Representable lo) (hhi : Representable hi)

include hx hy hlo hhi

theorem within_add (h1 : lo ≤ units x + units y) (h2 : units x + units y ≤ hi) :
    Within lo hi (add nan x y) := by
  obtain ⟨s, hadd, hs⟩ := add_eq_roundTo (nan := nan) hx hy
  rw [hadd]
  exact within_roundTo one_pos hlo hhi (by rw [hs]; simpa using h1) (by rw [hs]; simpa using h2)

theorem within_sub (h1 : lo ≤ units x - units y) (h2 : units x - units y ≤ hi) :
    Within lo hi (sub nan x y) := by
  refine within_add hx (isFinite_negate hy) hlo hhi ?_ ?_ <;> rw [units_negate hy] <;> omega

theorem within_mul (h1 : lo * unitScale ≤ units x * units y) (h2 : units x * units y ≤ hi * unitScale) :
    Within lo hi (mul nan x y) := by
  rw [units_of_finite hx, units_of_finite hy, signed_mul] at h1 h2
  rw [mul_eq_roundTo hx hy]
  exact within_roundTo unitScale_pos hlo hhi h1 h2

/-- A quotient by a divisor of either sign: the exact quotient is the numerator, with the divisor's sign, over the
divisor's magnitude. -/
theorem within_div (h0 : units y ≠ 0) (h1 : lo * |units y| ≤ (units y).sign * (units x * unitScale))
    (h2 : (units y).sign * (units x * unitScale) ≤ hi * |units y|) : Within lo hi (div nan x y) := by
  have hmag : (magUnits (magBits y) : ℤ) = |units y| := by
    rw [← Int.natCast_natAbs, units_of_finite hy, natAbs_signed]
  have hpos : 0 < magUnits (magBits y) := Nat.pos_of_ne_zero (mt (units_eq_zero_iff hy).2 h0)
  have hnum : signed (signBit x != signBit y) (magUnits (magBits x) * unitScale) =
      (units y).sign * (units x * unitScale) := by
    rw [units_of_finite hx, units_of_finite hy]
    have : (magUnits (magBits y) : ℤ).sign = 1 := Int.sign_eq_one_of_pos (by exact_mod_cast hpos)
    cases signBit x <;> cases signBit y <;> simp [this]
  rw [div_eq_roundTo hx hy h0]
  refine within_roundTo hpos hlo hhi ?_ ?_ <;> rw [hnum, hmag] <;> assumption

/-- A quotient by a positive divisor. -/
theorem within_div_of_pos (hpos : 0 < units y) (h1 : lo * units y ≤ units x * unitScale)
    (h2 : units x * unitScale ≤ hi * units y) : Within lo hi (div nan x y) := by
  refine within_div hx hy hlo hhi hpos.ne' ?_ ?_ <;>
    rwa [Int.sign_eq_one_of_pos hpos, one_mul, abs_of_pos hpos]

end Operations

/-- An integer of at most `2^24` is its own value under F32 (R11). -/
theorem within_toNum {n : ℤ} (h : |n| ≤ 2 ^ 24) : Within (n * unitScale) (n * unitScale) (toNum n) := by
  have hrep := representable_int h
  have hval : signed (decide (n < 0)) (n.natAbs * unitScale) = n * unitScale := by
    by_cases hneg : n < 0
    · rw [decide_eq_true hneg, signed_true]
      push_cast
      rw [abs_of_neg hneg]
      ring
    · rw [decide_eq_false hneg, signed_false]
      push_cast
      rw [abs_of_nonneg (not_lt.1 hneg)]
  refine within_roundTo one_pos hrep hrep ?_ ?_ <;> rw [hval, Nat.cast_one, mul_one]

end Sys2Proof.Binary32
end

/-! SUPPORT. The delay between 0 and the width, and its quarter-phase values (R108, R109). Settles O47. -/

section
namespace Sys2Proof.Binary32

open Sys2Proof.Machine

variable {nan : F32}

/-! ### Factors 0 and 1 -/

theorem units_zero : units 0x00000000#32 = 0 := by decide +kernel

theorem units_one : units 0x3F800000#32 = unitScale := by decide +kernel

theorem units_half : units 0x3F000000#32 = 2 ^ 148 := by decide +kernel

/-- A product with a factor between 0 and 1 lies between 0 and the other factor. -/
theorem within_mul_unit {x y : F32} (hx : isFinite x = true) (h0 : 0 ≤ units x) (hy : Within 0 unitScale y) :
    Within 0 (units x) (mul nan x y) := by
  refine within_mul hx hy.finite representable_zero (representable_units hx) ?_ ?_
  · rw [zero_mul]
    exact mul_nonneg h0 hy.low
  · exact mul_le_mul_of_nonneg_left hy.high h0

/-- 1 is the factor that changes no bit of a finite pattern. -/
theorem mul_one_pattern {x : F32} (hx : isFinite x = true) : mul nan x 0x3F800000#32 = x := by
  have hsign : signBit 0x3F800000#32 = false := by decide
  have hmag : magUnits (magBits 0x3F800000#32) = unitScale := by decide +kernel
  rw [mul_eq_roundTo hx (by decide), hsign, Bool.bne_false, hmag, roundTo,
    roundMag_exact unitScale_pos (isFinite_magBits hx).le, pack_unpacked]

/-- A product with +0 is a zero. -/
theorem isZero_mul_zero {x : F32} (hx : isFinite x = true) : isZero (mul nan x 0x00000000#32) := by
  have hmag : magUnits (magBits 0x00000000#32) = 0 := by decide
  rw [mul_eq_roundTo hx (by decide), hmag, mul_zero, roundTo_zero _ unitScale_pos, isZero,
    magBits_pack (by norm_num)]

/-! ### The delay (R108) -/

theorem delay_config (p w : F32) :
    delay (config nan) p w = mul nan w (add nan 0x3F000000#32 (mul nan 0x3F000000#32 (sin2pi p))) := by
  simp only [delay_eq, config_mul, config_add, config_cnum, config_sin2pi, cnum_half]

/-- The delay's factor is between 0 and 1 for a sine between -1 and 1 (R109). -/
theorem within_delayFactor {u : F32} (hu : Within (-unitScale) unitScale u) :
    Within 0 unitScale (add nan 0x3F000000#32 (mul nan 0x3F000000#32 u)) := by
  have hrep : Representable (1 * 2 ^ 148) := representable_mul_two_pow (by norm_num) (by norm_num)
  rw [one_mul] at hrep
  have hprod : Within (-2 ^ 148) (2 ^ 148) (mul nan 0x3F000000#32 u) := by
    refine within_mul (by decide) hu.finite hrep.neg hrep ?_ ?_ <;> rw [units_half]
    · rw [neg_mul, ← mul_neg]
      exact mul_le_mul_of_nonneg_left hu.low (by positivity)
    · exact mul_le_mul_of_nonneg_left hu.high (by positivity)
  obtain ⟨hfin, hlow, hhigh⟩ := hprod
  refine within_add (by decide) hfin representable_zero ?_ ?_ ?_
  · simpa using representable_int (n := 1) (by norm_num)
  · rw [units_half]
    linarith
  · rw [units_half, unitScale_eq]
    linarith

/-- (S1) in units (R13). -/
theorem within_sin2pi {p : F32} (h : inUnit p = true) : Within (-unitScale) unitScale (sin2pi p) := by
  have hneg : units 0xBF800000#32 = -unitScale := by decide +kernel
  obtain ⟨hfin, hlow, hhigh⟩ := (between_iff_units (by decide) (by decide)).1 (sin2pi_between h)
  exact ⟨hfin, by rwa [hneg] at hlow, by rwa [units_one] at hhigh⟩

/-- The delay lies between 0 and the width (R109). -/
theorem within_delay {p w : F32} (hp : inUnit p = true) (hw : isFinite w = true) (h0 : 0 ≤ units w) :
    Within 0 (units w) (delay (config nan) p w) := by
  rw [delay_config]
  exact within_mul_unit hw h0 (within_delayFactor (within_sin2pi hp))

/-! The delay's factor at the quarter phases. -/

theorem delayFactor_zero : add nan 0x3F000000#32 (mul nan 0x3F000000#32 0x00000000#32) = 0x3F000000#32 := by
  have h : mul nan 0x3F000000#32 0x00000000#32 = 0x00000000#32 := by
    rw [mul_nan_irrel 0#32 (by decide) (by decide)]
    decide +kernel
  rw [h, add_nan_irrel 0#32 (by decide) (by decide)]
  decide +kernel

theorem delayFactor_one : add nan 0x3F000000#32 (mul nan 0x3F000000#32 0x3F800000#32) = 0x3F800000#32 := by
  rw [mul_one_pattern (by decide), add_nan_irrel 0#32 (by decide) (by decide)]
  decide +kernel

theorem delayFactor_neg_one :
    add nan 0x3F000000#32 (mul nan 0x3F000000#32 0xBF800000#32) = 0x00000000#32 := by
  have h : mul nan 0x3F000000#32 0xBF800000#32 = 0xBF000000#32 := by
    rw [mul_nan_irrel 0#32 (by decide) (by decide)]
    decide +kernel
  rw [h, add_nan_irrel 0#32 (by decide) (by decide)]
  decide +kernel

/-- A width in the setter's range is a normal value, so half of it is representable (R142). -/
theorem two_mul_units_mul_half {w : F32} (hw : widthOk w) :
    2 * units (mul nan w 0x3F000000#32) = units w := by
  obtain ⟨hfin, hlow, -⟩ := (between_iff_units (by decide) (by decide)).1 hw
  have hmin : 2 ^ 24 ≤ units 0x3A03126F#32 := by decide +kernel
  obtain ⟨q, k, huw, hq, hk, hn⟩ := units_eq_mul_two_pow hfin
  obtain ⟨k, rfl⟩ : ∃ j, k = j + 1 := by
    refine Nat.exists_eq_add_one_of_ne_zero fun h0 => ?_
    rw [h0, pow_zero, mul_one] at huw
    have := (le_abs_self q).trans_lt hq
    omega
  have hexact : units w * units 0x3F000000#32 = q * 2 ^ k * unitScale := by
    rw [huw, units_half, unitScale_eq]
    ring
  have hrep := representable_mul_two_pow hq (by omega : k ≤ 253)
  have h := within_mul (nan := nan) hfin (by decide : isFinite 0x3F000000#32 = true) hrep hrep hexact.ge hexact.le
  rw [h.units_eq, huw]
  ring

end Sys2Proof.Binary32

namespace Sys2Proof.Reals

open Sys2Proof.Machine

theorem delay_real (p w : ℝ) : delay config p w = w * (1 / 2 + 1 / 2 * config.sin2pi p) := by
  simp only [delay_eq, config_mul, config_add, config_cnum]
  norm_num

/-- Settles O47: in both modes the sine scales the factor into `[0, 1]`; at the quarter phases it is 0, 1, 0 and
-1. -/
theorem delayBound : Obligations.DelayBound := by
  refine ⟨fun nan p w hp hw h0 => ?_, fun nan w hw => ?_, fun p w hw => ?_, fun w => ?_,
    fun nan => Binary32.delay_config, delay_real⟩
  · obtain ⟨hfin, hlow, hhigh⟩ := Binary32.within_delay (nan := nan) hp hw h0
    exact ⟨hfin, hlow, hhigh⟩
  · have hfin := Binary32.isFinite_of_between (by decide) (by decide) hw
    simp only [Binary32.delay_config, Binary32.sin2pi_zero, Binary32.sin2pi_quarter, Binary32.sin2pi_half,
      Binary32.sin2pi_three_quarters, Binary32.delayFactor_zero, Binary32.delayFactor_one,
      Binary32.delayFactor_neg_one]
    exact ⟨Binary32.two_mul_units_mul_half hw, Binary32.mul_one_pattern hfin,
      Binary32.two_mul_units_mul_half hw, Binary32.isZero_mul_zero hfin⟩
  · have hlow := Real.neg_one_le_sin (2 * Real.pi * p)
    have hhigh := Real.sin_le_one (2 * Real.pi * p)
    rw [delay_real, config_sin2pi]
    exact ⟨mul_nonneg hw (by linarith), mul_le_of_le_one_right hw (by linarith)⟩
  · simp only [delay_real, sin2pi_zero, sin2pi_quarter, sin2pi_half, sin2pi_three_quarters]
    exact ⟨by ring, by ring, by ring, by ring⟩

end Sys2Proof.Reals
end

/-! SUPPORT. The smoother under F32 on a long run (R113). Settles O53. -/

section
namespace Sys2Proof.Binary32

open Sys2Proof.Machine

/-- Smoothing inside a width range does not meet the free NaN, however long it goes on. -/
theorem smooth_iterate_nan_irrel {nan p s : F32} (nan' : F32) (hp : widthOk p) (hs : widthOk s) (n : ℕ) :
    widthOk ((smooth (config nan) p)^[n] s) ∧ (smooth (config nan) p)^[n] s = (smooth (config nan') p)^[n] s := by
  have hfin {v : F32} (hv : widthOk v) : isFinite v = true := isFinite_of_between (by decide) (by decide) hv
  induction n with
  | zero => exact ⟨hs, rfl⟩
  | succ n ih =>
    obtain ⟨hok, heq⟩ := ih
    rw [Function.iterate_succ_apply', Function.iterate_succ_apply', ← heq]
    exact ⟨smooth_between (by decide) (by decide) hp hok, smooth_nan_irrel nan' (hfin hp) (hfin hok)⟩

/-- V-SM-4, evaluated in two halves: the smoother reaches a value short of its target, and stays there. -/
theorem smooth_stalls : (smooth (config 0#32) 0x3CA3D70A#32)^[259] 0x3C03126F#32 = 0x3CA3D700#32 ∧
    smooth (config 0#32) 0x3CA3D70A#32 0x3CA3D700#32 = 0x3CA3D700#32 := by
  have hfirst : (smooth (config 0#32) 0x3CA3D70A#32)^[130] 0x3C03126F#32 = 0x3CA3B70F#32 := by decide +kernel
  have hsecond : (smooth (config 0#32) 0x3CA3D70A#32)^[129] 0x3CA3B70F#32 = 0x3CA3D700#32 := by decide +kernel
  refine ⟨?_, by decide +kernel⟩
  rw [show 259 = 129 + 130 by norm_num, Function.iterate_add_apply, hfirst, hsecond]

/-- Settles O53, with the vectors evaluated at one choice of the free NaN. -/
theorem smootherF32Laws : Obligations.SmootherF32Laws := by
  refine ⟨fun nan p p' s s' hp hp' hs hs' => smooth_mono hp hs hp' hs', fun nan => ?_, fun nan => ?_,
    fun nan b => smooth_rangeBounds b, smooth_config⟩
  · rw [smooth_nan_irrel 0#32 (by decide) (by decide)]
    decide +kernel
  · have htarget : widthOk 0x3CA3D70A#32 := ⟨by decide +kernel, by decide +kernel⟩
    have hstart : widthOk 0x3C03126F#32 := ⟨by decide +kernel, by decide +kernel⟩
    rw [(smooth_iterate_nan_irrel 0#32 htarget hstart 259).2, smooth_nan_irrel 0#32 (by decide) (by decide)]
    exact smooth_stalls

end Sys2Proof.Binary32
end

/-! SUPPORT. The blend weights and the blend in both modes (R115, R116, R119). Settles O54 and O55. -/

section
namespace Sys2Proof.Binary32

open Sys2Proof.Machine

variable {nan : F32}

theorem weights_config (c len : ℕ) : weights (config nan) c len =
    (sqrt nan (sub nan 0x3F800000#32 (div nan (toNum c) (toNum len))),
      sqrt nan (div nan (toNum c) (toNum len))) := by
  simp only [weights_eq, config_sqrt, config_sub, config_div, config_toNum, toNum_one]

theorem blend_config (c len : ℕ) (yp ya : F32) : blend (config nan) c len yp ya =
    add nan (mul nan (sqrt nan (sub nan 0x3F800000#32 (div nan (toNum c) (toNum len)))) yp)
      (mul nan (sqrt nan (div nan (toNum c) (toNum len))) ya) := by
  simp only [blend_eq, weights_config, config_add, config_mul]

theorem abs_natCast_le {n : ℕ} (h : n ≤ 2 ^ 24) : |(n : ℤ)| ≤ 2 ^ 24 := by
  rw [abs_of_nonneg (Int.natCast_nonneg n)]
  exact_mod_cast h

/-- `(len - 1) / len` is at most the largest value below 1, so the ratio does not round to 1 (R115). -/
theorem within_ratio {c len : ℕ} (h : c < len) (hlen : len ≤ 2 ^ 24) :
    Within 0 ((2 ^ 24 - 1) * 2 ^ 125) (div nan (toNum c) (toNum len)) := by
  have hc := within_toNum (abs_natCast_le (h.le.trans hlen))
  have hl := within_toNum (abs_natCast_le hlen)
  have hscale : (0 : ℤ) < unitScale := by exact_mod_cast unitScale_pos
  have hpos : (0 : ℤ) < len * unitScale := mul_pos (by omega) hscale
  refine within_div_of_pos hc.finite hl.finite representable_zero
    (representable_mul_two_pow (q := 2 ^ 24 - 1) (by norm_num) (by norm_num)) (by rwa [hl.units_eq]) ?_ ?_ <;>
    rw [hc.units_eq, hl.units_eq]
  · rw [zero_mul]
    exact mul_nonneg (mul_nonneg (Int.natCast_nonneg c) hscale.le) hscale.le
  · rw [unitScale_eq]
    have hkey : (c : ℤ) * 2 ^ 24 ≤ (2 ^ 24 - 1) * len := by
      have : (c : ℤ) + 1 ≤ len := by omega
      linarith [(by exact_mod_cast hlen : (len : ℤ) ≤ 2 ^ 24)]
    calc (c : ℤ) * 2 ^ 149 * 2 ^ 149 = c * 2 ^ 24 * (2 ^ 125 * 2 ^ 149) := by ring
      _ ≤ (2 ^ 24 - 1) * (len : ℤ) * (2 ^ 125 * 2 ^ 149) := mul_le_mul_of_nonneg_right hkey (by positivity)
      _ = (2 ^ 24 - 1) * 2 ^ 125 * ((len : ℤ) * 2 ^ 149) := by ring

/-- At counter 0 the weights are exactly 1 and +0 (R115). -/
theorem weights_config_zero {len : ℕ} (h1 : 1 ≤ len) (hlen : len ≤ 2 ^ 24) :
    weights (config nan) 0 len = (0x3F800000#32, 0x00000000#32) := by
  have hl := within_toNum (abs_natCast_le hlen)
  have hpos : 0 < units (toNum len) := by
    rw [hl.units_eq]
    exact mul_pos (by omega) (by exact_mod_cast unitScale_pos)
  have hr : div nan (toNum (0 : ℕ)) (toNum len) = 0x00000000#32 := by
    rw [Nat.cast_zero, toNum_zero]
    obtain ⟨-, -, hquot⟩ := zeroResultSigns nan 0x00000000#32 _ (by decide) hl.finite
    rw [hquot units_zero hpos.ne', signBit_of_units_pos hl.finite hpos]
    rfl
  have hsub : sub nan 0x3F800000#32 0x00000000#32 = 0x3F800000#32 := by
    rw [sub_nan_irrel 0#32 (by decide) (by decide)]
    decide +kernel
  have hroot : sqrt nan 0x3F800000#32 = 0x3F800000#32 := by
    rw [sqrt_of_pos (by decide) (by decide +kernel)]
    decide +kernel
  have hrootZero : sqrt nan 0x00000000#32 = 0x00000000#32 := by
    rw [sqrt_of_zero (by decide) units_zero]
    decide
  rw [weights_config, hr, hsub, hroot, hrootZero]

/-- At counter 0 the blend is the previous-width sample (R119). -/
theorem within_blend_zero {len : ℕ} {yp ya : F32} (h1 : 1 ≤ len) (hlen : len ≤ 2 ^ 24)
    (hp : isFinite yp = true) (ha : isFinite ya = true) :
    Within (units yp) (units yp) (blend (config nan) 0 len yp ya) := by
  have hprod : Within (units yp) (units yp) (mul nan 0x3F800000#32 yp) := by
    refine within_mul (by decide) hp (representable_units hp) (representable_units hp) ?_ ?_ <;>
      rw [units_one, mul_comm]
  have hzero : Within 0 0 (mul nan 0x00000000#32 ya) := by
    refine within_mul (by decide) ha representable_zero representable_zero ?_ ?_ <;>
      rw [units_zero, zero_mul, zero_mul]
  simp only [blend_eq, weights_config_zero h1 hlen, config_add, config_mul]
  refine within_add hprod.finite hzero.finite (representable_units hp) (representable_units hp) ?_ ?_ <;>
    rw [hprod.units_eq, hzero.units_eq, add_zero]

end Sys2Proof.Binary32

namespace Sys2Proof.Reals

open Sys2Proof.Machine

theorem weights_real_zero (len : ℕ) : weights config 0 len = (1, 0) := by
  rw [weights_real, Nat.cast_zero, zero_div, sub_zero, Real.sqrt_one, Real.sqrt_zero]

/-- The root of 1/2 is half the root of 2. -/
theorem sqrt_half_add_sqrt_half : Real.sqrt (1 / 2) + Real.sqrt (1 / 2) = Real.sqrt 2 := by
  have h2 : Real.sqrt 2 ≠ 0 := by positivity
  rw [Real.sqrt_div' _ zero_le_two, Real.sqrt_one]
  field_simp
  rw [Real.sq_sqrt zero_le_two]
  norm_num

/-- Settles O54: the F32 ratio by `within_ratio`, the REAL one by division. -/
theorem weightsLaws : Obligations.WeightsLaws := by
  refine ⟨fun nan => Binary32.weights_config, weights_real, ?_, fun nan c len h hlen => ?_,
    fun nan len => Binary32.weights_config_zero, fun c len h => ?_, fun len _ => weights_real_zero len⟩
  · have h3 : Real.sqrt (1 - (4 : ℕ) / (16 : ℕ)) = Real.sqrt 3 / 2 := by
      rw [show (1 : ℝ) - (4 : ℕ) / (16 : ℕ) = 3 / 2 ^ 2 by norm_num, Real.sqrt_div' _ (by norm_num),
        Real.sqrt_sq zero_le_two]
    have h4 : Real.sqrt ((4 : ℕ) / (16 : ℕ)) = 1 / 2 := by
      rw [show ((4 : ℕ) : ℝ) / (16 : ℕ) = (1 / 2) ^ 2 by norm_num, Real.sqrt_sq (by norm_num)]
    rw [weights_real, h3, h4]
  · obtain ⟨hfin, hlow, hhigh⟩ := Binary32.within_ratio (nan := nan) h hlen
    exact ⟨hfin, hlow, hhigh.trans_lt (by norm_num)⟩
  · obtain ⟨h0, h1⟩ := ratio_mem h
    refine ⟨h0, h1, ?_⟩
    rw [weights_real, Real.sq_sqrt (sub_nonneg.2 h1.le), Real.sq_sqrt h0]
    ring

/-- Settles O55. -/
theorem crossfadeLaws : Obligations.CrossfadeLaws := by
  refine ⟨fun nan yp ya len h1 hlen hp ha => ?_, fun len yp ya _ => ?_, fun c len h => ?_, fun c hc => ?_,
    fun nan yp ya c len _ => Binary32.blend_config c len yp ya, fun yp ya c len _ => blend_real c len yp ya⟩
  · have h := Binary32.within_blend_zero (nan := nan) h1 hlen hp ha
    exact ⟨h.finite, h.units_eq⟩
  · rw [blend_eq, weights_real_zero]
    simp
  · obtain ⟨h0, h1⟩ := ratio_mem h
    rw [weights_real]
    exact sqrt_add_sqrt_le h0 h1.le
  · have hc' : (c : ℝ) ≠ 0 := by exact_mod_cast (by omega : c ≠ 0)
    have hr : (c : ℝ) / (2 * c : ℕ) = 1 / 2 := by push_cast; field_simp
    rw [weights_real, hr, show (1 : ℝ) - 1 / 2 = 1 / 2 by norm_num]
    exact sqrt_half_add_sqrt_half

end Sys2Proof.Reals
end

/-! SUPPORT. MODF's rounded remainder and the read position (R102, R103). Settles O46. -/

section
namespace Sys2Proof.Binary32

open Sys2Proof.Machine

variable {nan x : F32} {m : ℕ}

theorem floor_of_finite (hx : isFinite x = true) : floor x = some (units x / unitScale) := by
  rw [floor, unpack_of_finite hx, units_of_finite hx]

theorem rem_of_finite (hx : isFinite x = true) :
    rem nan x m = roundTo false (units x % (m * unitScale)).natAbs 1 := by
  rw [rem, unpack_of_finite hx, units_of_finite hx]

/-- `m` as a number of units. -/
theorem mul_unitScale_pos (hm : 1 ≤ m) : (0 : ℤ) < m * unitScale :=
  mul_pos (by omega) (by exact_mod_cast unitScale_pos)

/-- The remainder is rounded once, so it keeps representable bounds of the exact one. -/
theorem within_rem (hx : isFinite x = true) (hm : 1 ≤ m) {lo hi : ℤ} (hlo : Representable lo)
    (hhi : Representable hi) (h1 : lo ≤ units x % (m * unitScale)) (h2 : units x % (m * unitScale) ≤ hi) :
    Within lo hi (rem nan x m) := by
  have habs : ((units x % (m * unitScale)).natAbs : ℤ) = units x % (m * unitScale) :=
    Int.natAbs_of_nonneg (Int.emod_nonneg _ (mul_unitScale_pos hm).ne')
  rw [rem_of_finite hx]
  refine within_roundTo one_pos hlo hhi ?_ ?_ <;> rw [signed_false, habs, Nat.cast_one, mul_one] <;> assumption

/-- Numeric equality of finite values (R12). -/
theorem numEq_iff_units {y : F32} (hx : isFinite x = true) (hy : isFinite y = true) :
    numEq (config nan) x y = true ↔ units x = units y := by
  rw [numEq, Bool.and_eq_true, config_le, le_iff_units hx hy, le_iff_units hy hx, ← le_antisymm_iff]

/-- The exact remainder of the real values, in units (R102). -/
theorem ofBits_remainder : (Reals.ofBits x - m * ⌊Reals.ofBits x / m⌋) * 2 ^ 149 =
    ((units x % (m * unitScale) : ℤ) : ℝ) := by
  have hfloor : ⌊Reals.ofBits x / m⌋ = units x / (m * unitScale) := by
    rw [Int.floor_div_natCast, Reals.ofBits, ← unitScale_cast, Int.floor_div_natCast, Int.floor_intCast,
      Int.ediv_ediv_of_nonneg (Int.natCast_nonneg _), mul_comm]
  rw [hfloor, Int.emod_def, Reals.ofBits]
  push_cast
  rw [unitScale_cast]
  field_simp

/-- The remainder under F32 is the exact one rounded once (R102). -/
theorem rem_roundedOnce (hx : isFinite x = true) (hm : 1 ≤ m) :
    RoundedOnce (Reals.ofBits x - m * ⌊Reals.ofBits x / m⌋) (rem nan x m) := by
  have habs : ((units x % (m * unitScale)).natAbs : ℤ) = units x % (m * unitScale) :=
    Int.natAbs_of_nonneg (Int.emod_nonneg _ (mul_unitScale_pos hm).ne')
  rw [rem_of_finite hx]
  refine roundedOnce_roundTo one_pos ?_
  rw [Nat.cast_one, mul_one, ofBits_remainder, signed_false, habs]

/-- A value is the integer `m` when its units are `m`'s. -/
theorem ofBits_eq_natCast_iff {r : F32} : Reals.ofBits r = m ↔ units r = m * unitScale := by
  rw [Reals.ofBits, div_eq_iff (by positivity), ← unitScale_cast]
  exact_mod_cast Iff.rfl

section Modulus

variable (hx : isFinite x = true) (hm : 1 ≤ m) (hm24 : m ≤ 2 ^ 24)

include hx hm hm24

/-- The rounded remainder, which can be the modulus itself (R102). -/
theorem within_rem_modulus : Within 0 (m * unitScale) (rem nan x m) :=
  within_rem hx hm representable_zero (representable_int (abs_natCast_le hm24))
    (Int.emod_nonneg _ (mul_unitScale_pos hm).ne') (Int.emod_lt_of_pos _ (mul_unitScale_pos hm)).le

/-- MODF under F32: the rounded remainder, and +0 where that is the modulus (R102). -/
theorem modf_config : modf (config nan) x m =
    if units (rem nan x m) = m * unitScale then 0x00000000#32 else rem nan x m := by
  have hmod := within_toNum (abs_natCast_le hm24)
  simp only [modf_eq, config_rem, config_toNum, toNum_zero,
    numEq_iff_units (within_rem_modulus hx hm hm24).finite hmod.finite, hmod.units_eq]

/-- MODF lies in `[0, m)` (R102). -/
theorem modf_range : isFinite (modf (config nan) x m) = true ∧ 0 ≤ units (modf (config nan) x m) ∧
    units (modf (config nan) x m) < m * unitScale := by
  obtain ⟨hfin, hlow, hhigh⟩ := within_rem_modulus (nan := nan) hx hm hm24
  rw [modf_config hx hm hm24]
  split_ifs with heq
  · rw [units_zero]
    exact ⟨by decide, le_rfl, mul_unitScale_pos hm⟩
  · exact ⟨hfin, hlow, lt_of_le_of_ne hhigh heq⟩

/-- Between 0 and `2m` the remainder is the value or the value less `m`, which is representable (R102). -/
theorem units_modf (h0 : 0 ≤ units x) (h2 : units x < 2 * (m * unitScale)) :
    units (modf (config nan) x m) = units x % (m * unitScale) := by
  have hpos := mul_unitScale_pos hm
  have hlt := Int.emod_lt_of_pos (units x) hpos
  have hrep : Representable (units x % (m * unitScale)) := by
    rcases lt_or_ge (units x) (m * unitScale) with hsmall | hlarge
    · rw [Int.emod_eq_of_lt h0 hsmall]
      exact representable_units hx
    · have hrem : units x % (m * unitScale) = units x - m * unitScale := by
        rw [← Int.sub_emod_right, Int.emod_eq_of_lt (by omega) (by omega)]
      rw [hrem] at hlt ⊢
      refine representable_sub_nat hx (by omega) (hlt.trans_le ?_)
      exact mul_le_mul_of_nonneg_right (by exact_mod_cast hm24) (Int.natCast_nonneg _)
  have hexact := within_rem (nan := nan) hx hm hrep hrep le_rfl le_rfl
  rw [modf_config hx hm hm24, if_neg (by rw [hexact.units_eq]; exact hlt.ne), hexact.units_eq]

end Modulus

/-- READPOS under F32, operation by operation (R103). -/
theorem readPos_config (nan d : F32) (e : Engine F32) : readPos (config nan) e d =
    modf (config nan) (sub nan (add nan (sub nan (toNum e.wcur.toNat) (mul nan d (toNum e.sr.toNat)))
      (toNum e.cap.toNat)) 0x40400000#32) e.cap.toNat := by
  simp only [readPos_eq, readArg_eq, regInt, config_sub, config_add, config_mul, config_toNum,
    config_toParams, toNum_guard]

/-- V-RP-1 (R103). -/
theorem readPos_example (nan : F32) (e : Engine F32) (hw : e.wcur = 10#32) (hs : e.sr = 80#32)
    (hc : e.cap = 48#32) : readPos (config nan) e 0x3DC00000#32 = 0x423E0000#32 := by
  have hprod : mul nan 0x3DC00000#32 (toNum (80#32).toNat) = 0x40F00000#32 := by
    rw [mul_nan_irrel 0#32 (by decide) (by decide +kernel)]
    decide +kernel
  have hdiff : sub nan (toNum (10#32).toNat) 0x40F00000#32 = 0x40200000#32 := by
    rw [sub_nan_irrel 0#32 (by decide +kernel) (by decide)]
    decide +kernel
  have hsum : add nan 0x40200000#32 (toNum (48#32).toNat) = 0x424A0000#32 := by
    rw [add_nan_irrel 0#32 (by decide) (by decide +kernel)]
    decide +kernel
  have harg : sub nan 0x424A0000#32 0x40400000#32 = 0x423E0000#32 := by
    rw [sub_nan_irrel 0#32 (by decide) (by decide)]
    decide +kernel
  have hrem : rem nan 0x423E0000#32 (48#32).toNat = 0x423E0000#32 := by
    rw [rem_nan_irrel 0#32 _ (by decide)]
    decide +kernel
  rw [readPos_config, hw, hs, hc, hprod, hdiff, hsum, harg,
    modf_config (by decide) (by decide) (by decide), hrem]
  exact if_neg (by decide +kernel)

end Sys2Proof.Binary32

namespace Sys2Proof.Reals

open Sys2Proof.Machine

/-- MODF under REAL is the exact remainder (R102). -/
theorem modf_real (x : ℝ) {m : ℕ} (hm : 0 < m) : modf config x m = x - m * ⌊x / m⌋ := by
  have hne : ¬ numEq config (config.rem x m) (config.toNum m) = true := by
    rw [numEq_iff, config_toNum, Int.cast_natCast]
    exact (rem_range x hm).2.ne
  rw [modf_eq, if_neg hne, config_rem]

theorem readPos_real (d : ℝ) (e : Engine ℝ) : readPos config e d =
    modf config (e.wcur.toNat - d * e.sr.toNat + e.cap.toNat - 3) e.cap.toNat := by
  have hguard : config.toNum (config.guard : ℕ) = 3 := by norm_num [Params.vibcore]
  rw [readPos_eq, readArg_eq, hguard]
  simp only [regInt, config_sub, config_add, config_mul, config_toNum, Int.cast_natCast]

/-- The remainder of a value below `m`, and of one from `m` to `2m`. -/
theorem modf_real_cases (x : ℝ) {m : ℕ} (hm : 0 < m) :
    (0 ≤ x → x < m → modf config x m = x) ∧ (m ≤ x → x < 2 * m → modf config x m = x - m) := by
  have hpos : (0 : ℝ) < m := by exact_mod_cast hm
  rw [modf_real x hm]
  constructor <;> intro h0 h1
  · rw [Int.floor_eq_zero_iff.2 ⟨div_nonneg h0 hpos.le, (div_lt_one hpos).2 h1⟩]
    simp
  · have hfloor : ⌊x / m⌋ = 1 := by
      rw [Int.floor_eq_iff, Int.cast_one, le_div_iff₀ hpos, div_lt_iff₀ hpos]
      constructor <;> linarith
    rw [hfloor, Int.cast_one, mul_one]

/-- Settles O46: under F32 from the remainder rounded between representable bounds, under REAL from the exact one. -/
theorem modfRange : Obligations.ModfRange := by
  refine ⟨fun nan x m hx hm hm24 => ?_, fun x m hm => ?_, fun nan x m hx hm hm24 => ?_,
    fun nan d e => Binary32.readPos_config nan d e, fun d e hc => ?_, fun N C e w => sample_eq_interp C e w,
    fun nan e => Binary32.readPos_example nan e⟩
  · obtain ⟨hfin, hlow, hhigh⟩ := Binary32.modf_range (nan := nan) hx hm hm24
    rw [Binary32.unitScale_eq] at hhigh
    refine ⟨hfin, hlow, hhigh, fun h0 h2 => ?_⟩
    rw [Binary32.units_modf hx hm hm24 h0 (by rw [Binary32.unitScale_eq]; linarith), Binary32.unitScale_eq]
  · have h := rem_range x hm
    rw [modf_real x hm]
    exact ⟨rfl, h⟩
  · refine ⟨Binary32.rem nan x m, Binary32.rem_roundedOnce hx hm, ?_⟩
    rw [Binary32.modf_config hx hm hm24]
    exact if_congr Binary32.ofBits_eq_natCast_iff.symm rfl rfl
  · rw [readPos_real]
    exact ⟨modf_real _ hc, modf_real_cases _ hc⟩

end Sys2Proof.Reals
end

/-! SUPPORT. The four taps' circular indices and the exact offset between them (R104). Settles O48. -/

section
namespace Sys2Proof.Machine

variable {cap : Reg} {j : ℤ}

/-! A circular index, at most one wrap away (R64). -/

theorem circular_of_mem (h0 : 0 ≤ j) (h : j < regInt cap) : circular cap j = j := Int.emod_eq_of_lt h0 h

theorem circular_add_cap (cap : Reg) (j : ℤ) : circular cap (j + regInt cap) = circular cap j :=
  Int.add_emod_right _ _

theorem circular_of_neg (h0 : -regInt cap ≤ j) (h : j < 0) : circular cap j = j + regInt cap := by
  rw [← circular_add_cap]
  exact circular_of_mem (by omega) (by omega)

theorem circular_of_ge (h0 : regInt cap ≤ j) (h : j < 2 * regInt cap) : circular cap j = j - regInt cap := by
  have hback := circular_add_cap cap (j - regInt cap)
  rw [sub_add_cancel] at hback
  rw [hback]
  exact circular_of_mem (by omega) (by omega)

theorem circular_tap_before {i : ℤ} (h0 : 0 ≤ i) (h1 : i < regInt cap) :
    circular cap (i - 1) = if i = 0 then regInt cap - 1 else i - 1 := by
  split_ifs with h
  · rw [circular_of_neg (by omega) (by omega)]
    omega
  · exact circular_of_mem (by omega) (by omega)

variable {i : ℤ} (hcap : 6 ≤ regInt cap) (h0 : 0 ≤ i) (h1 : i < regInt cap)

include hcap h0 h1

theorem circular_tap_after {k : ℤ} (hk0 : 1 ≤ k) (hk : k ≤ 2) :
    circular cap (i + k) = if i < regInt cap - k then i + k else i + k - regInt cap := by
  split_ifs with h
  · exact circular_of_mem (by omega) (by omega)
  · exact circular_of_ge (by omega) (by omega)

/-- The four taps are distinct (R104). -/
theorem nodup_taps : [circular cap (i - 1), i, circular cap (i + 1), circular cap (i + 2)].Nodup := by
  rw [circular_tap_before h0 h1, circular_tap_after hcap h0 h1 le_rfl one_le_two,
    circular_tap_after hcap h0 h1 one_le_two le_rfl]
  simp only [List.nodup_cons, List.mem_cons, List.not_mem_nil, or_false, not_or, not_false_eq_true,
    List.nodup_nil, and_true]
  split_ifs <;> omega

/-- The four tap configurations of R104. -/
theorem tap_configurations :
    (1 ≤ i → i ≤ regInt cap - 3 →
      circular cap (i - 1) = i - 1 ∧ circular cap (i + 1) = i + 1 ∧ circular cap (i + 2) = i + 2) ∧
    (i = 0 → circular cap (i - 1) = regInt cap - 1 ∧ circular cap (i + 1) = 1 ∧ circular cap (i + 2) = 2) ∧
    (i = regInt cap - 2 → circular cap (i - 1) = i - 1 ∧ circular cap (i + 1) = i + 1 ∧
      circular cap (i + 2) = 0) ∧
    (i = regInt cap - 1 → circular cap (i - 1) = i - 1 ∧ circular cap (i + 1) = 0 ∧
      circular cap (i + 2) = 1) := by
  rw [circular_tap_before h0 h1, circular_tap_after hcap h0 h1 le_rfl one_le_two,
    circular_tap_after hcap h0 h1 one_le_two le_rfl]
  split_ifs <;> omega

end Sys2Proof.Machine

namespace Sys2Proof.Binary32

open Sys2Proof.Machine

variable {nan pos : F32} {i : ℤ}

theorem isFinite_of_floor (h : floor pos = some i) : isFinite pos = true := by
  rw [isFinite_iff]
  unfold floor at h
  cases hp : unpack pos with
  | nan => simp [hp] at h
  | inf s => simp [hp] at h
  | fin s u => exact ⟨s, u, rfl⟩

/-- The floor is the largest integer not above the value (R12). -/
theorem floor_bounds (h : floor pos = some i) :
    0 ≤ units pos - i * unitScale ∧ units pos - i * unitScale < unitScale := by
  have hscale : (0 : ℤ) < unitScale := by exact_mod_cast unitScale_pos
  rw [floor_of_finite (isFinite_of_floor h)] at h
  obtain rfl := Option.some.inj h
  have hdiv := Int.mul_ediv_add_emod (units pos) unitScale
  have hlow := Int.emod_nonneg (units pos) hscale.ne'
  have hhigh := Int.emod_lt_of_pos (units pos) hscale
  rw [mul_comm] at hdiv
  constructor <;> linarith

/-- The offset of a position from its floor is not rounded (R104). -/
theorem within_offset (h : floor pos = some i) (h0 : 0 ≤ i) (h24 : i < 2 ^ 24) :
    Within (units pos - i * unitScale) (units pos - i * unitScale) (sub nan pos (toNum i)) := by
  obtain ⟨hlow, hhigh⟩ := floor_bounds h
  obtain ⟨n, rfl⟩ := Int.eq_ofNat_of_zero_le h0
  have hn := within_toNum (n := n) (abs_natCast_le (by omega))
  have hrep := representable_sub_nat (isFinite_of_floor h) hlow
    (hhigh.trans_le (le_mul_of_one_le_left (Int.natCast_nonneg _) (by norm_num)))
  refine within_sub (isFinite_of_floor h) hn.finite hrep hrep ?_ ?_ <;> rw [hn.units_eq]

/-- The cubic under F32, operation by operation (R105). -/
theorem cubic_config (nan a s0 s1 s2 s3 : F32) : cubic (config nan) a s0 s1 s2 s3 =
    add nan (add nan (add nan
      (div nan (mul nan (mul nan (mul nan a (sub nan a 0x3F800000#32)) (sub nan a 0x40000000#32)) s0)
        0xC0C00000#32)
      (div nan (mul nan (mul nan (mul nan (sub nan a 0x3F800000#32) (add nan a 0x3F800000#32))
        (sub nan a 0x40000000#32)) s1) 0x40000000#32))
      (div nan (mul nan (mul nan (mul nan a (add nan a 0x3F800000#32)) (sub nan a 0x40000000#32)) s2)
        0xC0000000#32))
      (div nan (mul nan (mul nan (mul nan a (add nan a 0x3F800000#32)) (sub nan a 0x3F800000#32)) s3)
        0x40C00000#32) := by
  simp only [cubic_eq, config_add, config_sub, config_mul, config_div, config_toNum, toNum_one, toNum_two,
    toNum_neg_two, toNum_six, toNum_neg_six]

/-- Settles O48, from the taps' indices, the exact offset and the cubic's operations. -/
theorem tapConfigurations : Obligations.TapConfigurations := by
  refine ⟨fun cap i h6 h0 h1 => ?_, fun nan pos i hfloor h0 h24 => ?_,
    fun nan pos s0 s1 s2 s3 e i hfloor h0 h1 h2 h3 => ?_⟩
  · have hcap : 6 ≤ regInt cap := by unfold regInt; omega
    exact ⟨nodup_taps hcap h0 h1, circular_range (by omega), tap_configurations hcap h0 h1⟩
  · rw [← unitScale_eq]
    exact ⟨(within_offset hfloor h0 h24).units_eq, floor_bounds hfloor⟩
  · rw [interp_eq_ok.2 ⟨i, s0, s1, s2, s3, hfloor, h0, h1, h2, h3, rfl⟩, config_sub, config_toNum,
      cubic_config]

end Sys2Proof.Binary32
end

/-! SUPPORT. At offset 0 three terms of the cubic vanish and the fourth is not rounded (R106). Settles O49. -/

section
namespace Sys2Proof.Binary32

open Sys2Proof.Machine

variable {nan x y : F32} {u : ℤ}

theorem within_mul_zero (hx : Within 0 0 x) (hy : isFinite y = true) : Within 0 0 (mul nan x y) := by
  refine within_mul hx.finite hy representable_zero representable_zero ?_ ?_ <;>
    rw [hx.units_eq, zero_mul, zero_mul]

theorem within_div_zero (hx : Within 0 0 x) (hy : isFinite y = true) (h0 : units y ≠ 0) :
    Within 0 0 (div nan x y) := by
  refine within_div hx.finite hy representable_zero representable_zero h0 ?_ ?_ <;>
    rw [hx.units_eq, zero_mul, zero_mul, mul_zero]

theorem within_add_zero (hx : Within u u x) (hy : Within 0 0 y) : Within u u (add nan x y) := by
  have hrep : Representable u := ⟨x, hx.finite, hx.units_eq⟩
  refine within_add hx.finite hy.finite hrep hrep ?_ ?_ <;> rw [hx.units_eq, hy.units_eq, add_zero]

theorem within_zero_add (hx : Within 0 0 x) (hy : Within u u y) : Within u u (add nan x y) := by
  have hrep : Representable u := ⟨y, hy.finite, hy.units_eq⟩
  refine within_add hx.finite hy.finite hrep hrep ?_ ?_ <;> rw [hx.units_eq, hy.units_eq, zero_add]

/-- Twice a value below `2^127` is representable. -/
theorem representable_two_mul {s : F32} (hs : isFinite s = true) (h : |units s| < 2 ^ 276) :
    Representable (2 * units s) := by
  obtain ⟨q, k, hus, hq, hk, hn⟩ := units_eq_mul_two_pow hs
  have hk' : k ≤ 252 := by
    by_contra hlt
    obtain rfl : k = 253 := by omega
    rw [hus, abs_mul, abs_of_pos (by positivity : (0 : ℤ) < 2 ^ 253)] at h
    have hbig : 2 ^ 23 * 2 ^ 253 ≤ |q| * 2 ^ 253 :=
      mul_le_mul_of_nonneg_right (hn.resolve_left (by norm_num)) (by positivity)
    rw [← pow_add] at hbig
    exact lt_irrefl _ (hbig.trans_lt h)
  have hrep := representable_mul_two_pow hq (by omega : k + 1 ≤ 253)
  rwa [show q * 2 ^ (k + 1) = 2 * units s by rw [hus]; ring] at hrep

/-- The cubic at offset 0 (R106). -/
theorem within_cubic_zero {a s0 s1 s2 s3 : F32} (ha : Within 0 0 a) (h0 : isFinite s0 = true)
    (h1 : isFinite s1 = true) (h2 : isFinite s2 = true) (h3 : isFinite s3 = true)
    (hs1 : |units s1| < 2 ^ 276) :
    Within (units s1) (units s1) (cubic (config nan) a s0 s1 s2 s3) := by
  have hint {n : ℤ} (hn : |n| ≤ 2 ^ 24) : Representable (n * unitScale) := representable_int hn
  have htwo : units 0x40000000#32 = 2 * unitScale := by decide +kernel
  have hm1 : Within (-1 * unitScale) (-1 * unitScale) (sub nan a 0x3F800000#32) := by
    refine within_sub ha.finite (by decide) (hint (by norm_num)) (hint (by norm_num)) ?_ ?_ <;>
      rw [ha.units_eq, units_one] <;> omega
  have hm2 : Within (-2 * unitScale) (-2 * unitScale) (sub nan a 0x40000000#32) := by
    refine within_sub ha.finite (by decide) (hint (by norm_num)) (hint (by norm_num)) ?_ ?_ <;>
      rw [ha.units_eq, htwo] <;> omega
  have hp1 : Within (1 * unitScale) (1 * unitScale) (add nan a 0x3F800000#32) := by
    refine within_add ha.finite (by decide) (hint (by norm_num)) (hint (by norm_num)) ?_ ?_ <;>
      rw [ha.units_eq, units_one] <;> omega
  have hprod : Within (-1 * unitScale) (-1 * unitScale)
      (mul nan (sub nan a 0x3F800000#32) (add nan a 0x3F800000#32)) := by
    refine within_mul hm1.finite hp1.finite (hint (by norm_num)) (hint (by norm_num)) ?_ ?_ <;>
      rw [hm1.units_eq, hp1.units_eq, one_mul]
  have hcoeff : Within (2 * unitScale) (2 * unitScale)
      (mul nan (mul nan (sub nan a 0x3F800000#32) (add nan a 0x3F800000#32)) (sub nan a 0x40000000#32)) := by
    refine within_mul hprod.finite hm2.finite (hint (by norm_num)) (hint (by norm_num)) ?_ ?_ <;>
      rw [hprod.units_eq, hm2.units_eq] <;> exact le_of_eq (by ring)
  have hdouble := representable_two_mul h1 hs1
  have hterm : Within (2 * units s1) (2 * units s1)
      (mul nan (mul nan (mul nan (sub nan a 0x3F800000#32) (add nan a 0x3F800000#32))
        (sub nan a 0x40000000#32)) s1) := by
    refine within_mul hcoeff.finite h1 hdouble hdouble ?_ ?_ <;> rw [hcoeff.units_eq] <;>
      exact le_of_eq (by ring)
  have hpos : 0 < units 0x40000000#32 := by decide +kernel
  have hone : Within (units s1) (units s1)
      (div nan (mul nan (mul nan (mul nan (sub nan a 0x3F800000#32) (add nan a 0x3F800000#32))
        (sub nan a 0x40000000#32)) s1) 0x40000000#32) := by
    refine within_div_of_pos hterm.finite (by decide) (representable_units h1) (representable_units h1) hpos
      ?_ ?_ <;> rw [hterm.units_eq, htwo] <;> exact le_of_eq (by ring)
  rw [cubic_config]
  exact within_add_zero (within_add_zero (within_zero_add
    (within_div_zero (within_mul_zero (within_mul_zero (within_mul_zero ha hm1.finite) hm2.finite) h0)
      (by decide) (by decide +kernel)) hone)
    (within_div_zero (within_mul_zero (within_mul_zero (within_mul_zero ha hp1.finite) hm2.finite) h2)
      (by decide) (by decide +kernel)))
    (within_div_zero (within_mul_zero (within_mul_zero (within_mul_zero ha hp1.finite) hm1.finite) h3)
      (by decide) (by decide +kernel))

/-- A read under F32 gives a word of the buffer (R61). -/
theorem bufRead_config {e : Engine F32} {j : ℤ} {s : F32} (h : bufRead (config nan) e j = .ok s) :
    (0 ≤ j ∧ j < regInt e.cap) ∧ s = bufWord e j.toNat := by
  obtain ⟨hj, rfl⟩ := bufRead_eq_ok.1 h
  rw [config_toNum, toNum_zero]
  exact ⟨hj, rfl⟩

end Sys2Proof.Binary32

namespace Sys2Proof.Reals

open Sys2Proof.Machine

/-- Settles O49: the offset of an integer position is 0 in both modes. -/
theorem interpolationIdentity : Obligations.InterpolationIdentity := by
  refine ⟨fun nan pos y s1 e i hfloor hpos h24 hbuf hs1 hlt hy => ?_, fun e i y s1 hs1 hy => ?_⟩
  · obtain ⟨j, s0, t1, s2, s3, hfloor', h0, h1, h2, h3, rfl⟩ := interp_eq_ok.1 hy
    obtain rfl := Option.some.inj (hfloor.symm.trans hfloor')
    obtain rfl := Except.ok.inj (hs1.symm.trans h1)
    have hfin {k : ℤ} {s : F32} (h : bufRead (Binary32.config nan) e k = .ok s) :
        Binary32.isFinite s = true := by
      rw [(Binary32.bufRead_config h).2]
      exact hbuf _
    obtain ⟨⟨hi0, -⟩, -⟩ := Binary32.bufRead_config h1
    have ha := Binary32.within_offset (nan := nan) hfloor hi0 h24
    rw [Binary32.unitScale_eq, hpos, sub_self] at ha
    rw [Binary32.config_sub, Binary32.config_toNum]
    have h := Binary32.within_cubic_zero (nan := nan) ha (hfin h0) (hfin h1) (hfin h2) (hfin h3) hlt
    exact ⟨h.finite, h.units_eq⟩
  · obtain ⟨j, s0, t1, s2, s3, hfloor, -, h1, -, -, rfl⟩ := interp_eq_ok.1 hy
    rw [config_floor, Int.floor_intCast] at hfloor
    obtain rfl := Option.some.inj hfloor
    obtain rfl := Except.ok.inj (hs1.symm.trans h1)
    rw [config_sub, config_toNum, sub_self, cubic_real]
    ring

end Sys2Proof.Reals
end

/-! SUPPORT. The read position between two integers: the delay in samples is at most the whole number `K` past
`2/5 × SR`, so each operation of READPOS keeps integer bounds, and the taps lie behind the cursor (R111, R186). Settles
O51. -/

section
namespace Sys2Proof.Machine

open Sys2Proof.Binary32

variable {nan : F32} {e : Engine F32}

/-- The whole number past `MAX_WIDTH × SR`: no delay in samples rounds past it. -/
def maxDelay (sr : Reg) : ℕ := 2 * sr.toNat / 5 + 1

/-- The delay in samples (R103). -/
theorem within_delaySamples {d : F32} (hd : Within 0 (units 0x3ECCCCCD#32) d) {sr : Reg}
    (hsr : sr.toNat ≤ 218453) : Within 0 (maxDelay sr * unitScale) (mul nan d (toNum sr.toNat)) := by
  have hmax : units 0x3ECCCCCD#32 = 13421773 * 2 ^ 124 := by decide +kernel
  have hrate := within_toNum (n := sr.toNat) (abs_natCast_le (by omega))
  have hK : maxDelay sr ≤ 2 ^ 24 := by unfold maxDelay; omega
  have hscale : (0 : ℤ) ≤ unitScale := Int.natCast_nonneg _
  refine within_mul hd.finite hrate.finite representable_zero (representable_int (abs_natCast_le hK)) ?_ ?_ <;>
    rw [hrate.units_eq, ← mul_assoc]
  · rw [zero_mul]
    exact mul_nonneg (mul_nonneg hd.low (Int.natCast_nonneg _)) hscale
  · refine mul_le_mul_of_nonneg_right ?_ hscale
    have hkey : (13421773 : ℤ) * sr.toNat ≤ maxDelay sr * 2 ^ 25 := by unfold maxDelay; omega
    calc units d * sr.toNat ≤ 13421773 * 2 ^ 124 * sr.toNat :=
          mul_le_mul_of_nonneg_right (hd.high.trans_eq hmax) (Int.natCast_nonneg _)
      _ = 13421773 * sr.toNat * 2 ^ 124 := by ring
      _ ≤ maxDelay sr * 2 ^ 25 * 2 ^ 124 := mul_le_mul_of_nonneg_right hkey (by positivity)
      _ = maxDelay sr * unitScale := by rw [unitScale_eq]; ring

/-- Sums and differences between integers stay between the integers' sums and differences. -/
theorem within_add_int {x y : F32} {a b c d : ℤ} (hx : Within (a * unitScale) (b * unitScale) x)
    (hy : Within (c * unitScale) (d * unitScale) y) (hlo : |a + c| ≤ 2 ^ 24) (hhi : |b + d| ≤ 2 ^ 24) :
    Within ((a + c) * unitScale) ((b + d) * unitScale) (add nan x y) := by
  refine within_add hx.finite hy.finite (representable_int hlo) (representable_int hhi) ?_ ?_ <;> rw [add_mul]
  · exact add_le_add hx.low hy.low
  · exact add_le_add hx.high hy.high

theorem within_sub_int {x y : F32} {a b c d : ℤ} (hx : Within (a * unitScale) (b * unitScale) x)
    (hy : Within (c * unitScale) (d * unitScale) y) (hlo : |a - d| ≤ 2 ^ 24) (hhi : |b - c| ≤ 2 ^ 24) :
    Within ((a - d) * unitScale) ((b - c) * unitScale) (sub nan x y) := by
  refine within_sub hx.finite hy.finite (representable_int hlo) (representable_int hhi) ?_ ?_ <;> rw [sub_mul]
  · exact sub_le_sub hx.low hy.high
  · exact sub_le_sub hx.high hy.low

/-- READPOS's argument under F32, operation by operation (R103). -/
theorem readArg_config (nan d : F32) (e : Engine F32) : readArg (config nan) e d =
    sub nan (add nan (sub nan (toNum e.wcur.toNat) (mul nan d (toNum e.sr.toNat))) (toNum e.cap.toNat))
      0x40400000#32 := by
  simp only [readArg_eq, regInt, config_sub, config_add, config_mul, config_toNum, config_toParams, toNum_guard]

theorem within_guard : Within (3 * unitScale) (3 * unitScale) 0x40400000#32 :=
  ⟨by decide, by decide +kernel, by decide +kernel⟩

/-- READPOS's argument lies at most `K` below `WCUR + CAP - GUARD` (R111). -/
theorem within_readArg (h : Sized Legal.f32 e) {d : F32} (hd : Within 0 (units 0x3ECCCCCD#32) d) :
    Within ((e.wcur.toNat - maxDelay e.sr + e.cap.toNat - 3) * unitScale)
      ((e.wcur.toNat + e.cap.toNat - 3) * unitScale) (readArg (config nan) e d) := by
  obtain ⟨hlow, hhigh, hcap, -, hcur, -⟩ := h
  have hK : maxDelay e.sr = 2 * e.sr.toNat / 5 + 1 := rfl
  have hwcur := within_toNum (n := e.wcur.toNat) (abs_natCast_le (by omega))
  have hcapNum := within_toNum (n := e.cap.toNat) (abs_natCast_le (by omega))
  have hprod := within_delaySamples (nan := nan) hd hhigh
  rw [← zero_mul (unitScale : ℤ)] at hprod
  have hdiff := within_sub_int (nan := nan) hwcur hprod (abs_le.2 ⟨by omega, by omega⟩)
    (abs_le.2 ⟨by omega, by omega⟩)
  have hsum := within_add_int (nan := nan) hdiff hcapNum (abs_le.2 ⟨by omega, by omega⟩)
    (abs_le.2 ⟨by omega, by omega⟩)
  have harg := within_sub_int (nan := nan) hsum within_guard (abs_le.2 ⟨by omega, by omega⟩)
    (abs_le.2 ⟨by omega, by omega⟩)
  rw [sub_zero] at harg
  rw [readArg_config]
  exact harg

/-- The integer part of a remainder is the remainder of the integer part. -/
theorem emod_mul_ediv (u c : ℤ) {d : ℤ} (hd : 0 < d) : u % (c * d) / d = u / d % c := by
  rw [Int.emod_def, Int.emod_def, mul_comm c d, ← Int.ediv_ediv_of_nonneg hd.le, mul_assoc,
    Int.sub_mul_ediv_left _ _ hd.ne']

/-- The floor of the read position is the circular index of an integer that lies at most `K` below
`WCUR + CAP - GUARD` (R103, R104). -/
theorem floor_readPos (h : Sized Legal.f32 e) {d : F32} (hd : Within 0 (units 0x3ECCCCCD#32) d) :
    ∃ f : ℤ, e.wcur.toNat - maxDelay e.sr + e.cap.toNat - 3 ≤ f ∧ f ≤ e.wcur.toNat + e.cap.toNat - 3 ∧
      floor (readPos (config nan) e d) = some (circular e.cap f) := by
  have harg := within_readArg (nan := nan) h hd
  obtain ⟨hlow, hhigh, hcap, -, hcur, -⟩ := h
  have hK : maxDelay e.sr = 2 * e.sr.toNat / 5 + 1 := rfl
  have hscale : (0 : ℤ) < unitScale := by exact_mod_cast unitScale_pos
  have h0 : 0 ≤ units (readArg (config nan) e d) :=
    (mul_nonneg (by omega) hscale.le).trans harg.low
  have h2 : units (readArg (config nan) e d) < 2 * (e.cap.toNat * unitScale) := by
    rw [← mul_assoc]
    exact harg.high.trans_lt (mul_lt_mul_of_pos_right (by omega) hscale)
  have hcap1 : 1 ≤ e.cap.toNat := by omega
  have hcap24 : e.cap.toNat ≤ 2 ^ 24 := by omega
  refine ⟨units (readArg (config nan) e d) / unitScale, (Int.le_ediv_iff_mul_le hscale).2 harg.low,
    Int.ediv_le_of_le_mul hscale harg.high, ?_⟩
  rw [readPos_eq, floor_of_finite (modf_range harg.finite hcap1 hcap24).1,
    units_modf harg.finite hcap1 hcap24 h0 h2, circular, regInt]
  exact congrArg some (emod_mul_ediv _ _ hscale)

/-- The distance of tap `j` of the integer position `f`: the circular indices drop out (R111). -/
theorem distance_tap (e : Engine F32) (f j : ℤ) :
    distance e (circular e.cap (circular e.cap f + j)) = circular e.cap (regInt e.wcur - (f + j) - 1) + 1 := by
  rw [distance, circular, circular, circular, Int.emod_add_emod, sub_right_comm, Int.sub_emod_emod,
    sub_right_comm]

/-- The taps of a position at most `K` below `WCUR + CAP - GUARD` lie behind the cursor, at most `K + GUARD + 1` behind
(R111). -/
theorem distance_tap_range (h : Sized Legal.f32 e) {f j : ℤ}
    (hlow : e.wcur.toNat - maxDelay e.sr + e.cap.toNat - 3 ≤ f) (hhigh : f ≤ e.wcur.toNat + e.cap.toNat - 3)
    (hj0 : -1 ≤ j) (hj : j ≤ 2) :
    1 ≤ distance e (circular e.cap (circular e.cap f + j)) ∧
      distance e (circular e.cap (circular e.cap f + j)) ≤ 4 + maxDelay e.sr := by
  obtain ⟨hrate, -, hcap, -, -, -⟩ := h
  have hK : maxDelay e.sr = 2 * e.sr.toNat / 5 + 1 := rfl
  rw [distance_tap, ← circular_add_cap, circular_of_mem] <;> unfold regInt <;> omega

/-- `ceil(MAX_WIDTH × SR)` (R111). -/
theorem ceil_maxWidth (sr : ℕ) : ⌈(2 / 5 : ℚ) * sr⌉ = ((2 * sr + 4) / 5 : ℕ) := by
  rw [Int.ceil_eq_iff]
  have hlow : (5 : ℚ) * ((2 * sr + 4) / 5 : ℕ) ≤ 2 * sr + 4 := by
    exact_mod_cast (by omega : 5 * ((2 * sr + 4) / 5) ≤ 2 * sr + 4)
  have hhigh : (2 : ℚ) * sr ≤ 5 * ((2 * sr + 4) / 5 : ℕ) := by
    exact_mod_cast (by omega : 2 * sr ≤ 5 * ((2 * sr + 4) / 5))
  rw [Int.cast_natCast]
  constructor <;> linarith

/-- Settles O51: the delay is at most the width, so `floor_readPos` places the read position, and the taps with it. -/
theorem tapsStayBehindCursor : Obligations.TapsStayBehindCursor := by
  intro s w hinv hp hw h0 hmax
  have hsized := hinv.sized (hinv.sr_ne_zero_of_prepared hp)
  have hdelay := (within_delay (nan := freeNaN s) hinv.phase hw h0).mono le_rfl hmax
  obtain ⟨f, hlow, hhigh, hfloor⟩ := floor_readPos (nan := freeNaN s) hsized hdelay
  have hcap : 0 < s.cap.toNat := by have := hsized.wcur; omega
  obtain ⟨hi0, hi1⟩ := circular_range hcap f
  refine ⟨circular s.cap f, hfloor, hi0, hi1, fun j hj => ?_, ?_⟩
  · have hmem : -1 ≤ j ∧ j ≤ 2 := by
      simp only [List.mem_cons, List.not_mem_nil, or_false] at hj
      omega
    obtain ⟨h1, h2⟩ := distance_tap_range hsized hlow hhigh hmem.1 hmem.2
    refine ⟨h1, h2.trans ?_⟩
    rw [ceil_maxWidth, maxDelay]
    omega
  · obtain ⟨hrate, -, hcapEq, -, -, -⟩ := hsized
    rw [ceil_maxWidth, regInt]
    omega

end Sys2Proof.Machine
end

/-! SUPPORT. Magnitudes through the data path, as powers of two that no operation exceeds (R123). Settles O57. -/

section
namespace Sys2Proof.Binary32

open Sys2Proof.Machine

/-- A finite value of at most `2^n` units in magnitude. -/
def Small (n : ℕ) (v : F32) : Prop := Within (-2 ^ n) (2 ^ n) v

/-- A power of two of units below `2^128` is representable. -/
theorem representable_two_pow {n : ℕ} (hn : n ≤ 276) : Representable (2 ^ n) := by
  rcases le_or_gt n 253 with hle | hgt
  · simpa using representable_mul_two_pow (q := 1) (by norm_num) hle
  · have h := representable_mul_two_pow (q := 2 ^ 23) (k := n - 23) (by norm_num) (by omega)
    rwa [← pow_add, show 23 + (n - 23) = n by omega] at h

section Bounds

variable {nan x y : F32} {a b c : ℕ}

theorem Small.finite (h : Small a x) : isFinite x = true := Within.finite h

theorem Small.abs_units_le (h : Small a x) : |units x| ≤ 2 ^ a := abs_le.2 ⟨h.low, h.high⟩

theorem small_of_abs_le (hx : isFinite x = true) (h : |units x| ≤ 2 ^ a) : Small a x :=
  ⟨hx, (abs_le.1 h).1, (abs_le.1 h).2⟩

theorem Small.mono (h : Small a x) (hab : a ≤ b) : Small b x :=
  small_of_abs_le h.finite (h.abs_units_le.trans (pow_le_pow_right₀ one_le_two hab))

theorem small_mul (hx : Small a x) (hy : Small b y) (hab : a + b ≤ c + 149) (hc : c ≤ 276) :
    Small c (mul nan x y) := by
  have hrep := representable_two_pow hc
  have hprod : |units x * units y| ≤ 2 ^ c * unitScale := by
    rw [abs_mul, unitScale_eq, ← pow_add]
    calc |units x| * |units y| ≤ 2 ^ a * 2 ^ b :=
          mul_le_mul hx.abs_units_le hy.abs_units_le (abs_nonneg _) (by positivity)
      _ = 2 ^ (a + b) := (pow_add _ _ _).symm
      _ ≤ 2 ^ (c + 149) := pow_le_pow_right₀ one_le_two hab
  obtain ⟨hlow, hhigh⟩ := abs_le.1 hprod
  exact within_mul hx.finite hy.finite hrep.neg hrep (by rwa [neg_mul]) hhigh

theorem small_add (hx : Small a x) (hy : Small a y) (ha : a + 1 ≤ 276) : Small (a + 1) (add nan x y) := by
  have hrep := representable_two_pow ha
  have hdouble : (2 : ℤ) ^ (a + 1) = 2 ^ a + 2 ^ a := by ring
  refine within_add hx.finite hy.finite hrep.neg hrep ?_ ?_ <;> rw [hdouble]
  · rw [neg_add]
    exact add_le_add hx.low hy.low
  · exact add_le_add hx.high hy.high

/-- A division by a value of at least 1 in magnitude keeps the bound. -/
theorem small_div (hx : Small a x) (hy : isFinite y = true) (h1 : (unitScale : ℤ) ≤ |units y|) (ha : a ≤ 276) :
    Small a (div nan x y) := by
  have hrep := representable_two_pow ha
  have hscale : (0 : ℤ) < unitScale := by exact_mod_cast unitScale_pos
  have h0 : units y ≠ 0 := abs_pos.1 (hscale.trans_le h1)
  have hquot : |(units y).sign * (units x * unitScale)| ≤ 2 ^ a * |units y| := by
    rw [abs_mul, Int.abs_sign_of_ne_zero h0, one_mul, abs_mul, abs_of_pos hscale]
    exact mul_le_mul hx.abs_units_le h1 hscale.le (by positivity)
  obtain ⟨hlow, hhigh⟩ := abs_le.1 hquot
  exact within_div hx.finite hy hrep.neg hrep h0 (by rwa [neg_mul]) hhigh

end Bounds

/-! ### The read and the blend -/

section DataPath

variable {nan : F32}

/-- One term of the cubic: a product of three factors of at most 2 with a tap of at most `2^100`, over a constant of
at least 1 (R105). -/
theorem small_cubic_term {x y z s d : F32} (hx : Small 150 x) (hy : Small 150 y) (hz : Small 150 z)
    (hs : Small 249 s) (hd : isFinite d = true) (h1 : (unitScale : ℤ) ≤ |units d|) :
    Small 252 (div nan (mul nan (mul nan (mul nan x y) z) s) d) := by
  have hxy : Small 151 (mul nan x y) := small_mul hx hy (by norm_num) (by norm_num)
  have hxyz : Small 152 (mul nan (mul nan x y) z) := small_mul hxy hz (by norm_num) (by norm_num)
  exact small_div (small_mul hxyz hs (by norm_num) (by norm_num)) hd h1 (by norm_num)

/-- A value between -2 and 2, in units. -/
theorem small_of_within {lo hi : ℤ} {v : F32} (h : Within lo hi v) (hlo : -2 * unitScale ≤ lo)
    (hhi : hi ≤ 2 * unitScale) : Small 150 v := by
  rw [unitScale_eq] at hlo hhi
  exact h.mono (by linarith) (by linarith)

/-- The cubic at an offset in `[0, 1)` through taps of at most `2^100` (R105, R123). -/
theorem small_cubic {a s0 s1 s2 s3 : F32} (ha : Within 0 unitScale a) (h0 : Small 249 s0) (h1 : Small 249 s1)
    (h2 : Small 249 s2) (h3 : Small 249 s3) : Small 255 (cubic (config nan) a s0 s1 s2 s3) := by
  have hscale : (0 : ℤ) < unitScale := by exact_mod_cast unitScale_pos
  have htwo : units 0x40000000#32 = 2 * unitScale := by decide +kernel
  have hrep {n : ℤ} (hn : |n| ≤ 2 ^ 24) : Representable (n * unitScale) := representable_int hn
  have hlow := ha.low
  have hhigh := ha.high
  have hsame : Small 150 a := small_of_within ha (by linarith) (by linarith)
  have hm1 : Small 150 (sub nan a 0x3F800000#32) := by
    refine small_of_within (within_sub ha.finite (by decide) (hrep (n := -1) (by norm_num))
      (hrep (n := 0) (by norm_num)) ?_ ?_) ?_ ?_ <;> linarith [units_one]
  have hm2 : Small 150 (sub nan a 0x40000000#32) := by
    refine small_of_within (within_sub ha.finite (by decide) (hrep (n := -2) (by norm_num))
      (hrep (n := -1) (by norm_num)) ?_ ?_) ?_ ?_ <;> linarith
  have hp1 : Small 150 (add nan a 0x3F800000#32) := by
    refine small_of_within (within_add ha.finite (by decide) (hrep (n := 1) (by norm_num))
      (hrep (n := 2) (by norm_num)) ?_ ?_) ?_ ?_ <;> linarith [units_one]
  have t0 := small_cubic_term (nan := nan) hsame hm1 hm2 h0 (by decide : isFinite 0xC0C00000#32 = true)
    (by decide +kernel)
  have t1 := small_cubic_term (nan := nan) hm1 hp1 hm2 h1 (by decide : isFinite 0x40000000#32 = true)
    (by decide +kernel)
  have t2 := small_cubic_term (nan := nan) hsame hp1 hm2 h2 (by decide : isFinite 0xC0000000#32 = true)
    (by decide +kernel)
  have t3 := small_cubic_term (nan := nan) hsame hp1 hm1 h3 (by decide : isFinite 0x40C00000#32 = true)
    (by decide +kernel)
  rw [cubic_config]
  exact small_add (small_add (small_add t0 t1 (by norm_num)) (t2.mono (by norm_num)) (by norm_num))
    (t3.mono (by norm_num)) (by norm_num)

/-- A read of a buffer whose words are at most `2^100` (R110, R123). -/
theorem small_sample {e : Engine F32} {w y : F32} (hcap : e.cap.toNat ≤ 2 ^ 24)
    (hwords : ∀ i, Small 249 (bufWord e i)) (h : sample (config nan) e w = .ok y) : Small 255 y := by
  rw [sample_eq_interp] at h
  obtain ⟨i, s0, s1, s2, s3, hfloor, h0, h1, h2, h3, hy⟩ := interp_eq_ok.1 h
  have hword {j : ℤ} {s : F32} (hs : bufRead (config nan) e j = .ok s) : Small 249 s := by
    rw [(bufRead_config hs).2]
    exact hwords _
  rw [config_floor] at hfloor
  obtain ⟨⟨hi0, hi1⟩, -⟩ := bufRead_config h1
  unfold regInt at hi1
  have hoffset := within_offset (nan := nan) hfloor hi0 (by omega)
  obtain ⟨hlow, hhigh⟩ := floor_bounds hfloor
  rw [hy, config_sub, config_toNum]
  exact small_cubic (hoffset.mono hlow hhigh.le) (hword h0) (hword h1) (hword h2) (hword h3)

/-- The root of a value between 0 and 1 is between 0 and 1: neither bound is nearer to the exact root (R14). -/
theorem within_sqrt_unit {x : F32} (hx : Within 0 unitScale x) : Within 0 unitScale (sqrt nan x) := by
  have hscale : (0 : ℝ) < 2 ^ 149 := by positivity
  have hlow : 0 ≤ Reals.ofBits x := div_nonneg (by exact_mod_cast hx.low) hscale.le
  have hhigh : Reals.ofBits x ≤ 1 := by
    rw [Reals.ofBits, div_le_one hscale, ← unitScale_cast]
    exact_mod_cast hx.high
  have hroot1 : Real.sqrt (Reals.ofBits x) ≤ 1 := Real.sqrt_le_one.2 hhigh
  have hroot0 := Real.sqrt_nonneg (Reals.ofBits x)
  obtain ⟨hfin, hnear⟩ := (sqrt_roundedOnce nan hx.finite hlow).1 (by
    rw [abs_of_nonneg hroot0]
    exact hroot1.trans_lt (by norm_num))
  have hzero : Reals.ofBits 0x00000000#32 = 0 := by rw [Reals.ofBits, units_zero, Int.cast_zero, zero_div]
  have hone : Reals.ofBits 0x3F800000#32 = 1 := by
    rw [Reals.ofBits, units_one, Int.cast_natCast, unitScale_cast, div_self hscale.ne']
  have hnear0 := (hnear 0x00000000#32 (by decide)).1
  have hnear1 := (hnear 0x3F800000#32 (by decide)).1
  rw [hzero, sub_zero, abs_of_nonneg hroot0] at hnear0
  rw [hone, abs_of_nonpos (sub_nonpos.2 hroot1)] at hnear1
  have h0 : 0 ≤ Reals.ofBits (sqrt nan x) := by linarith [(abs_le.1 hnear0).2]
  have h1 : Reals.ofBits (sqrt nan x) ≤ 1 := by linarith [(abs_le.1 hnear1).1]
  refine ⟨hfin, ?_, ?_⟩
  · rw [Reals.ofBits, le_div_iff₀ hscale, zero_mul] at h0
    exact_mod_cast h0
  · rw [Reals.ofBits, div_le_one hscale, ← unitScale_cast] at h1
    exact_mod_cast h1

/-- A blend of two reads (R116, R123). -/
theorem small_blend {c len : ℕ} {yp ya : F32} (h : c < len) (hlen : len ≤ 2 ^ 24) (hp : Small 255 yp)
    (ha : Small 255 ya) : Small 256 (blend (config nan) c len yp ya) := by
  have hsmall {x : F32} (hx : Within 0 unitScale x) : Small 149 x := by
    rw [unitScale_eq] at hx
    exact hx.mono (by norm_num) le_rfl
  have hratio := within_ratio (nan := nan) h hlen
  have hratio1 : Within 0 unitScale (div nan (toNum c) (toNum len)) :=
    hratio.mono le_rfl (by rw [unitScale_eq]; norm_num)
  have hrest : Within 0 unitScale (sub nan 0x3F800000#32 (div nan (toNum c) (toNum len))) := by
    refine within_sub (by decide) hratio1.finite representable_zero ?_ ?_ ?_
    · simpa using representable_int (n := 1) (by norm_num)
    · rw [units_one]
      linarith [hratio1.high]
    · rw [units_one]
      linarith [hratio1.low]
  rw [blend_config]
  exact small_add (small_mul (hsmall (within_sqrt_unit hrest)) hp (by norm_num) (by norm_num))
    (small_mul (hsmall (within_sqrt_unit hratio1)) ha (by norm_num) (by norm_num)) (by norm_num)

/-- The crossfaded value (R116, R117, R123). -/
theorem small_crossfade {e r : Engine F32} {y : F32} (hcap : e.cap.toNat ≤ 2 ^ 24) (hlen : e.tlen.toNat ≤ 2 ^ 24)
    (hwords : ∀ i, Small 249 (bufWord e i)) (h : crossfade (config nan) e = .ok (y, r)) : Small 256 y := by
  obtain ⟨ya, hya, ⟨-, heq⟩ | ⟨-, yp, hyp, hcnt, heq⟩⟩ := crossfade_eq_ok.1 h <;>
    obtain ⟨rfl, -⟩ := Prod.mk.injEq .. ▸ heq
  · exact (small_sample hcap hwords hya).mono (by norm_num)
  · exact small_blend hcnt hlen (small_sample hcap hwords hyp) (small_sample hcap hwords hya)

end DataPath

end Sys2Proof.Binary32

namespace Sys2Proof.Machine

open Sys2Proof.Binary32

/-- A word of a buffer list is a listed one, or what an unlisted index reads as. -/
theorem bufLookup_eq_or_mem {N : Type} (zero : N) (b : List (Nat × N)) (i : ℕ) :
    bufLookup zero b i = zero ∨ ∃ c ∈ b, c.2 = bufLookup zero b i := by
  induction b with
  | nil => exact .inl rfl
  | cons p rest ih =>
    obtain ⟨j, v⟩ := p
    rw [bufLookup]
    split_ifs with hj
    · exact .inr ⟨_, List.mem_cons_self .., rfl⟩
    · exact ih.imp_right fun ⟨c, hc, h⟩ => ⟨c, List.mem_cons_of_mem _ hc, h⟩

/-- Every word of the buffer is finite (R62). -/
theorem isFinite_bufWord {e : Engine F32} (h : Inv e) (i : ℕ) : isFinite (bufWord e i) = true := by
  rcases bufLookup_eq_or_mem 0x00000000#32 e.buf i with h0 | ⟨c, hc, h1⟩
  · rw [bufWord, h0]
    decide
  · rw [bufWord, ← h1]
    exact (h.words c hc).2.2

/-- A gain in its range is below 2^4 (R33). -/
theorem small_of_gainOk {v : F32} (h : gainOk v) : Small 153 v := by
  obtain ⟨hfin, hlow, hhigh⟩ := (between_iff_units (by decide) (by decide)).1 h
  have hmin : -2 ^ 153 ≤ units 0x3D0186E2#32 := by decide +kernel
  have hmax : units 0x41200000#32 ≤ 2 ^ 153 := by decide +kernel
  exact ⟨hfin, hmin.trans hlow, hhigh.trans hmax⟩

/-- Settles O57: words of at most `2^100` give reads of at most `2^106`, and an output far below the overflow. -/
theorem outputFinite : Obligations.OutputFinite := by
  intro bits s t hinv hp hbound hexec
  obtain ⟨r, hr, rfl⟩ := execProcess_eq_next.1 hexec
  rw [State.config_eq] at hr
  have hsized := hinv.sized (hinv.sr_ne_zero_of_prepared hp)
  obtain ⟨-, -, hsmooth⟩ := process_smoothed hp hr
  have hgain : gainOk r.sgain := by
    rw [hsmooth]
    exact (keepsRanges_f32 (freeNaN s)).smoothGain hinv.gain hsized.sgain
  obtain ⟨y, e1, hcross, -, -, -, houtL, houtR⟩ := process_stages hp hr
  have hcap := hsized.cap_le
  have htlen := hsized.tlen
  have hrate := hsized.rateHigh
  have hy : Small 256 y := by
    refine small_crossfade (nan := freeNaN s) ?_ ?_ (fun i => ?_) hcross
    · rw [trigger_cap, smoothAll_cap]
      omega
    · rw [trigger_tlen, smoothAll_tlen]
      omega
    · have hbuf : bufWord (trigger (config (freeNaN s)) (smoothAll (config (freeNaN s)) s.toEngine)) i =
          bufWord s.toEngine i := by
        simp [bufWord]
      rw [hbuf]
      exact small_of_abs_le (isFinite_bufWord hinv i) (hbound i)
  have hout : isFinite r.outL = true := by
    rw [houtL, config_mul]
    exact (small_mul (nan := freeNaN s) (c := 260) hy (small_of_gainOk hgain) (by norm_num) (by norm_num)).finite
  exact ⟨hout, by rw [houtR]; exact hout⟩

end Sys2Proof.Machine
end

/-! SUPPORT. A zero of either sign through the data path: a finite factor, a divisor that is no zero and another zero
keep it one, so a read of silent words and a blend of silent reads are zeros (R105, R116). -/

section
namespace Sys2Proof.Binary32

open Sys2Proof.Machine

/-- A zero of either sign is a finite pattern of no units. -/
theorem isZero_iff_within {v : F32} : isZero v ↔ Within 0 0 v := by
  constructor
  · intro h
    have hmag : magBits v = 0 := h
    have hfin : isFinite v = true := by
      rw [isFinite, hmag]
      decide
    have h0 : units v = 0 := (units_eq_zero_iff hfin).2 (by rw [hmag, magUnits_zero])
    exact ⟨hfin, h0.ge, h0.le⟩
  · intro h
    have hmag := (units_eq_zero_iff h.finite).1 h.units_eq
    rw [← magUnits_zero, magUnits_inj] at hmag
    exact hmag

section Operations

variable {nan x y : F32}

theorem isZero_mul_right (hx : isFinite x = true) (hy : isZero y) : isZero (mul nan x y) := by
  rw [isZero_iff_within] at hy ⊢
  refine within_mul hx hy.finite representable_zero representable_zero ?_ ?_ <;>
    rw [hy.units_eq, mul_zero, zero_mul]

theorem isZero_mul_left (hx : isZero x) (hy : isFinite y = true) : isZero (mul nan x y) := by
  rw [isZero_iff_within] at hx ⊢
  exact within_mul_zero hx hy

theorem isZero_add (hx : isZero x) (hy : isZero y) : isZero (add nan x y) := by
  rw [isZero_iff_within] at hx hy ⊢
  exact within_add_zero hx hy

theorem isZero_div (hx : isZero x) (hy : isFinite y = true) (h0 : units y ≠ 0) : isZero (div nan x y) := by
  rw [isZero_iff_within] at hx ⊢
  exact within_div_zero hx hy h0

end Operations

/-! ### The cubic -/

variable {nan : F32}

/-- The factors of the cubic's coefficients at an offset in `[0, 1)`, none above 4 in magnitude (R105). -/
theorem small_cubic_factors {a : F32} (ha : Within 0 unitScale a) :
    Small 151 a ∧ Small 151 (sub nan a 0x3F800000#32) ∧ Small 151 (sub nan a 0x40000000#32) ∧
      Small 151 (add nan a 0x3F800000#32) := by
  have ha' : Small 150 a := by
    rw [unitScale_eq] at ha
    exact ha.mono (by norm_num) (by norm_num)
  have hone : Small 150 0x3F800000#32 := ⟨by decide, by decide +kernel, by decide +kernel⟩
  have hminusOne : Small 150 (negate 0x3F800000#32) := ⟨by decide, by decide +kernel, by decide +kernel⟩
  have hminusTwo : Small 150 (negate 0x40000000#32) := ⟨by decide, by decide +kernel, by decide +kernel⟩
  exact ⟨ha'.mono (by norm_num), small_add ha' hminusOne (by norm_num), small_add ha' hminusTwo (by norm_num),
    small_add ha' hone (by norm_num)⟩

/-- One term of the cubic with a silent tap (R105). -/
theorem isZero_cubic_term {x y z s d : F32} (hx : Small 151 x) (hy : Small 151 y) (hz : Small 151 z)
    (hs : isZero s) (hd : isFinite d = true) (h0 : units d ≠ 0) :
    isZero (div nan (mul nan (mul nan (mul nan x y) z) s) d) := by
  have hxy : Small 153 (mul nan x y) := small_mul hx hy (by norm_num) (by norm_num)
  have hxyz : Small 155 (mul nan (mul nan x y) z) := small_mul hxy hz (by norm_num) (by norm_num)
  exact isZero_div (isZero_mul_right hxyz.finite hs) hd h0

/-- The cubic through four silent taps (R105). -/
theorem isZero_cubic {a s0 s1 s2 s3 : F32} (ha : Within 0 unitScale a) (h0 : isZero s0) (h1 : isZero s1)
    (h2 : isZero s2) (h3 : isZero s3) : isZero (cubic (config nan) a s0 s1 s2 s3) := by
  obtain ⟨hsame, hm1, hm2, hp1⟩ := small_cubic_factors (nan := nan) ha
  rw [cubic_config]
  exact isZero_add (isZero_add (isZero_add
    (isZero_cubic_term hsame hm1 hm2 h0 (by decide) (by decide +kernel))
    (isZero_cubic_term hm1 hp1 hm2 h1 (by decide) (by decide +kernel)))
    (isZero_cubic_term hsame hp1 hm2 h2 (by decide) (by decide +kernel)))
    (isZero_cubic_term hsame hp1 hm1 h3 (by decide) (by decide +kernel))

/-! ### The read and the blend -/

/-- A read of a silent buffer (R110). -/
theorem isZero_sample {e : Engine F32} {w y : F32} (hcap : e.cap.toNat ≤ 2 ^ 24)
    (hwords : ∀ i < e.cap.toNat, isZero (bufWord e i)) (h : sample (config nan) e w = .ok y) : isZero y := by
  rw [sample_eq_interp] at h
  obtain ⟨i, s0, s1, s2, s3, hfloor, h0, h1, h2, h3, hy⟩ := interp_eq_ok.1 h
  have hword {j : ℤ} {s : F32} (hs : bufRead (config nan) e j = .ok s) : isZero s := by
    obtain ⟨⟨hj0, hj⟩, rfl⟩ := bufRead_config hs
    exact hwords _ ((Int.toNat_lt hj0).2 hj)
  rw [config_floor] at hfloor
  obtain ⟨⟨hi0, hi1⟩, -⟩ := bufRead_config h1
  unfold regInt at hi1
  have hoffset := within_offset (nan := nan) hfloor hi0 (by omega)
  obtain ⟨hlow, hhigh⟩ := floor_bounds hfloor
  rw [hy, config_sub, config_toNum]
  exact isZero_cubic (hoffset.mono hlow hhigh.le) (hword h0) (hword h1) (hword h2) (hword h3)

/-- The weights lie between 0 and 1 (R115). -/
theorem within_weights {c len : ℕ} (h : c < len) (hlen : len ≤ 2 ^ 24) :
    Within 0 unitScale (weights (config nan) c len).1 ∧ Within 0 unitScale (weights (config nan) c len).2 := by
  have hratio : Within 0 unitScale (div nan (toNum c) (toNum len)) :=
    (within_ratio h hlen).mono le_rfl (by rw [unitScale_eq]; norm_num)
  have hrest : Within 0 unitScale (sub nan 0x3F800000#32 (div nan (toNum c) (toNum len))) := by
    refine within_sub (by decide) hratio.finite representable_zero ⟨0x3F800000#32, by decide, units_one⟩ ?_ ?_ <;>
      rw [units_one] <;> linarith [hratio.low, hratio.high]
  rw [weights_config]
  exact ⟨within_sqrt_unit hrest, within_sqrt_unit hratio⟩

/-- A blend of two silent reads (R116). -/
theorem isZero_blend {c len : ℕ} {yp ya : F32} (h : c < len) (hlen : len ≤ 2 ^ 24) (hp : isZero yp)
    (ha : isZero ya) : isZero (blend (config nan) c len yp ya) := by
  obtain ⟨h1, h2⟩ := within_weights (nan := nan) h hlen
  rw [blend_eq, config_add, config_mul]
  exact isZero_add (isZero_mul_right h1.finite hp) (isZero_mul_right h2.finite ha)

/-- The crossfaded value over a silent buffer (R116, R117). -/
theorem isZero_crossfade {e r : Engine F32} {y : F32} (hcap : e.cap.toNat ≤ 2 ^ 24)
    (hlen : e.tlen.toNat ≤ 2 ^ 24) (hwords : ∀ i < e.cap.toNat, isZero (bufWord e i))
    (h : crossfade (config nan) e = .ok (y, r)) : isZero y := by
  obtain ⟨ya, hya, ⟨-, heq⟩ | ⟨-, yp, hyp, hcnt, heq⟩⟩ := crossfade_eq_ok.1 h <;>
    obtain ⟨rfl, -⟩ := Prod.mk.injEq .. ▸ heq
  · exact isZero_sample hcap hwords hya
  · exact isZero_blend hcnt hlen (isZero_sample hcap hwords hyp) (isZero_sample hcap hwords hya)

end Sys2Proof.Binary32
end

/-! SUPPORT. The outputs as a part of the engine: a PROCESS and a PREPARE write both at once, and no other word reaches
them (R120, R134, R154). Settles O29. -/

section
namespace Sys2Proof.Machine

variable {N : Type} {C : Config N} {e r : Engine N} {w : Word}

/-- The outputs of an engine (R48, R49). -/
def outputs (e : Engine N) : N × N := (e.outL, e.outR)

@[simp] theorem outputs_report (c : ResultCode) (w : Word) (e : Engine N) :
    outputs (report c w e) = outputs e := by simp [outputs]

theorem outputs_setParam {put : N → Engine N → Engine N} (hput : ∀ v, outputs (put v e) = outputs e)
    (lo hi : N) (b : F32) (w : Word) : outputs (setParam C put lo hi b w e) = outputs e := by
  rcases setParam_cases C put lo hi b w e with ⟨-, heq⟩ | ⟨-, heq⟩ <;> simp [heq, hput]

/-- A command word is a PROCESS, or a PREPARE, or it reaches neither the outputs nor the buffer. -/
theorem runWord_cases (h : runWord C w e = .ok r) :
    (∃ b, decode w = .instr (.process b) ∧ process C b w e = .ok r) ∨
    (∃ sr blk, decode w = .instr (.prepare sr blk) ∧ r = prepare C sr blk w e) ∨
    (outputs r = outputs e ∧ bufferPart r = bufferPart e) := by
  have hbuffer := bufferPart_runWord h
  unfold BufferPart.after at hbuffer
  unfold runWord at h
  cases hd : decode w with
  | illegal => rw [hd] at h hbuffer; cases h; exact .inr (.inr ⟨outputs_report .., hbuffer⟩)
  | reserved => rw [hd] at h hbuffer; cases h; exact .inr (.inr ⟨outputs_report .., hbuffer⟩)
  | instr i =>
    rw [hd] at h hbuffer
    cases i with
    | process b => exact .inl ⟨b, rfl, h⟩
    | prepare sr blk => cases h; exact .inr (.inl ⟨sr, blk, rfl, rfl⟩)
    | nop => cases h; exact .inr (.inr ⟨outputs_report .., hbuffer⟩)
    | setfreq b => cases h; exact .inr (.inr ⟨outputs_setParam (fun _ => rfl) .., hbuffer⟩)
    | setwidth b => cases h; exact .inr (.inr ⟨outputs_setParam (fun _ => rfl) .., hbuffer⟩)
    | setgain b => cases h; exact .inr (.inr ⟨outputs_setParam (fun _ => rfl) .., hbuffer⟩)

/-- A PREPARE clears both outputs or leaves both (R154, R155). -/
theorem prepare_outputs_equal (C : Config N) (sr : BitVec 32) (blk : BitVec 24) (w : Word)
    (h : e.outR = e.outL) : (prepare C sr blk w e).outR = (prepare C sr blk w e).outL := by
  rcases prepare_cases C sr blk w e with ⟨-, heq⟩ | ⟨cause, -, heq⟩ <;> simp [heq, h]

/-- A PROCESS writes one value to both outputs or leaves both (R120, R130). -/
theorem process_outputs_equal {b : F32} (hr : process C b w e = .ok r) (h : e.outR = e.outL) :
    r.outR = r.outL := by
  rcases process_eq_ok.1 hr with ⟨-, rfl⟩ | ⟨hp, -⟩
  · simpa using h
  · obtain ⟨y, e1, -, -, -, -, -, hout⟩ := process_stages hp hr
    exact hout

theorem runWord_outputs_equal (hr : runWord C w e = .ok r) (h : e.outR = e.outL) : r.outR = r.outL := by
  rcases runWord_cases hr with ⟨b, -, hprocess⟩ | ⟨sr, blk, -, rfl⟩ | ⟨hout, -⟩
  · exact process_outputs_equal hprocess h
  · exact prepare_outputs_equal C sr blk w h
  · obtain ⟨hL, hR⟩ := Prod.mk.inj hout
    rw [hL, hR, h]

/-- Settles O29: the step holds the state, resets it, or is a command word's reference semantics. -/
theorem outputsStayEqual : Obligations.OutputsStayEqual := by
  refine ⟨fun s t h hs => ?_, rfl⟩
  cases hp : s.pending with
  | nil =>
    rw [step_idle hp] at hs
    cases hs
    exact h
  | cons ev rest =>
    cases ev with
    | reset =>
      rw [step_reset hp] at hs
      rw [← Host.Outcome.next.inj hs, hardwareReset_toEngine]
      rfl
    | command w =>
      obtain ⟨n, heq⟩ := step_eq_withEngine_runWord hp
      obtain ⟨r, hr, rfl⟩ := withEngine_eq_next.1 (heq.symm.trans hs)
      exact runWord_outputs_equal hr h

end Sys2Proof.Machine
end

/-! SUPPORT. Silence as an invariant of the streams without a PREPARE whose inputs are zeros (R136). Settles O38. -/

section
namespace Sys2Proof.Machine

open Sys2Proof.Binary32

/-- A buffer word after a PROCESS of a prepared engine: the input at the old cursor, any other as before (R100). -/
theorem bufWord_process {nan b : F32} {w : Word} {e r : Engine F32} (hp : e.status.prepared = true)
    (h : Canonical (config nan).isPosZero e.buf) (hr : process (config nan) b w e = .ok r) (i : ℕ) :
    bufWord r i = if i = e.wcur.toNat then inputSample (config nan) b else bufWord e i := by
  have hpart := (process_parts hr).1
  rw [if_pos hp] at hpart
  have hbuf : r.buf = ((bufferPart e).write (config nan) (inputSample (config nan) b)).buf :=
    congrArg BufferPart.buf hpart
  rw [bufWord, hbuf]
  exact bufLookup_bufInsert (fun v hv => (config_isPosZero nan v).1 hv) h _ _ _

/-- A prepared engine whose buffer in use and output are silent. -/
structure Silent (e : Engine F32) : Prop where
  inv : Inv e
  prepared : e.status.prepared = true
  words : ∀ i < e.cap.toNat, isZero (bufWord e i)
  out : isZero e.outL

/-- The input sample of a silent operand is a zero, that of a non-finite one +0 (R130). -/
theorem isZero_inputSample (nan : F32) {b : F32} (h : isZero b ∨ isFinite b = false) :
    isZero (inputSample (config nan) b) := by
  rw [inputSample_config]
  split_ifs with hfin
  · exact h.resolve_right (by rw [hfin]; exact Bool.noConfusion)
  · exact (by decide : magBits 0x00000000#32 = 0)

section Words

variable {nan b : F32} {w : Word} {e r : Engine F32}

/-- The output of a PROCESS over a silent buffer: a silent crossfaded value under a finite gain (R120). -/
theorem Silent.process_out (h : Silent e) (hr : process (config nan) b w e = .ok r) : isZero r.outL := by
  have hsized := h.inv.sized (h.inv.sr_ne_zero_of_prepared h.prepared)
  have hcap := hsized.cap_le
  have htlen := hsized.tlen
  have hrate := hsized.rateHigh
  obtain ⟨y, e1, hcross, -, -, -, hout, -⟩ := process_stages h.prepared hr
  have hy : isZero y := by
    refine isZero_crossfade (nan := nan) ?_ ?_ (fun i hi => ?_) hcross
    · rw [trigger_cap, smoothAll_cap]
      omega
    · rw [trigger_tlen, smoothAll_tlen]
      omega
    · rw [trigger_cap, smoothAll_cap] at hi
      rw [bufWord, trigger_buf, smoothAll_buf]
      exact h.words i hi
  have hgain : gainOk r.sgain := by
    rw [(process_smoothed h.prepared hr).2.2]
    exact (keepsRanges_f32 nan).smoothGain h.inv.gain hsized.sgain
  rw [hout, config_mul]
  exact isZero_mul_left hy (small_of_gainOk hgain).finite

/-- A PROCESS of a silent input keeps silence (R136). -/
theorem Silent.process (h : Silent e) (hb : isZero b ∨ isFinite b = false)
    (hr : process (config nan) b w e = .ok r) : Silent r := by
  have hcap : r.cap = e.cap := by
    have hpart := (process_parts hr).1
    rw [if_pos h.prepared] at hpart
    exact congrArg BufferPart.cap hpart
  refine ⟨h.inv.process (keepsRanges_f32 nan) hr, process_prepared h.prepared hr, fun i hi => ?_,
    h.process_out hr⟩
  rw [bufWord_process h.prepared (h.inv.canonical (keepsRanges_f32 nan)) hr]
  split_ifs
  · exact isZero_inputSample nan hb
  · exact h.words i (hcap ▸ hi)

/-- A word that is no PREPARE and no PROCESS of a sounding input keeps silence (R136). -/
theorem Silent.runWord (h : Silent e) (hw : notPrepare w)
    (hb : ∀ b ∈ processOperands [w], isZero b ∨ isFinite b = false)
    (hr : runWord (config nan) w e = .ok r) : Silent r := by
  rcases runWord_cases hr with ⟨b, hd, hprocess⟩ | ⟨sr, blk, hd, -⟩ | ⟨hout, hbuffer⟩
  · exact h.process (hb b (by simp [processOperands, hd])) hprocess
  · exact absurd hd (hw sr blk)
  · obtain ⟨hbuf, -, hcap, hprep⟩ := BufferPart.mk.inj hbuffer
    refine ⟨h.inv.runWord (keepsRanges_f32 nan) hr, hprep.trans h.prepared, fun i hi => ?_, ?_⟩
    · rw [bufWord, hbuf]
      exact h.words i (hcap ▸ hi)
    · rw [(Prod.mk.inj hout).1]
      exact h.out

end Words

/-- A stream of such words keeps silence. -/
theorem Silent.runEvents {ws : List Word} {s t : State} (h : Silent s.toEngine) (hws : ∀ w ∈ ws, notPrepare w)
    (hb : ∀ b ∈ processOperands ws, isZero b ∨ isFinite b = false)
    (hrun : runEvents (commandEvents ws) s = .next t) : Silent t.toEngine := by
  induction ws generalizing s with
  | nil => rw [runEvents_nil.1 hrun]; exact h
  | cons w ws ih =>
    obtain ⟨hw, hws⟩ := List.forall_mem_cons.1 hws
    rw [processOperands_cons, List.forall_mem_append] at hb
    obtain ⟨e, n, he, hrest⟩ := runEvents_cons hrun
    rw [State.config_eq] at he
    exact ih (h.runWord hw hb.1 he) hws hb.2 hrest

/-- Settles O38, by induction on the stream (`Silent.runEvents`). -/
theorem silenceInSilenceOut : Obligations.SilenceInSilenceOut := by
  intro s t ws hinv hp hwords hout hws hb hrun
  have h := Silent.runEvents ⟨hinv, hp, hwords, hout⟩ hws hb hrun
  exact ⟨h.out, by rw [h.inv.outputs]; exact h.out, h.words⟩

end Sys2Proof.Machine
end

/-! SUPPORT. The exact next state of a PROCESS of a prepared engine, from its crossfaded value and the sweep-width state
that the trigger and the count leave (R130). Settles O24, O25 and O26. -/

section
namespace Sys2Proof.Machine

open Sys2Proof.Binary32

/-- The machine's phase is R121's, operation by operation. -/
theorem nextPhase_config (nan p f : F32) (sr : Reg) : nextPhase (config nan) p f sr = phaseAfter nan p f sr := by
  simp only [nextPhase_eq, phaseAfter, regInt, config_add, config_div, config_sub, config_toNum, config_le, toNum_one]

/-- An engine with its sweep-width registers and its crossfader's state replaced (R44 to R47). -/
def withSweep {N : Type} (aw pw : N) (cnt : Reg) (trans : Bool) (e : Engine N) : Engine N :=
  { e with aw := aw, pw := pw, cnt := cnt, status := { e.status with trans := trans } }

/-! ### The trigger and the count, in each of their cases (R114, R116) -/

section Sweep

variable {N : Type} {C : Config N} {e : Engine N}

theorem trigger_eq_self (h : e.status.trans = true ∨ numEq C e.swidth e.aw = true) : trigger C e = e := by
  rcases trigger_cases C e with ⟨ht, hne, -⟩ | ⟨-, heq⟩
  · rw [ht, hne] at h
    exact absurd h (by decide)
  · exact heq

theorem trigger_eq_fire (ht : e.status.trans = false) (hne : numEq C e.swidth e.aw = false) :
    trigger C e = withSweep e.swidth e.aw 0#32 true e := by
  rcases trigger_cases C e with ⟨-, -, heq⟩ | ⟨hnot, -⟩
  · exact heq
  · rw [ht, hne] at hnot
    exact absurd hnot (by decide)

/-- A count below the transition's length, by whether it is the last (R116). -/
theorem countStep_withSweep {aw pw : N} {cnt : Reg} (h : cnt.toNat < e.tlen.toNat) :
    countStep (withSweep aw pw cnt true e) =
      withSweep aw (if cnt.toNat + 1 = e.tlen.toNat then aw else pw) (cnt + 1#32)
        (decide (cnt.toNat + 1 ≠ e.tlen.toNat)) e := by
  have hlt := e.tlen.isLt
  have hend : cnt + 1#32 = e.tlen ↔ cnt.toNat + 1 = e.tlen.toNat := by
    rw [← BitVec.toNat_inj, BitVec.toNat_add, BitVec.toNat_ofNat]
    omega
  by_cases hlast : cnt.toNat + 1 = e.tlen.toNat <;> simp [countStep, withSweep, hend, hlast]

end Sweep

/-! ### The state after a PROCESS -/

variable {bits y yp ya aw pw : F32} {cnt : Reg} {trans : Bool} {s : State}

theorem inputCode_code (bits : F32) : (inputCode bits).code = if isFinite bits then 0#4 else 7#4 := by
  unfold inputCode
  split_ifs <;> rfl

theorem inputCode_isError (bits : F32) : (inputCode bits).isError = !isFinite bits := by
  unfold inputCode
  cases isFinite bits <;> rfl

/-- The report of a sample step (R130, R132). -/
theorem report_inputCode (bits : F32) (e : Engine F32) :
    report (inputCode bits) (encode (.process bits)) e =
      { e with
        status := { e.status with
          last := if isFinite bits then 0#4 else 7#4
          sticky := e.status.sticky || !isFinite bits }
        firstErrHi := if e.status.sticky || isFinite bits then e.firstErrHi else 0x02000000#32
        firstErrLo := if e.status.sticky || isFinite bits then e.firstErrLo else bits } := by
  have hword : wordHi (encode (.process bits)) = 0x02000000#32 := wordHi_packWord ..
  have hlow : wordLo (encode (.process bits)) = bits := wordLo_packWord ..
  rw [report_eq, inputCode_code, inputCode_isError, hword, hlow]
  cases isFinite bits <;> cases e.status.sticky <;> rfl

/-- A PROCESS whose crossfader gives the value `y` and the sweep-width state `aw`, `pw`, `cnt`, `trans`. -/
theorem exec_process_of_crossfade (hp : s.status.prepared = true) (hcur : s.wcur.toNat < s.cap.toNat)
    (hcross : crossfade s.config (trigger s.config (smoothAll s.config s.toEngine)) =
      .ok (y, withSweep aw pw cnt trans (smoothAll s.config s.toEngine))) :
    exec (.process bits) s = .next
      { stepCommon bits y s with toEngine := withSweep aw pw cnt trans (stepCommon bits y s).toEngine } := by
  refine execProcess_eq_next.2 ⟨_, process_eq_ok.2 (.inr ⟨hp, _, sampleStep_eq_ok.2 ⟨y, _, _, hcross,
    writePath_eq_ok.2 ⟨hcur, rfl⟩, rfl⟩, rfl⟩), ?_⟩
  rw [report_inputCode, nextTick, if_pos hp]
  simp only [output, lfoAdvance, smoothAll, withSweep, stepCommon, nextPhase_config, State.config_eq, config_mul,
    inputSample_config]

/-- Idle, with no trigger (R117). -/
theorem exec_process_idle (hp : s.status.prepared = true) (ht : s.status.trans = false)
    (heq : numEq s.config (smooth s.config s.width s.swidth) s.aw = true) (hcur : s.wcur.toNat < s.cap.toNat)
    (hy : sample s.config s.toEngine s.aw = .ok y) : exec (.process bits) s = .next (stepCommon bits y s) := by
  refine exec_process_of_crossfade (aw := s.aw) (pw := s.pw) (cnt := s.cnt) (trans := s.status.trans) hp hcur ?_
  rw [trigger_eq_self (.inr heq)]
  exact crossfade_eq_ok.2 ⟨y, (sample_smoothAll ..).trans hy, .inl ⟨ht, rfl⟩⟩

/-- Transitioning once the trigger has had its chance (R116). -/
theorem exec_process_transitioning (hp : s.status.prepared = true) (hcur : s.wcur.toNat < s.cap.toNat)
    (htrig : trigger s.config (smoothAll s.config s.toEngine) =
      withSweep aw pw cnt true (smoothAll s.config s.toEngine))
    (hcnt : cnt.toNat < s.tlen.toNat) (hyp : sample s.config s.toEngine pw = .ok yp)
    (hya : sample s.config s.toEngine aw = .ok ya) :
    exec (.process bits) s = .next
      (let t := stepCommon bits (blend s.config cnt.toNat s.tlen.toNat yp ya) s
       { t with
         aw := aw
         pw := if cnt.toNat + 1 = s.tlen.toNat then aw else pw
         cnt := cnt + 1#32
         status := { t.status with trans := decide (cnt.toNat + 1 ≠ s.tlen.toNat) } }) := by
  refine exec_process_of_crossfade hp hcur ?_
  have hread (w : F32) : sample s.config (withSweep aw pw cnt true (smoothAll s.config s.toEngine)) w =
      sample s.config s.toEngine w := sample_congr _ _ rfl rfl rfl rfl rfl
  have hcount := countStep_withSweep (e := smoothAll s.config s.toEngine) (aw := aw) (pw := pw) hcnt
  rw [smoothAll_tlen] at hcount
  rw [htrig, ← hcount]
  exact crossfade_eq_ok.2 ⟨ya, (hread aw).trans hya, .inr ⟨rfl, yp, (hread pw).trans hyp, hcnt, rfl⟩⟩

/-- Settles O25: the trigger, and the count from 0. -/
theorem processTriggerStep : Obligations.ProcessTriggerStep := by
  intro bits yp ya s hp ht hne hcur hlen hyp hya
  have hend : (0#32).toNat + 1 = s.tlen.toNat ↔ s.tlen = 1#32 := by
    rw [← BitVec.toNat_inj]
    exact eq_comm
  have hstep := exec_process_transitioning (bits := bits) hp hcur
    (trigger_eq_fire (e := smoothAll s.config s.toEngine) ht hne) hlen hyp hya
  simp only [ne_eq, hend] at hstep
  exact hstep

/-- Settles O26: no trigger, and the count. -/
theorem processTransitionStep : Obligations.ProcessTransitionStep := by
  intro bits yp ya s hp ht hcur hcnt hyp hya
  have hsame : withSweep s.aw s.pw s.cnt true (smoothAll s.config s.toEngine) =
      smoothAll s.config s.toEngine := by
    rw [← ht]
    rfl
  have htrig := (trigger_eq_self (C := s.config) (e := smoothAll s.config s.toEngine) (.inl ht)).trans hsame.symm
  exact exec_process_transitioning hp hcur htrig hcnt hyp hya

/-! ### The phase in numbers (R121) -/

/-- The free NaN does not reach a phase whose quotient and sum are finite. -/
theorem nextPhase_nan_irrel (nan nan' : F32) {p f : F32} {sr : Reg} (hp : isFinite p = true) (hf : isFinite f = true)
    (hsr : isFinite (toNum sr.toNat) = true) (h0 : units (toNum sr.toNat) ≠ 0)
    (hq : isFinite (div nan' f (toNum sr.toNat)) = true)
    (hsum : isFinite (add nan' p (div nan' f (toNum sr.toNat))) = true) :
    nextPhase (config nan) p f sr = nextPhase (config nan') p f sr := by
  rw [nextPhase_config, nextPhase_config, phaseAfter, phaseAfter, div_nan_irrel nan' hf hsr h0,
    add_nan_irrel nan' hp hq, sub_nan_irrel nan' hsum (by decide)]

/-- Settles O24: `exec_process_idle`, the phase under REAL by its formula, and the vectors at one free NaN. -/
theorem processIdleStep : Obligations.ProcessIdleStep := by
  refine ⟨fun bits y s => exec_process_idle, fun p f sr => ?_, fun nan => ⟨?_, ?_, ?_⟩⟩
  · simp [nextPhase_eq, regInt]
  all_goals
    rw [nextPhase_nan_irrel nan 0#32 (by decide) (by decide) (by decide +kernel) (by decide +kernel) (by decide +kernel)
      (by decide +kernel)]
    decide +kernel

end Sys2Proof.Machine
end

/-! SUPPORT. A PROCESS of a prepared engine completes: its reads stay inside the buffer, its count below the
transition's length and its cursor inside the buffer, each by the invariant (R56, R132). Settles O27. -/

section
namespace Sys2Proof.Machine

open Sys2Proof.Binary32

variable {nan : F32} {e : Engine F32}

/-- A read of a width in range completes, for its position's floor is an index in use (R110, R111). -/
theorem sample_completes (h : Inv e) (hsr : e.sr ≠ 0#32) {w : F32} (hw : widthOk w) :
    ∃ y, sample (config nan) e w = .ok y := by
  obtain ⟨hfin, hlow, hhigh⟩ := (between_iff_units (by decide) (by decide)).1 hw
  have hmin : 0 ≤ units 0x3A03126F#32 := by decide +kernel
  have hsized := h.sized hsr
  have hcap : 0 < e.cap.toNat := Nat.zero_lt_of_lt hsized.wcur
  have hdelay := (within_delay (nan := nan) h.phase hfin (hmin.trans hlow)).mono le_rfl hhigh
  obtain ⟨f, -, -, hfloor⟩ := floor_readPos (nan := nan) hsized hdelay
  obtain ⟨h0, h1⟩ := circular_range hcap f
  rw [← config_floor nan] at hfloor
  rw [sample_eq_interp]
  exact interp_completes hfloor h0 h1

theorem crossfade_completes (h : Inv e) (hsr : e.sr ≠ 0#32) : ∃ y r, crossfade (config nan) e = .ok (y, r) := by
  obtain ⟨ya, hya⟩ := sample_completes (nan := nan) h hsr (h.sized hsr).aw
  obtain ⟨yp, hyp⟩ := sample_completes (nan := nan) h hsr (h.sized hsr).pw
  cases ht : e.status.trans with
  | false => exact ⟨_, _, crossfade_eq_ok.2 ⟨ya, hya, .inl ⟨ht, rfl⟩⟩⟩
  | true => exact ⟨_, _, crossfade_eq_ok.2 ⟨ya, hya, .inr ⟨ht, yp, hyp, h.trans ht, rfl⟩⟩⟩

theorem sampleStep_completes (h : Inv e) (hsr : e.sr ≠ 0#32) (x : F32) :
    ∃ r, sampleStep (config nan) x e = .ok r := by
  have hC := keepsRanges_f32 nan
  have hsr' : (trigger (config nan) (smoothAll (config nan) e)).sr ≠ 0#32 := by simpa using hsr
  have htrig := (h.smoothAll hC hsr).trigger (C := config nan) hsr
  obtain ⟨y, e1, hcross⟩ := crossfade_completes (nan := nan) htrig hsr'
  obtain ⟨h1, hsr1⟩ := htrig.crossfade hsr' hcross
  have hcur := (h1.sized (hsr1 ▸ hsr')).wcur
  exact ⟨_, sampleStep_eq_ok.2 ⟨y, e1, _, hcross, writePath_eq_ok.2 ⟨hcur, rfl⟩, rfl⟩⟩

/-- Settles O27: the sample step completes, and the code is the operand's. -/
theorem processCompletes : Obligations.ProcessCompletes := by
  intro bits s h hp
  obtain ⟨r, hr⟩ := sampleStep_completes (nan := freeNaN s) h (h.sr_ne_zero_of_prepared hp)
    (inputSample s.config bits)
  rw [← State.config_eq] at hr
  refine ⟨_, execProcess_eq_next.2 ⟨_, process_eq_ok.2 (.inr ⟨hp, r, hr, rfl⟩), rfl⟩, ?_⟩
  rw [report_status_last, inputCode_code]

end Sys2Proof.Machine
end

/-! SUPPORT. What a PROCESS leaves unchanged: the configuration always, the error record of a finite operand, the
sweep-width state by the crossfader's state, and every buffer word but one (R131). Settles O28. -/

section
namespace Sys2Proof.Machine

open Sys2Proof.Binary32

/-- The configuration of an engine that no sample step writes (R34 to R37, R50). -/
structure ConfigPart where
  sr : Reg
  maxblk : Reg
  cap : Reg
  tlen : Reg
  prepared : Bool
  cfgCause : BitVec 4

/-- The error record of an engine (R50, R51). -/
structure ErrorPart where
  sticky : Bool
  firstErrLo : Reg
  firstErrHi : Reg

section Parts

variable {N : Type} {C : Config N} {e r : Engine N}

/-- The configuration's part of an engine. -/
def configPart (e : Engine N) : ConfigPart :=
  ⟨e.sr, e.maxblk, e.cap, e.tlen, e.status.prepared, e.status.cfgCause⟩

/-- The error record's part of an engine. -/
def errorPart (e : Engine N) : ErrorPart := ⟨e.status.sticky, e.firstErrLo, e.firstErrHi⟩

@[simp] theorem configPart_report (c : ResultCode) (w : Word) (e : Engine N) :
    configPart (report c w e) = configPart e := by simp [configPart]

/-- A success code leaves the error record (R161). -/
theorem errorPart_report {c : ResultCode} (hc : c.isError = false) (w : Word) (e : Engine N) :
    errorPart (report c w e) = errorPart e := by simp [errorPart, report_eq, hc]

/-- The crossfader writes neither the configuration nor the error record (R131). -/
theorem crossfade_configPart_errorPart {y : N} (h : crossfade C e = .ok (y, r)) :
    configPart r = configPart e ∧ errorPart r = errorPart e := by
  obtain ⟨ya, -, ⟨-, heq⟩ | ⟨-, yp, -, -, heq⟩⟩ := crossfade_eq_ok.1 h <;>
    obtain ⟨-, rfl⟩ := Prod.mk.injEq .. ▸ heq
  · exact ⟨rfl, rfl⟩
  · simp [configPart, errorPart]

/-- A sample step writes neither the configuration nor the error record (R131). -/
theorem sampleStep_configPart_errorPart {x : N} (h : sampleStep C x e = .ok r) :
    configPart r = configPart e ∧ errorPart r = errorPart e := by
  obtain ⟨y, e1, e2, hcross, hwrite, rfl⟩ := sampleStep_eq_ok.1 h
  obtain ⟨-, rfl⟩ := writePath_eq_ok.1 hwrite
  obtain ⟨hconfig, herror⟩ := crossfade_configPart_errorPart hcross
  have hconfigBefore : configPart (trigger C (smoothAll C e)) = configPart e := by simp [configPart]
  have herrorBefore : errorPart (trigger C (smoothAll C e)) = errorPart e := by simp [errorPart]
  exact ⟨hconfig.trans hconfigBefore, herror.trans herrorBefore⟩

theorem process_configPart {b : F32} {w : Word} (h : process C b w e = .ok r) : configPart r = configPart e := by
  rcases process_eq_ok.1 h with ⟨-, rfl⟩ | ⟨-, e1, hs, rfl⟩
  · exact configPart_report ..
  · exact (configPart_report ..).trans (sampleStep_configPart_errorPart hs).1

/-- A finite operand leaves the error record of a prepared engine (R132, R161). -/
theorem process_errorPart {b : F32} {w : Word} (hp : e.status.prepared = true) (hb : isFinite b = true)
    (h : process C b w e = .ok r) : errorPart r = errorPart e := by
  rcases process_eq_ok.1 h with ⟨hp', -⟩ | ⟨-, e1, hs, rfl⟩
  · rw [hp] at hp'
    cases hp'
  · exact (errorPart_report (by rw [inputCode_isError, hb]; rfl) w e1).trans (sampleStep_configPart_errorPart hs).2

/-- A count that does not end the transition keeps PW (R116). -/
theorem SweepPart.count_pw {p : SweepPart N} (h : p.count.trans = true) : p.count.pw = p.pw := by
  unfold count at h ⊢
  split_ifs at h ⊢
  rfl

/-- In a transition a PROCESS keeps AW, and PW until the transition ends (R116). -/
theorem process_widths_of_trans {b : F32} {w : Word} (ht : e.status.trans = true) (h : process C b w e = .ok r) :
    r.aw = e.aw ∧ (r.status.trans = true → r.pw = e.pw) := by
  rcases process_eq_ok.1 h with ⟨-, rfl⟩ | ⟨hp, -⟩
  · simp
  · rcases process_sweep hp h with ⟨ht', -⟩ | ⟨ht', -⟩ | ⟨-, -, hcount⟩
    · rw [ht] at ht'; cases ht'
    · rw [ht] at ht'; cases ht'
    · have haw : r.aw = e.aw := (congrArg SweepPart.aw hcount).trans (SweepPart.count_aw _)
      refine ⟨haw, fun htrans => ?_⟩
      have hgoing : (sweepPart e).count.trans = true := (congrArg SweepPart.trans hcount).symm.trans htrans
      exact (congrArg SweepPart.pw hcount).trans (SweepPart.count_pw hgoing)

/-- Idle and without a trigger, a PROCESS leaves the sweep-width state (R117). -/
theorem process_sweep_of_idle {b : F32} {w : Word} (ht : e.status.trans = false)
    (heq : numEq C (smooth C e.width e.swidth) e.aw = true) (h : process C b w e = .ok r) :
    sweepPart r = sweepPart e := by
  rcases process_eq_ok.1 h with ⟨-, rfl⟩ | ⟨hp, -⟩
  · exact sweepPart_report ..
  · have hswidth := (process_smoothed hp h).2.1
    rcases process_sweep hp h with ⟨-, -, hsame⟩ | ⟨-, hne, -⟩ | ⟨ht', -⟩
    · exact hsame
    · rw [hswidth, heq] at hne; cases hne
    · rw [ht] at ht'; cases ht'

end Parts

/-- An unprepared PROCESS only reports (R130, R184). -/
theorem process_unprepared {bits : F32} {s : State} {r : Engine F32} (hp : s.status.prepared = false)
    (h : process s.config bits (encode (.process bits)) s.toEngine = .ok r) :
    { s with toEngine := r, nanTick := nextTick s } = reportError 4#4 0x02000000#32 bits s := by
  have hword : wordHi (encode (.process bits)) = 0x02000000#32 := wordHi_packWord ..
  have hlow : wordLo (encode (.process bits)) = bits := wordLo_packWord ..
  have hreport := report_eq_reportError (c := .notPrepared) rfl (encode (.process bits)) s
  rw [hword, hlow] at hreport
  rcases process_eq_ok.1 h with ⟨-, rfl⟩ | ⟨hp', -⟩
  · rw [nextTick, if_neg (by rw [hp]; exact Bool.false_ne_true)]
    exact hreport
  · rw [hp] at hp'
    cases hp'

/-- A PROCESS writes at most the buffer word at the old cursor (R100). -/
theorem process_bufWord_frame {nan b : F32} {w : Word} {e r : Engine F32} (hs : bufSorted e)
    (h : process (config nan) b w e = .ok r) {i : ℕ} (hi : i ≠ e.wcur.toNat) : bufWord r i = bufWord e i := by
  rcases process_eq_ok.1 h with ⟨-, rfl⟩ | ⟨hp, -⟩
  · rw [bufWord, report_buf, bufWord]
  · rw [bufWord_process hp ((bufSorted_iff_canonical nan e).1 hs) h, if_neg hi]

/-- Settles O28, from what a PROCESS does to each part of the engine. -/
theorem processFrame : Obligations.ProcessFrame := by
  intro bits s t hexec
  obtain ⟨r, hr, rfl⟩ := execProcess_eq_next.1 hexec
  obtain ⟨hfreq, hwidth, hgain⟩ := RawPart.mk.inj (process_parts hr).2
  obtain ⟨hsr, hmaxblk, hcap, htlen, hprepared, hcause⟩ := ConfigPart.mk.inj (process_configPart hr)
  refine ⟨hfreq, hwidth, hgain, hsr, hmaxblk, hcap, htlen, hprepared, hcause, rfl,
    fun hp => process_unprepared hp hr, fun hb hp => ErrorPart.mk.inj (process_errorPart hp hb hr),
    fun ht => (process_widths_of_trans ht hr).1, fun ht => (process_widths_of_trans ht hr).2,
    fun ht heq => ?_, fun hs i hi => process_bufWord_frame hs hr hi⟩
  obtain ⟨haw, hpw, hcnt, -, htrans, -⟩ := SweepPart.mk.inj (process_sweep_of_idle ht heq hr)
  exact ⟨haw, hpw, hcnt, htrans.trans ht⟩

end Sys2Proof.Machine
end

/-! SUPPORT. The F32 clamp by the place of its operand, and the next state of the three setters as one law over their
common form (R140 to R143). Settles O22. -/

section
namespace Sys2Proof.Binary32

open Sys2Proof.Machine

variable {nan lo hi v : F32}

/-- Numeric `x < y` of finite values (R12). -/
theorem numLt_iff_units {x y : F32} (hx : isFinite x = true) (hy : isFinite y = true) :
    numLt (config nan) x y = true ↔ units x < units y := by
  rw [numLt, Bool.and_eq_true, Bool.not_eq_true', ← Bool.not_eq_true, config_le, le_iff_units hx hy,
    le_iff_units hy hx, lt_iff_le_not_ge]

/-- `max` of finite values; the first of two equal ones (R12). -/
theorem numMax_config {x y : F32} (hx : isFinite x = true) (hy : isFinite y = true) :
    numMax (config nan) x y = if units x < units y then y else x := by
  simp only [numMax, numLt_iff_units hx hy]

/-- `min` of finite values; the first of two equal ones (R12). -/
theorem numMin_config {x y : F32} (hx : isFinite x = true) (hy : isFinite y = true) :
    numMin (config nan) x y = if units y < units x then y else x := by
  simp only [numMin, numLt_iff_units hy hx]

section Clamp

variable (hlo : isFinite lo = true) (hhi : isFinite hi = true) (hv : isFinite v = true)
include hlo hhi hv

/-- The pattern itself is kept, so a zero keeps its sign. -/
theorem clamp_of_within (h1 : units lo ≤ units v) (h2 : units v ≤ units hi) :
    clamp (config nan) lo hi v = v := by
  rw [clamp, numMax_config hv hlo, if_neg h1.not_gt, numMin_config hv hhi, if_neg h2.not_gt]

theorem clamp_of_lt_low (hle : units lo ≤ units hi) (h : units v < units lo) :
    clamp (config nan) lo hi v = lo := by
  rw [clamp, numMax_config hv hlo, if_pos h, numMin_config hlo hhi, if_neg hle.not_gt]

theorem clamp_of_high_lt (hle : units lo ≤ units hi) (h : units hi < units v) :
    clamp (config nan) lo hi v = hi := by
  rw [clamp, numMax_config hv hlo, if_neg (hle.trans h.le).not_gt, numMin_config hv hhi, if_pos h]

end Clamp

end Sys2Proof.Binary32

namespace Sys2Proof.Machine

open Sys2Proof.Binary32

/-- `report` of a success code is all that `reportSuccess` writes (R161). -/
theorem report_eq_reportSuccess {c : ResultCode} (hc : c.isError = false) (w : Word) (s : State) :
    { s with toEngine := report c w s.toEngine } = reportSuccess c.code s := by
  simp only [report, hc, Bool.false_eq_true, if_false, reportSuccess]

/-- The code of a finite operand whose clamped value is `v` (R140). -/
theorem clampCode_of_clamp {nan lo hi bits v : F32} (hbits : isFinite bits = true) (hv : isFinite v = true)
    (h : clamp (config nan) lo hi bits = v) :
    clampCode (config nan) lo hi bits = if units v = units bits then .ok else .okClamped := by
  simp only [clampCode, h, numEq_iff_units hv hbits]

/-- A write of an engine register, on the machine. -/
def onEngine (put : F32 → Engine F32 → Engine F32) (v : F32) (s : State) : State :=
  { s with toEngine := put v s.toEngine }

/-- What the three setters have in common: the command `mk` runs `SET` on one register's write, between two finite
bounds in order, for its own word (R83, R140). -/
structure SetterForm (mk : F32 → Instr) (put : F32 → Engine F32 → Engine F32) (lo hi : F32)
    (opc : BitVec 8) : Prop where
  exec_eq : ∀ bits s, exec (mk bits) s = .next { s with
    toEngine := setParam (Binary32.config (freeNaN s)) put lo hi bits (packWord opc 0#24 bits) s.toEngine }
  lo_finite : isFinite lo = true
  hi_finite : isFinite hi = true
  lo_le_hi : units lo ≤ units hi

theorem setfreq_form : SetterForm .setfreq putFreq 0x3C23D70A#32 0x41A00000#32 0x03#8 where
  exec_eq bits s := by rw [← cnum_freqMin, ← cnum_freqMax]; rfl
  lo_finite := by decide
  hi_finite := by decide
  lo_le_hi := by decide +kernel

theorem setwidth_form : SetterForm .setwidth putWidth 0x3A03126F#32 0x3ECCCCCD#32 0x04#8 where
  exec_eq bits s := by rw [← cnum_widthMin, ← cnum_maxWidth]; rfl
  lo_finite := by decide
  hi_finite := by decide
  lo_le_hi := by decide +kernel

theorem setgain_form : SetterForm .setgain putGain 0x3D0186E2#32 0x41200000#32 0x05#8 where
  exec_eq bits s := by rw [← cnum_gainMin, ← cnum_gainMax]; rfl
  lo_finite := by decide
  hi_finite := by decide
  lo_le_hi := by decide +kernel

namespace SetterForm

variable {mk : F32 → Instr} {put : F32 → Engine F32 → Engine F32} {lo hi bits v : F32} {opc : BitVec 8}

/-- A non-finite operand is only reported (R140). -/
theorem exec_nonfinite (form : SetterForm mk put lo hi opc) (s : State) (hbits : isFinite bits = false) :
    exec (mk bits) s = .next (reportError 6#4 (opc ++ 0#24) bits s) := by
  have hreport := report_eq_reportError (c := .nonfiniteOperand) rfl (packWord opc 0#24 bits) s
  rw [wordHi_packWord, wordLo_packWord] at hreport
  rw [form.exec_eq]
  rcases setParam_cases (Binary32.config (freeNaN s)) put lo hi bits (packWord opc 0#24 bits) s.toEngine with
    ⟨hfin, -⟩ | ⟨-, heq⟩
  · rw [hbits] at hfin; cases hfin
  · rw [heq, hreport]; rfl

/-- A finite operand: its clamped value is written, and OK_CLAMPED reported where that is another number
(R140). -/
theorem exec_finite (form : SetterForm mk put lo hi opc) (s : State) (hbits : isFinite bits = true)
    (hv : isFinite v = true) (hclamp : clamp (Binary32.config (freeNaN s)) lo hi bits = v) :
    exec (mk bits) s =
      .next (reportSuccess (if units v = units bits then 0#4 else 1#4) (onEngine put v s)) := by
  rw [form.exec_eq]
  rcases setParam_cases (Binary32.config (freeNaN s)) put lo hi bits (packWord opc 0#24 bits) s.toEngine with
    ⟨-, heq⟩ | ⟨hnot, -⟩
  · rw [heq, config_ofBits, hclamp, clampCode_of_clamp hbits hv hclamp]
    split_ifs
    · exact congrArg Host.Outcome.next (report_eq_reportSuccess (c := .ok) rfl _ (onEngine put v s))
    · exact congrArg Host.Outcome.next (report_eq_reportSuccess (c := .okClamped) rfl _ (onEngine put v s))
  · rw [hbits] at hnot; cases hnot

/-- A setter obeys R140, by where its operand lies. -/
theorem setterLaw (form : SetterForm mk put lo hi opc) :
    SetterLaw mk (onEngine put) lo hi (opc ++ 0#24) := by
  have hlo := form.lo_finite
  have hhi := form.hi_finite
  have hle := form.lo_le_hi
  refine fun bits s => ⟨form.exec_nonfinite s,
    fun hbits => ⟨fun h1 h2 => ?within, fun h => ?below, fun h => ?above⟩⟩
  case within =>
    rw [form.exec_finite s hbits hbits (clamp_of_within hlo hhi hbits h1 h2), if_pos rfl]
  case below =>
    rw [form.exec_finite s hbits hlo (clamp_of_lt_low hlo hhi hbits hle h), if_neg h.ne']
  case above =>
    rw [form.exec_finite s hbits hhi (clamp_of_high_lt hlo hhi hbits hle h), if_neg h.ne]

end SetterForm

/-- Settles O22: the law of the common form, at each setter's register, bounds and opcode. -/
theorem settersClampAndReport : Obligations.SettersClampAndReport :=
  ⟨setfreq_form.setterLaw, setwidth_form.setterLaw, setgain_form.setterLaw⟩

end Sys2Proof.Machine
end

/-! SUPPORT. The sizes of a PREPARE as the ceiling and the floor of rational products, for any parameters that R6
allows (R12, R152). Settles O20. -/

section
namespace Sys2Proof.Machine

theorem ceilDiv_le_iff {b : ℕ} (hb : 0 < b) (a n : ℕ) : ceilDiv a b ≤ n ↔ a ≤ n * b := by
  rw [ceilDiv, Nat.div_le_iff_le_mul_add_pred hb, Nat.add_le_add_iff_right, Nat.mul_comm]

/-- `ceilDiv` is the ceiling of the quotient: both are the least natural number that is not below it (R12). -/
theorem cast_ceilDiv {b : ℕ} (hb : 0 < b) (a : ℕ) : (ceilDiv a b : ℤ) = ⌈(a : ℚ) / b⌉ := by
  have hceil : ceilDiv a b = ⌈(a : ℚ) / b⌉₊ := eq_of_forall_ge_iff fun n => by
    rw [ceilDiv_le_iff hb, Nat.ceil_le, div_le_iff₀ (by exact_mod_cast hb)]
    exact_mod_cast Iff.rfl
  rw [hceil, Int.natCast_ceil_eq_ceil (by positivity)]

/-- The capacity is an exact ceiling (R152). -/
theorem cast_capacityOf {P : Params} (h : P.wellFormed = true) (sr : ℕ) :
    (capacityOf P sr : ℤ) = ⌈ratio P.capFactor * ratio P.maxWidth * sr⌉ := by
  have hden := Params.den_pos_of_wellFormed h
  have hfactor : 0 < P.capFactor.den := hden _ (by simp [Params.ratios])
  have hwidth : 0 < P.maxWidth.den := hden _ (by simp [Params.ratios])
  rw [capacityOf, cast_ceilDiv (Nat.mul_pos hfactor hwidth), ratio, ratio, div_mul_div_comm, div_mul_eq_mul_div]
  push_cast
  rfl

/-- The transition's length is an exact floor (R152). -/
theorem cast_transitionOf (P : Params) (sr : ℕ) : (transitionOf P sr : ℤ) = ⌊ratio P.transTime * sr⌋ := by
  rw [transitionOf, ratio, div_mul_eq_mul_div, ← Nat.cast_mul, Rat.floor_natCast_div_natCast]
  exact Int.natCast_div _ _

/-- Settles O20: the general sizes, VIBCORE's products as one fraction each, and the rows of R152's table. -/
theorem sizesAreExact : Obligations.SizesAreExact := by
  refine ⟨fun P h sr => ⟨cast_capacityOf h sr, cast_transitionOf P sr⟩, fun sr => ⟨?_, ?_⟩, by decide⟩
  · have hproduct : ratio Params.vibcore.capFactor * ratio Params.vibcore.maxWidth * sr = (3 * sr : ℚ) / 5 := by
      simp only [ratio, Params.vibcore]
      ring
    rw [cast_capacityOf (by decide), hproduct]
  · have hproduct : ratio Params.vibcore.transTime * sr = (sr : ℚ) / 5 := by
      simp only [ratio, Params.vibcore]
      ring
    rw [cast_transitionOf, hproduct]

end Sys2Proof.Machine
end

/-! SUPPORT. NOP, and PREPARE as an accepted or a rejected command by its rate alone (R150 to R157). Settles O17, O18
and O19. -/

section
namespace Sys2Proof.Machine

open Sys2Proof.Binary32

/-- Settles O17: the report of OK is LAST alone, and format N has a reserved field. -/
theorem nopOnlyReports : Obligations.NopOnlyReports := by
  refine ⟨fun s => congrArg Host.Outcome.next (report_eq_reportSuccess (c := .ok) rfl _ s), fun w hopc hrest => ?_⟩
  refine decode_eq_reserved_iff.2 (.inl ⟨?_, fun h => hrest ?_⟩)
  · rw [← BitVec.toNat_inj, opcField_toNat_eq_div, hopc]
    rfl
  · rw [← restField_toNat, h]
    rfl

/-! ### The check of the rate (R153) -/

/-- The taps' reach goes beyond the capacity at these rates alone, by the rate's remainder modulo 5. -/
theorem capacity_lt_reach_iff (sr : ℕ) : (3 * sr + 4) / 5 < (2 * sr + 4) / 5 + 6 ↔ sr ≤ 26 ∨ sr = 28 := by
  have hsr := Nat.div_add_mod sr 5
  have hlt := Nat.mod_lt sr (by decide : 0 < 5)
  interval_cases sr % 5 <;> omega

/-- VIBCORE's checks as bounds of the rate, in R153's order. -/
theorem prepareCheck_vibcore (sr : ℕ) :
    prepareCheck Params.vibcore sr =
      if sr = 0 then some .srZero
      else if 2 ^ 24 < sr then some .srRange
      else if 218454 ≤ sr then some .capRange
      else if sr ≤ 26 ∨ sr = 28 then some .reach
      else if sr < 5 then some .tlenZero
      else if sr ≤ 40 then some .phase
      else none := by
  have hcap : 131072 < (3 * sr + 4) / 5 ↔ 218454 ≤ sr := by omega
  have htlen : sr / 5 = 0 ↔ sr < 5 := by omega
  have hphase : sr * Params.vibcore.freqMax.den ≤ 2 * Params.vibcore.freqMax.num ↔ sr ≤ 40 := by
    simp only [Params.vibcore]
    omega
  simp only [prepareCheck, capacityOf_vibcore, transitionOf_vibcore, reachOf_vibcore, capacity_lt_reach_iff, htlen,
    hphase]
  simp only [Params.vibcore, hcap]

theorem prepareCheck_eq_none {sr : ℕ} (hlow : 41 ≤ sr) (hhigh : sr ≤ 218453) :
    prepareCheck Params.vibcore sr = none := by
  rw [prepareCheck_vibcore, if_neg (by omega), if_neg (by omega), if_neg (by omega), if_neg (by omega),
    if_neg (by omega), if_neg (by omega)]

/-- The cause of a rejected rate. TLEN_ZERO is never the first check to fail (R153). -/
def rejectionCause (sr : ℕ) : Cause :=
  if sr = 0 then .srZero
  else if 2 ^ 24 < sr then .srRange
  else if 218454 ≤ sr then .capRange
  else if sr ≤ 26 ∨ sr = 28 then .reach
  else .phase

theorem prepareCheck_eq_some {sr : ℕ} (h : sr < 41 ∨ 218453 < sr) :
    prepareCheck Params.vibcore sr = some (rejectionCause sr) := by
  rw [prepareCheck_vibcore, rejectionCause]
  split_ifs with h0 hrange hcap hreach htlen hphase
  · rfl
  · rfl
  · rfl
  · rfl
  · omega
  · rfl
  · omega

theorem rejectionCause_code (sr : ℕ) :
    (rejectionCause sr).code =
      if sr = 0 then 1#4
      else if 2 ^ 24 < sr then 2#4
      else if 218454 ≤ sr then 3#4
      else if sr ≤ 26 ∨ sr = 28 then 4#4
      else 6#4 := by
  simp only [rejectionCause, apply_ite Cause.code]
  rfl

/-! ### The command -/

variable {sr : BitVec 32} {blk : BitVec 24} {s : State}

/-- The machine's state after an accepted PREPARE, before its report (R151, R154). -/
def preparedState (sr : BitVec 32) (blk : BitVec 24) (s : State) : State :=
  { s with toEngine := setPrepared true 0#4 (prepareInit s.config (setSizes Params.vibcore sr blk s.toEngine)) }

/-- The machine's state after a rejected PREPARE, before its report (R151, R155). -/
def unpreparedState (cause : BitVec 4) (s : State) : State :=
  { s with toEngine := setPrepared false cause s.toEngine }

/-- An accepted PREPARE (R151). -/
theorem exec_prepare_accepted (hlow : 41 ≤ sr.toNat) (hhigh : sr.toNat ≤ 218453) :
    exec (.prepare sr blk) s = .next (reportSuccess 0#4 (preparedState sr blk s)) := by
  have hcheck := prepareCheck_eq_none hlow hhigh
  rcases prepare_cases s.config sr blk (encode (.prepare sr blk)) s.toEngine with ⟨-, heq⟩ | ⟨cause, hsome, -⟩
  · have hreport := report_eq_reportSuccess (c := .ok) rfl (encode (.prepare sr blk)) (preparedState sr blk s)
    rw [← ResultCode.code, ← hreport, exec, execPrepare, heq]
    rfl
  · exact absurd (hcheck.symm.trans hsome) (by simp)

/-- A rejected PREPARE (R155). -/
theorem exec_prepare_rejected (h : sr.toNat < 41 ∨ 218453 < sr.toNat) :
    exec (.prepare sr blk) s = .next (reportError 5#4 (0x01#8 ++ blk) sr
      (unpreparedState (rejectionCause sr.toNat).code s)) := by
  have hcheck := prepareCheck_eq_some h
  rcases prepare_cases s.config sr blk (encode (.prepare sr blk)) s.toEngine with ⟨hnone, -⟩ | ⟨cause, hsome, heq⟩
  · exact absurd (hcheck.symm.trans hnone) (by simp)
  · obtain rfl := Option.some.inj (hcheck.symm.trans hsome)
    have hreport := report_eq_reportError (c := .configRejected) rfl (packWord 0x01#8 blk sr)
      (unpreparedState (rejectionCause sr.toNat).code s)
    rw [wordHi_packWord, wordLo_packWord] at hreport
    rw [exec, execPrepare, heq]
    exact congrArg Host.Outcome.next hreport

/-! ### The state after an accepted PREPARE -/

theorem setSizes_cap_toNat (e : Engine F32) (hhigh : sr.toNat ≤ 218453) :
    (setSizes Params.vibcore sr blk e).cap.toNat = (3 * sr.toNat + 4) / 5 := by
  rw [setSizes_cap, capacityOf_vibcore, BitVec.toNat_ofNat]
  omega

theorem setSizes_tlen_toNat (e : Engine F32) (hhigh : sr.toNat ≤ 218453) :
    (setSizes Params.vibcore sr blk e).tlen.toNat = sr.toNat / 5 := by
  rw [setSizes_tlen, transitionOf_vibcore, BitVec.toNat_ofNat]
  omega

theorem setSizes_maxblk_toNat (e : Engine F32) :
    (setSizes Params.vibcore sr blk e).maxblk.toNat = blk.toNat := by
  rw [setSizes_maxblk, BitVec.toNat_setWidth]
  have := blk.isLt
  omega

/-- PREPARE_INIT's loop (R154). -/
theorem bufWord_prepareInit {C : Config F32} {e : Engine F32} (i : ℕ) :
    bufWord (prepareInit C e) i = if i < e.cap.toNat then 0#32 else bufWord e i :=
  bufLookup_bufClear 0#32 e.cap.toNat e.buf i

/-- Settles O18: the three sizes, the cleared buffer, and PREPARE_INIT's writes field by field. -/
theorem prepareAccepted : Obligations.PrepareAccepted := by
  intro sr blk s hlow hhigh
  have hzero : s.config.toNum 0 = 0#32 := by rw [State.config_eq, config_toNum, toNum_zero]
  have hword := bufWord_prepareInit (C := s.config) (e := setSizes Params.vibcore sr blk s.toEngine)
  refine ⟨_, exec_prepare_accepted hlow hhigh, rfl, setSizes_maxblk_toNat (sr := sr) s.toEngine,
    setSizes_cap_toNat (blk := blk) s.toEngine hhigh, setSizes_tlen_toNat (blk := blk) s.toEngine hhigh,
    fun i hi => (hword i).trans (if_pos hi), fun i hi => (hword i).trans (if_neg hi.not_gt), ?_⟩
  simp [reportSuccess, preparedState, hzero]

/-! ### The state after a rejected PREPARE -/

/-- While unprepared a PROCESS only reports (R130, R184). -/
theorem exec_process_unprepared {bits : F32} (hp : s.status.prepared = false) :
    exec (.process bits) s = .next (reportError 4#4 0x02000000#32 bits s) := by
  have hprocess := (process_eq_ok (C := s.config) (bits := bits) (w := encode (.process bits))).2 (.inl ⟨hp, rfl⟩)
  rw [← process_unprepared hp hprocess]
  exact execProcess_eq_next.2 ⟨_, hprocess, rfl⟩

/-- Settles O19: the report over a state that is not prepared, which the next PROCESS refuses. -/
theorem prepareRejected : Obligations.PrepareRejected := by
  intro sr blk s h
  have hexec := exec_prepare_rejected (blk := blk) (s := s) h
  refine ⟨?_, fun bits t ht => ?_⟩
  · rw [hexec, rejectionCause_code]
    rfl
  · obtain rfl := Host.Outcome.next.inj (hexec.symm.trans ht)
    exact exec_process_unprepared rfl

end Sys2Proof.Machine
end

/-! SUPPORT. MAXBLK as a register that no meaning reads: a command commutes with a write of it (R35, R156). Settles
O21. -/

section
namespace Sys2Proof.Machine

variable {N : Type} {C : Config N} {e r : Engine N} {b : Reg}

/-- A write of MAXBLK (R35). -/
def putMaxblk (b : Reg) (e : Engine N) : Engine N := { e with maxblk := b }

theorem report_putMaxblk (c : ResultCode) (w : Word) (b : Reg) (e : Engine N) :
    report c w (putMaxblk b e) = putMaxblk b (report c w e) := by
  simp only [report_eq, putMaxblk]

theorem setParam_putMaxblk (put : N → Engine N → Engine N)
    (hput : ∀ v e, put v (putMaxblk b e) = putMaxblk b (put v e)) (lo hi : N) (bits : F32) (w : Word) :
    setParam C put lo hi bits w (putMaxblk b e) = putMaxblk b (setParam C put lo hi bits w e) := by
  unfold setParam
  split <;> simp only [hput, report_putMaxblk]

/-! ### The sample step -/

theorem sample_putMaxblk (w : N) : sample C (putMaxblk b e) w = sample C e w :=
  sample_congr C w rfl rfl rfl rfl rfl

theorem trigger_putMaxblk : trigger C (putMaxblk b e) = putMaxblk b (trigger C e) := by
  unfold trigger putMaxblk
  split <;> rfl

theorem countStep_putMaxblk : countStep (putMaxblk b e) = putMaxblk b (countStep e) := by
  unfold countStep putMaxblk
  split <;> rfl

theorem crossfade_putMaxblk {y : N} (h : crossfade C e = .ok (y, r)) :
    crossfade C (putMaxblk b e) = .ok (y, putMaxblk b r) := by
  obtain ⟨ya, hya, hcase⟩ := crossfade_eq_ok.1 h
  refine crossfade_eq_ok.2 ⟨ya, (sample_putMaxblk _).trans hya, ?_⟩
  rcases hcase with ⟨ht, heq⟩ | ⟨ht, yp, hyp, hcnt, heq⟩ <;> obtain ⟨rfl, rfl⟩ := Prod.mk.injEq .. ▸ heq
  · exact .inl ⟨ht, rfl⟩
  · exact .inr ⟨ht, yp, (sample_putMaxblk _).trans hyp, hcnt, by rw [countStep_putMaxblk]; rfl⟩

theorem sampleStep_putMaxblk {x : N} (h : sampleStep C x e = .ok r) :
    sampleStep C x (putMaxblk b e) = .ok (putMaxblk b r) := by
  obtain ⟨y, e1, e2, hcross, hwrite, rfl⟩ := sampleStep_eq_ok.1 h
  obtain ⟨hcur, rfl⟩ := writePath_eq_ok.1 hwrite
  have htrigger : trigger C (smoothAll C (putMaxblk b e)) = putMaxblk b (trigger C (smoothAll C e)) :=
    trigger_putMaxblk (e := smoothAll C e)
  exact sampleStep_eq_ok.2 ⟨y, putMaxblk b e1, _, by rw [htrigger, crossfade_putMaxblk hcross],
    writePath_eq_ok.2 ⟨hcur, rfl⟩, rfl⟩

theorem process_putMaxblk {bits : F32} {w : Word} (h : process C bits w e = .ok r) :
    process C bits w (putMaxblk b e) = .ok (putMaxblk b r) := by
  rcases process_eq_ok.1 h with ⟨hp, rfl⟩ | ⟨hp, e1, hs, rfl⟩
  · exact process_eq_ok.2 (.inl ⟨hp, (report_putMaxblk ..).symm⟩)
  · exact process_eq_ok.2 (.inr ⟨hp, _, sampleStep_putMaxblk hs, (report_putMaxblk ..).symm⟩)

/-! ### Every command but PREPARE -/

theorem runInstr_putMaxblk {i : Instr} (hi : ∀ sr blk, i ≠ .prepare sr blk) {w : Word}
    (h : runInstr C i w e = .ok r) : runInstr C i w (putMaxblk b e) = .ok (putMaxblk b r) := by
  cases i with
  | nop => cases h; exact congrArg Except.ok (report_putMaxblk ..)
  | prepare sr blk => exact absurd rfl (hi sr blk)
  | process bits => exact process_putMaxblk h
  | setfreq bits => cases h; exact congrArg Except.ok (setParam_putMaxblk putFreq (fun _ _ => rfl) ..)
  | setwidth bits => cases h; exact congrArg Except.ok (setParam_putMaxblk putWidth (fun _ _ => rfl) ..)
  | setgain bits => cases h; exact congrArg Except.ok (setParam_putMaxblk putGain (fun _ _ => rfl) ..)

/-- The free NaN values used once a command is executed (log 5). -/
def tickAfter (i : Instr) (s : State) : ℕ :=
  match i with
  | .process _ => nextTick s
  | _ => s.nanTick

/-- A command on the machine, with the count of free NaN values that it leaves. -/
theorem exec_eq_withEngine_tickAfter (i : Instr) (s : State) :
    exec i s = State.withEngine { s with nanTick := tickAfter i s } (runInstr s.config i (encode i) s.toEngine) := by
  cases i <;> rfl

theorem exec_putMaxblk {i : Instr} (hi : ∀ sr blk, i ≠ .prepare sr blk) {s t : State} (h : exec i s = .next t) :
    exec i { s with toEngine := putMaxblk b s.toEngine } = .next { t with toEngine := putMaxblk b t.toEngine } := by
  rw [exec_eq_withEngine_tickAfter] at h ⊢
  obtain ⟨r, hr, rfl⟩ := withEngine_eq_next.1 h
  refine withEngine_eq_next.2 ⟨_, runInstr_putMaxblk hi hr, ?_⟩
  cases i <;> rfl

/-- Settles O21: an accepted PREPARE's state holds `blk` in MAXBLK alone, and every other command commutes with a
write of MAXBLK. -/
theorem blockSizeIsInert : Obligations.BlockSizeIsInert := by
  refine ⟨fun sr blk blk' s t hlow hhigh h => ?_, fun i b s t hi h => exec_putMaxblk hi h⟩
  obtain rfl := Host.Outcome.next.inj ((exec_prepare_accepted hlow hhigh).symm.trans h)
  exact exec_prepare_accepted hlow hhigh

end Sys2Proof.Machine
end

/-! SUPPORT. Every event completes in a state that meets the invariant: PROCESS is the one command word that can stop
the model, and it completes in both modes (R164, R169). Settles O35. -/

section
namespace Sys2Proof.Machine

variable {N : Type} {C : Config N} {e : Engine N}

/-- Every command word completes where a PROCESS of a prepared engine does: no other meaning can fault, and an
unprepared PROCESS only reports. -/
theorem runWord_completes
    (hprocess : e.status.prepared = true → ∀ bits w, ∃ r, process C bits w e = .ok r) (w : Word) :
    ∃ r, runWord C w e = .ok r := by
  unfold runWord
  cases decode w with
  | illegal => exact ⟨_, rfl⟩
  | reserved => exact ⟨_, rfl⟩
  | instr i =>
    cases i with
    | process bits =>
      cases hp : e.status.prepared with
      | false => exact ⟨_, process_eq_ok.2 (.inl ⟨hp, rfl⟩)⟩
      | true => exact hprocess hp bits w
    | nop => exact ⟨_, rfl⟩
    | prepare sr blk => exact ⟨_, rfl⟩
    | setfreq bits => exact ⟨_, rfl⟩
    | setwidth bits => exact ⟨_, rfl⟩
    | setgain bits => exact ⟨_, rfl⟩

theorem runWord_completes_f32 (nan : F32) {e : Engine F32} (h : Inv e) (w : Word) :
    ∃ r, runWord (Binary32.config nan) w e = .ok r := by
  refine runWord_completes (fun hp bits w => ?_) w
  obtain ⟨r, hr⟩ := sampleStep_completes (nan := nan) h (h.sr_ne_zero_of_prepared hp)
    (inputSample (Binary32.config nan) bits)
  exact ⟨_, process_eq_ok.2 (.inr ⟨hp, r, hr, rfl⟩)⟩

theorem runWord_completes_real {e : Engine ℝ} (h : RealInv e) (w : Word) :
    ∃ r, runWord Reals.config w e = .ok r := by
  refine runWord_completes (fun hp bits w => ?_) w
  have hsized := h.sized (h.sr_ne_zero_of_prepared hp)
  exact Reals.process_completes bits w hp hsized.wcur hsized.tlen_pos h.trans

/-- The step by what the host has pending: nothing, a reset or a command word. -/
theorem step_completes {s : State} (h : Inv s.toEngine) : Completes (step s) := by
  cases hp : s.pending with
  | nil => exact ⟨_, step_idle hp⟩
  | cons ev rest =>
    cases ev with
    | reset => exact ⟨_, step_reset hp⟩
    | command w =>
      obtain ⟨n, hn⟩ := step_eq_withEngine_runWord hp
      obtain ⟨r, hr⟩ := runWord_completes_f32 (freeNaN s) h w
      exact ⟨_, hn.trans (withEngine_eq_next.2 ⟨r, hr, rfl⟩)⟩

/-- Settles O35: `step_completes`, and under REAL every command word. -/
theorem stepNeverStops : Obligations.StepNeverStops :=
  ⟨fun _ => step_completes, fun w _ h => runWord_completes_real h w⟩

end Sys2Proof.Machine
end

/-! SUPPORT. Every command word ends with one report, over an error record that it has not written before (R160, R161).
Settles O14. -/

section
namespace Sys2Proof.Machine

variable {N : Type} {C : Config N} {e r : Engine N} {w : Word}

/-- The engine `r` after the word `w` is a report over an engine with the error record of `e` (R161). -/
def Reports (w : Word) (e r : Engine N) : Prop :=
  ∃ c e', errorPart e' = errorPart e ∧ r = report c w e'

theorem reports_report (c : ResultCode) (w : Word) (e : Engine N) : Reports w e (report c w e) :=
  ⟨c, e, rfl, rfl⟩

/-! ### Every command word reports -/

theorem prepare_reports (sr : BitVec 32) (blk : BitVec 24) : Reports w e (prepare C sr blk w e) := by
  rcases prepare_cases C sr blk w e with ⟨-, heq⟩ | ⟨cause, -, heq⟩
  · exact heq ▸ ⟨.ok, setPrepared true 0#4 (prepareInit C (setSizes C.toParams sr blk e)), rfl, rfl⟩
  · exact heq ▸ ⟨.configRejected, setPrepared false cause.code e, rfl, rfl⟩

theorem process_reports {bits : F32} (h : process C bits w e = .ok r) : Reports w e r := by
  rcases process_eq_ok.1 h with ⟨-, rfl⟩ | ⟨-, e1, hs, rfl⟩
  · exact reports_report ..
  · exact ⟨_, e1, (sampleStep_configPart_errorPart hs).2, rfl⟩

theorem setParam_reports {put : N → Engine N → Engine N} (hput : ∀ v, errorPart (put v e) = errorPart e)
    (lo hi : N) (bits : F32) : Reports w e (setParam C put lo hi bits w e) := by
  rcases setParam_cases C put lo hi bits w e with ⟨-, heq⟩ | ⟨-, heq⟩
  · exact ⟨_, _, hput _, heq⟩
  · exact ⟨_, e, rfl, heq⟩

theorem runWord_reports (h : runWord C w e = .ok r) : Reports w e r := by
  unfold runWord at h
  cases hd : decode w with
  | illegal => rw [hd] at h; cases h; exact reports_report ..
  | reserved => rw [hd] at h; cases h; exact reports_report ..
  | instr i =>
    rw [hd] at h
    cases i with
    | nop => cases h; exact reports_report ..
    | prepare sr blk => cases h; exact prepare_reports sr blk
    | process bits => exact process_reports h
    | setfreq bits => cases h; exact setParam_reports (fun _ => rfl) ..
    | setwidth bits => cases h; exact setParam_reports (fun _ => rfl) ..
    | setgain bits => cases h; exact setParam_reports (fun _ => rfl) ..

/-! ### The report in numbers -/

theorem ResultCode.isError_eq_decide (c : ResultCode) : c.isError = decide (2 ≤ c.code.toNat) := by
  cases c <;> rfl

theorem wordLo_toNat (w : Word) : (wordLo w).toNat = w.toNat % 2 ^ 32 := lowField_toNat w

theorem wordHi_toNat (w : Word) : (wordHi w).toNat = w.toNat / 2 ^ 32 := by
  rw [wordHi, BitVec.extractLsb'_toNat, Nat.shiftRight_eq_div_pow]
  omega

/-- An error code captures the word where STICKY was clear (R161). -/
theorem report_captures {c : ResultCode} (hs : e.status.sticky = false) (hc : 2 ≤ c.code.toNat) :
    (report c w e).firstErrLo = wordLo w ∧ (report c w e).firstErrHi = wordHi w := by
  have herror : c.isError = true := by rw [c.isError_eq_decide, decide_eq_true hc]
  exact ⟨(report_firstErrLo ..).trans (if_pos ⟨herror, hs⟩), (report_firstErrHi ..).trans (if_pos ⟨herror, hs⟩)⟩

/-- A later error and a success code capture nothing (R161). -/
theorem report_keeps_capture {c : ResultCode} (h : e.status.sticky = true ∨ c.code.toNat < 2) :
    (report c w e).firstErrLo = e.firstErrLo ∧ (report c w e).firstErrHi = e.firstErrHi := by
  have hnot : ¬ (c.isError = true ∧ e.status.sticky = false) := by
    rw [c.isError_eq_decide, decide_eq_true_iff]
    rintro ⟨herror, hclear⟩
    rcases h with hs | hc
    · rw [hs] at hclear; cases hclear
    · omega
  exact ⟨(report_firstErrLo ..).trans (if_neg hnot), (report_firstErrHi ..).trans (if_neg hnot)⟩

/-- Settles O14: the step is the word's reference semantics, which ends with one report over the old error record. -/
theorem everyCommandReports : Obligations.EveryCommandReports := by
  intro s t w rest hp hs
  obtain ⟨n, hn⟩ := step_eq_withEngine_runWord hp
  obtain ⟨r, hr, rfl⟩ := withEngine_eq_next.1 (hn.symm.trans hs)
  obtain ⟨c, e, herror, rfl⟩ := runWord_reports hr
  obtain ⟨hsticky, hlo, hhi⟩ := ErrorPart.mk.inj herror
  simp only [report_status_last, report_status_sticky, ← hsticky, ← hlo, ← hhi]
  refine ⟨c.code_lt, by rw [c.isError_eq_decide], fun hclear hc => ?_, report_keeps_capture⟩
  obtain ⟨hcapLo, hcapHi⟩ := report_captures (w := w) hclear hc
  rw [hcapLo, hcapHi]
  exact ⟨wordLo_toNat w, wordHi_toNat w⟩

end Sys2Proof.Machine
end

/-! SUPPORT. The code that each command ends with: the first check of R162 that applies. Settles O15. -/

section
namespace Sys2Proof.Machine

open Sys2Proof.Binary32

variable {bits lo hi : F32} {s t : State}

/-- PREPARE's code is decided by its rate (R153). -/
theorem exec_prepare_last {sr : BitVec 32} {blk : BitVec 24} (h : exec (.prepare sr blk) s = .next t) :
    t.status.last = if 41 ≤ sr.toNat ∧ sr.toNat ≤ 218453 then 0#4 else 5#4 := by
  split_ifs with hrate
  · obtain rfl := Host.Outcome.next.inj ((exec_prepare_accepted hrate.1 hrate.2).symm.trans h)
    rfl
  · have hreject := exec_prepare_rejected (sr := sr) (blk := blk) (s := s) (by omega)
    obtain rfl := Host.Outcome.next.inj (hreject.symm.trans h)
    rfl

/-- NOT_PREPARED comes before the check of the operand (R130, R162). -/
theorem exec_process_last (h : exec (.process bits) s = .next t) :
    t.status.last = if s.status.prepared = false then 4#4 else if isFinite bits = false then 7#4 else 0#4 := by
  obtain ⟨r, hr, rfl⟩ := execProcess_eq_next.1 h
  rcases process_eq_ok.1 hr with ⟨hp, rfl⟩ | ⟨hp, e1, -, rfl⟩
  · rw [report_status_last, if_pos hp]
    rfl
  · rw [report_status_last, inputCode_code, hp]
    cases isFinite bits <;> rfl

/-- A setter's code, by its law: NONFINITE_OPERAND, else whether the operand lies in the range (R140). -/
theorem SetterLaw.last {mk : F32 → Instr} {put : F32 → State → State} {top : Reg}
    (law : SetterLaw mk put lo hi top) (h : exec (mk bits) s = .next t) :
    t.status.last =
      if isFinite bits = false then 6#4
      else if units lo ≤ units bits ∧ units bits ≤ units hi then 0#4 else 1#4 := by
  obtain ⟨hnonfinite, hfinite⟩ := law bits s
  split_ifs with hbits hrange
  · obtain rfl := Host.Outcome.next.inj ((hnonfinite hbits).symm.trans h)
    rfl
  · obtain ⟨hwithin, -, -⟩ := hfinite (eq_true_of_ne_false hbits)
    obtain rfl := Host.Outcome.next.inj ((hwithin hrange.1 hrange.2).symm.trans h)
    rfl
  · obtain ⟨-, hbelow, habove⟩ := hfinite (eq_true_of_ne_false hbits)
    rcases lt_or_ge (units bits) (units lo) with hlt | hge
    · obtain rfl := Host.Outcome.next.inj ((hbelow hlt).symm.trans h)
      rfl
    · have hgt : units hi < units bits := not_le.1 fun hle => hrange ⟨hge, hle⟩
      obtain rfl := Host.Outcome.next.inj ((habove hgt).symm.trans h)
      rfl

/-- Settles O15: an illegal and a reserved word by their report, and each command by its own checks. -/
theorem resultCodePriority : Obligations.ResultCodePriority := by
  intro s t w rest hp hs
  obtain ⟨hfreq, hwidth, hgain⟩ := settersClampAndReport
  rw [step_word hp] at hs
  cases hd : decode w with
  | illegal => rw [hd] at hs; cases hs; exact report_status_last ..
  | reserved => rw [hd] at hs; cases hs; exact report_status_last ..
  | instr i =>
    rw [hd] at hs
    cases i with
    | nop => cases hs; exact report_status_last ..
    | prepare sr blk => exact exec_prepare_last hs
    | process bits => exact exec_process_last (s := { s with pending := rest }) hs
    | setfreq bits => exact hfreq.last hs
    | setwidth bits => exact hwidth.last hs
    | setgain bits => exact hgain.last hs

end Sys2Proof.Machine
end

/-! SUPPORT. A write of the buffer list as a whole: a command commutes with it as long as the words in use stay the same,
and the words in use stay the same under every command (R38, R154, R181). Settles O32. -/

section
namespace Sys2Proof.Machine

variable {N : Type} {C : Config N} {e r : Engine N} {b : List (Nat × N)} {w : Word}

/-- The buffer list `b` in place of an engine's own (R38). -/
def putBuf (b : List (Nat × N)) (e : Engine N) : Engine N := { e with buf := b }

/-- The buffer list `b` agrees with that of the part `p` on the words that a command can read: all below CAP while
prepared, and none before (R38, R181). -/
structure BufferPart.Agrees (C : Config N) (p : BufferPart N) (b : List (Nat × N)) : Prop where
  left : Canonical C.isPosZero p.buf
  right : Canonical C.isPosZero b
  words : p.prepared = true → ∀ i < p.cap.toNat, bufLookup (C.toNum 0) b i = bufLookup (C.toNum 0) p.buf i

/-! ### Every command keeps the agreement -/

/-- Both lists take the same word at the same cursor (R100). -/
theorem BufferPart.Agrees.write (hz : ∀ v, C.isPosZero v = true → v = C.toNum 0) {p : BufferPart N}
    (h : p.Agrees C b) (x : N) : (p.write C x).Agrees C ({ p with buf := b }.write C x).buf where
  left := canonical_bufInsert _ x h.left
  right := canonical_bufInsert _ x h.right
  words hp i hi := by
    simp only [BufferPart.write, bufLookup_bufInsert hz h.left, bufLookup_bufInsert hz h.right, h.words hp i hi]

/-- Both lists read +0 below the new capacity (R154). -/
theorem BufferPart.Agrees.clear {p q : BufferPart N} (h : p.Agrees C b)
    (hq : q.buf = bufClear q.cap.toNat p.buf) : q.Agrees C (bufClear q.cap.toNat b) where
  left := hq ▸ canonical_bufClear _ h.left
  right := canonical_bufClear _ h.right
  words _ i hi := by rw [hq, bufLookup_bufClear, bufLookup_bufClear, if_pos hi, if_pos hi]

theorem BufferPart.Agrees.after (hz : ∀ v, C.isPosZero v = true → v = C.toNum 0) {p : BufferPart N}
    (h : p.Agrees C b) (w : Word) : (p.after C w).Agrees C ({ p with buf := b }.after C w).buf := by
  unfold BufferPart.after
  cases decode w with
  | illegal => exact h
  | reserved => exact h
  | instr i =>
    cases i with
    | nop => exact h
    | prepare sr blk =>
      simp only
      split_ifs with hcheck
      · exact h.clear rfl
      · exact ⟨h.left, h.right, fun hp => by cases hp⟩
    | process x =>
      simp only
      split_ifs with hp
      · exact h.write hz (inputSample C x)
      · exact h
    | setfreq x => exact h
    | setwidth x => exact h
    | setgain x => exact h

/-! ### Commands that do not read the buffer -/

theorem report_putBuf (c : ResultCode) (w : Word) (b : List (Nat × N)) (e : Engine N) :
    report c w (putBuf b e) = putBuf b (report c w e) := by
  simp only [report_eq, putBuf]

theorem setParam_putBuf (put : N → Engine N → Engine N) (hput : ∀ v e, put v (putBuf b e) = putBuf b (put v e))
    (lo hi : N) (bits : F32) (w : Word) :
    setParam C put lo hi bits w (putBuf b e) = putBuf b (setParam C put lo hi bits w e) := by
  unfold setParam
  split <;> simp only [hput, report_putBuf]

/-- A PREPARE clears the list that it finds, and does the same to every other register (R151, R155). -/
theorem prepare_putBuf (sr : BitVec 32) (blk : BitVec 24) :
    ∃ b', prepare C sr blk w (putBuf b e) = putBuf b' (prepare C sr blk w e) := by
  unfold prepare
  split
  · exact ⟨b, report_putBuf _ _ b (setPrepared false _ e)⟩
  · exact ⟨_, report_putBuf _ _ (bufClear (setSizes C.toParams sr blk e).cap.toNat b)
      (setPrepared true 0#4 (prepareInit C (setSizes C.toParams sr blk e)))⟩

/-! ### The sample step -/

theorem trigger_putBuf : trigger C (putBuf b e) = putBuf b (trigger C e) := by
  unfold trigger putBuf
  split <;> rfl

theorem countStep_putBuf : countStep (putBuf b e) = putBuf b (countStep e) := by
  unfold countStep putBuf
  split <;> rfl

/-- A read sees the words in use alone (R61, R110). -/
theorem sample_putBuf
    (hb : ∀ i < e.cap.toNat, bufLookup (C.toNum 0) b i = bufLookup (C.toNum 0) e.buf i) (x : N) :
    sample C (putBuf b e) x = sample C e x := by
  have hread : ∀ i, bufRead C (putBuf b e) i = bufRead C e i := fun i => by
    by_cases hi : 0 ≤ i ∧ i < regInt e.cap
    · have hword := hb i.toNat (by unfold regInt at hi; omega)
      rw [bufRead, bufRead, if_pos hi, if_pos (show 0 ≤ i ∧ i < regInt (putBuf b e).cap from hi), ← hword]
      rfl
    · rw [bufRead, bufRead, if_neg hi, if_neg (show ¬(0 ≤ i ∧ i < regInt (putBuf b e).cap) from hi)]
  have hpos : readPos C (putBuf b e) (delay C e.phase x) = readPos C e (delay C e.phase x) := rfl
  have hcap : (putBuf b e).cap = e.cap := rfl
  have hphase : (putBuf b e).phase = e.phase := rfl
  simp only [sample, interp, hread, hphase, hpos, hcap]

theorem crossfade_putBuf {y : N}
    (hb : ∀ i < e.cap.toNat, bufLookup (C.toNum 0) b i = bufLookup (C.toNum 0) e.buf i)
    (h : crossfade C e = .ok (y, r)) : crossfade C (putBuf b e) = .ok (y, putBuf b r) := by
  obtain ⟨ya, hya, hcase⟩ := crossfade_eq_ok.1 h
  refine crossfade_eq_ok.2 ⟨ya, (sample_putBuf hb _).trans hya, ?_⟩
  rcases hcase with ⟨ht, heq⟩ | ⟨ht, yp, hyp, hcnt, heq⟩ <;> obtain ⟨rfl, rfl⟩ := Prod.mk.injEq .. ▸ heq
  · exact .inl ⟨ht, rfl⟩
  · exact .inr ⟨ht, yp, (sample_putBuf hb _).trans hyp, hcnt, by rw [countStep_putBuf]; rfl⟩

/-- The stages before the write keep the buffer and its capacity, so the reads see the same words; the write
changes the list that it finds (R130). -/
theorem sampleStep_putBuf {x : N}
    (hb : ∀ i < e.cap.toNat, bufLookup (C.toNum 0) b i = bufLookup (C.toNum 0) e.buf i)
    (h : sampleStep C x e = .ok r) : ∃ b', sampleStep C x (putBuf b e) = .ok (putBuf b' r) := by
  obtain ⟨y, e1, e2, hcross, hwrite, rfl⟩ := sampleStep_eq_ok.1 h
  obtain ⟨hcur, rfl⟩ := writePath_eq_ok.1 hwrite
  have htrigger : trigger C (smoothAll C (putBuf b e)) = putBuf b (trigger C (smoothAll C e)) :=
    trigger_putBuf (e := smoothAll C e)
  have hcross' := crossfade_putBuf (b := b) (by simpa using hb) hcross
  exact ⟨_, sampleStep_eq_ok.2 ⟨y, putBuf b e1, _, by rw [htrigger, hcross'], writePath_eq_ok.2 ⟨hcur, rfl⟩, rfl⟩⟩

theorem process_putBuf {bits : F32} (h : (bufferPart e).Agrees C b) (hr : process C bits w e = .ok r) :
    ∃ b', process C bits w (putBuf b e) = .ok (putBuf b' r) := by
  rcases process_eq_ok.1 hr with ⟨hp, rfl⟩ | ⟨hp, e1, hs, rfl⟩
  · exact ⟨b, process_eq_ok.2 (.inl ⟨hp, (report_putBuf ..).symm⟩)⟩
  · obtain ⟨b', hb'⟩ := sampleStep_putBuf (h.words hp) hs
    exact ⟨b', process_eq_ok.2 (.inr ⟨hp, _, hb', (report_putBuf ..).symm⟩)⟩

/-! ### Every command word -/

theorem runInstr_putBuf {i : Instr} (h : (bufferPart e).Agrees C b) (hr : runInstr C i w e = .ok r) :
    ∃ b', runInstr C i w (putBuf b e) = .ok (putBuf b' r) := by
  cases i with
  | nop => cases hr; exact ⟨b, congrArg Except.ok (report_putBuf ..)⟩
  | prepare sr blk => cases hr; exact (prepare_putBuf sr blk).imp fun _ => congrArg Except.ok
  | process bits => exact process_putBuf h hr
  | setfreq bits => cases hr; exact ⟨b, congrArg Except.ok (setParam_putBuf putFreq (fun _ _ => rfl) ..)⟩
  | setwidth bits => cases hr; exact ⟨b, congrArg Except.ok (setParam_putBuf putWidth (fun _ _ => rfl) ..)⟩
  | setgain bits => cases hr; exact ⟨b, congrArg Except.ok (setParam_putBuf putGain (fun _ _ => rfl) ..)⟩

/-- Over a buffer list that agrees on the words in use, a command word completes alike, and the lists agree again
(R181): the next list is the one that the word makes of the buffer's part. -/
theorem runWord_putBuf (hz : ∀ v, C.isPosZero v = true → v = C.toNum 0) (h : (bufferPart e).Agrees C b)
    (hr : runWord C w e = .ok r) :
    ∃ b', runWord C w (putBuf b e) = .ok (putBuf b' r) ∧ (bufferPart r).Agrees C b' := by
  have hframe : ∃ b', runWord C w (putBuf b e) = .ok (putBuf b' r) := by
    unfold runWord at hr ⊢
    cases hd : decode w with
    | illegal => rw [hd] at hr; cases hr; exact ⟨b, congrArg Except.ok (report_putBuf ..)⟩
    | reserved => rw [hd] at hr; cases hr; exact ⟨b, congrArg Except.ok (report_putBuf ..)⟩
    | instr i => rw [hd] at hr; exact runInstr_putBuf h hr
  obtain ⟨b', hb'⟩ := hframe
  have hbuf : b' = ({ bufferPart e with buf := b }.after C w).buf :=
    congrArg BufferPart.buf (bufferPart_runWord hb')
  exact ⟨b', hb', by rw [hbuf, bufferPart_runWord hr]; exact h.after hz w⟩

/-! ### The machine's step -/

section Steps

variable {s t s' : State}

/-- The free NaN values used once a command word is executed (log 5). -/
def tickAfterWord (w : Word) (s : State) : ℕ :=
  match decode w with
  | .instr i => tickAfter i s
  | _ => s.nanTick

/-- The step on a command word, with the count of free NaN values that it leaves. -/
theorem step_eq_withEngine_tickAfterWord {rest : List HostEvent} (h : s.pending = .command w :: rest) :
    step s = State.withEngine { s with pending := rest, nanTick := tickAfterWord w s }
      (runWord s.config w s.toEngine) := by
  rw [step_word h]
  unfold runWord tickAfterWord
  cases hd : decode w with
  | illegal => rfl
  | reserved => rfl
  | instr i =>
    have hexec := exec_eq_withEngine_tickAfter i { s with pending := rest }
    rw [encode_of_decode hd] at hexec
    refine hexec.trans ?_
    cases i <;> rfl

theorem tickAfterWord_congr (hp : t.status.prepared = s.status.prepared) (hn : t.nanTick = s.nanTick) :
    tickAfterWord w t = tickAfterWord w s := by
  unfold tickAfterWord
  cases decode w with
  | illegal => exact hn
  | reserved => exact hn
  | instr i => cases i <;> simp [tickAfter, nextTick, hp, hn]

/-- The machines of R181 are one machine and another buffer list that agrees on the words in use. -/
theorem sameReadable_iff_agrees (nan : F32) :
    SameReadable s t ↔ t = { s with toEngine := putBuf t.buf s.toEngine } ∧
      (bufferPart s.toEngine).Agrees (Binary32.config nan) t.buf := by
  have hzero : (Binary32.config nan).toNum 0 = 0#32 := by rw [Binary32.config_toNum, Binary32.toNum_zero]
  constructor
  · rintro ⟨hrest, hleft, hright, hwords⟩
    refine ⟨hrest, (bufSorted_iff_canonical nan _).1 hleft, (bufSorted_iff_canonical nan _).1 hright,
      fun hp i hi => ?_⟩
    rw [hzero]
    exact (hwords hp i hi).symm
  · rintro ⟨hrest, hleft, hright, hwords⟩
    refine ⟨hrest, (bufSorted_iff_canonical nan _).2 hleft, (bufSorted_iff_canonical nan _).2 hright,
      fun hp i hi => ?_⟩
    rw [hzero] at hwords
    exact (hwords hp i hi).symm

theorem step_command_sameReadable {rest : List HostEvent} (h : SameReadable s t) (hp : s.pending = .command w :: rest)
    (hs : step s = .next s') : ∃ t', step t = .next t' ∧ SameReadable s' t' := by
  obtain ⟨hrest, hagrees⟩ := (sameReadable_iff_agrees (freeNaN s)).1 h
  rw [step_eq_withEngine_tickAfterWord hp] at hs
  obtain ⟨r, hr, rfl⟩ := withEngine_eq_next.1 hs
  obtain ⟨b', hb', hagrees'⟩ := runWord_putBuf
    (fun v hv => ((Binary32.config_isPosZero _ v).1 hv).trans Binary32.toNum_zero.symm) hagrees hr
  have hp' : t.pending = .command w :: rest := by rw [hrest]; exact hp
  have hprepared : t.status.prepared = s.status.prepared := by rw [hrest]; rfl
  have hnan : t.nanTick = s.nanTick := by rw [hrest]
  have hword : runWord t.config w t.toEngine = .ok (putBuf b' r) := by rw [hrest]; exact hb'
  refine ⟨_, (step_eq_withEngine_tickAfterWord hp').trans (withEngine_eq_next.2 ⟨_, hword, rfl⟩),
    (sameReadable_iff_agrees (freeNaN s)).2 ⟨?_, hagrees'⟩⟩
  simp only [tickAfterWord_congr hprepared hnan]
  rfl

/-- Settles O32: a held state stays as it is, a reset leaves equal machines, and a command word keeps the agreement on the
words in use. -/
theorem unreadableBufferIsUnobservable : Obligations.UnreadableBufferIsUnobservable := by
  intro s t s' h hs
  have hpending : t.pending = s.pending := by rw [h.rest]
  cases hp : s.pending with
  | nil =>
    rw [step_idle hp] at hs
    cases hs
    exact ⟨t, step_idle (hpending.trans hp), h⟩
  | cons ev rest =>
    cases ev with
    | reset =>
      rw [step_reset hp] at hs
      obtain rfl := Host.Outcome.next.inj hs
      have hsame : hardwareReset { t with pending := rest } = hardwareReset { s with pending := rest } := by
        rw [h.rest]
        rfl
      have hsorted : bufSorted State.reset.toEngine := ⟨.nil, fun c hc => by cases hc⟩
      exact ⟨_, (step_reset (hpending.trans hp)).trans (congrArg _ hsame), rfl, hsorted, hsorted, fun _ _ _ => rfl⟩
    | command w => exact step_command_sameReadable h hp hs

end Steps

end Sys2Proof.Machine
end

/-! SUPPORT. The invariant at reset and along every run, and what it says of R56's items. Settles O33 and O36. -/

section
namespace Sys2Proof.Machine

/-- Settles O33: both configurations keep the legal ranges, so reset meets the invariant of either. -/
theorem resetMeetsInvariant : Obligations.ResetMeetsInvariant :=
  ⟨inv_reset, invOf_reset keepsRanges_real⟩

/-! ### The five items, from the invariant -/

section Items

variable {N : Type} {L : Legal N} {e : Engine N}

/-- The capacity of an accepted rate holds the taps' reach (R111, R152, R153). -/
theorem Sized.reach_le_cap (h : Sized L e) : ⌈(2 / 5 : ℚ) * e.sr.toNat⌉ + 3 + 3 ≤ (e.cap.toNat : ℤ) := by
  have hceil : ⌈(2 / 5 : ℚ) * e.sr.toNat⌉ = (((2 * e.sr.toNat + 4) / 5 : ℕ) : ℤ) := by
    rw [show (2 * e.sr.toNat + 4) / 5 = ceilDiv (2 * e.sr.toNat) 5 from rfl, cast_ceilDiv (by decide)]
    congr 1
    push_cast
    ring
  have hreach := (capacity_lt_reach_iff e.sr.toNat).not.2 (by have := h.rateLow; omega)
  rw [hceil, h.cap]
  omega

/-- R56 item 5 of the registers that a rate decides; MAXBLK has it from the invariant itself. -/
theorem InvOf.registers_lt (h : InvOf L e) :
    e.sr.toNat < 2 ^ 24 ∧ e.maxblk.toNat < 2 ^ 24 ∧ e.cap.toNat < 2 ^ 24 ∧ e.tlen.toNat < 2 ^ 24 ∧
      e.wcur.toNat < 2 ^ 24 ∧ e.cnt.toNat < 2 ^ 24 := by
  have hcnt := h.cnt
  by_cases hsr : e.sr = 0#32
  · have hunsized := h.unsized hsr
    rw [hsr, hunsized.cap, hunsized.tlen, hunsized.wcur, hunsized.cnt]
    exact ⟨by decide, h.maxblk, by decide, by decide, by decide, by decide⟩
  · have hsized := h.sized hsr
    have hrate := hsized.rateHigh
    have hcap := hsized.cap_le
    have htlen := hsized.tlen
    have hwcur := hsized.wcur
    exact ⟨by omega, h.maxblk, by omega, by omega, by omega, by omega⟩

/-- The invariant gives R56's items (item 4 as log 12 reads it). -/
theorem InvOf.rangeItems (h : InvOf L e) : RangeItems L e where
  item1 := ⟨h.freq, h.width, h.gain⟩
  item2 hp := by
    have hsr := h.sr_ne_zero_of_prepared hp
    have hsized := h.sized hsr
    exact ⟨Nat.zero_lt_of_lt hsized.wcur, hsized.cap_le, hsized.reach_le_cap, hsized.tlen_pos, hsized.wcur, hsr⟩
  phase := h.phase
  item3 := ⟨h.trans, h.idle⟩
  item4 hsr :=
    have hsized := h.sized hsr
    ⟨hsized.sfreq, hsized.swidth, hsized.sgain, hsized.aw, hsized.pw⟩
  item4Reset hsr :=
    have hunsized := h.unsized hsr
    ⟨hunsized.sfreq, hunsized.swidth, hunsized.sgain, hunsized.aw, hunsized.pw⟩
  item5 := h.registers_lt

end Items

/-! ### Every run from a state of the invariant -/

/-- Every number of steps ends in a next state of the invariant, whatever the host has pending. -/
theorem run_keeps_inv (k : ℕ) {s : State} (h : Inv s.toEngine) :
    ∃ t : State, Host.Core.run Sys2Proof.core k s = .next t ∧ Inv t.toEngine := by
  induction k generalizing s with
  | zero => exact ⟨s, rfl, h⟩
  | succ k ih =>
    obtain ⟨s', hs⟩ := step_completes h
    obtain ⟨t, ht, hinv⟩ := ih (step_keeps_inv h hs)
    exact ⟨t, run_succ_eq_next.2 ⟨s', hs, ht⟩, hinv⟩

/-- Under REAL every stream of command words ends in a state of the invariant. -/
theorem runWords_keeps_inv_real (ws : List Word) {e : Engine ℝ} (h : RealInv e) :
    ∃ r, runWords Reals.config ws e = .ok r ∧ RealInv r := by
  induction ws generalizing e with
  | nil => exact ⟨e, rfl, h⟩
  | cons w ws ih =>
    obtain ⟨e', he⟩ := runWord_completes_real h w
    obtain ⟨r, hr, hinv⟩ := ih (h.runWord keepsRanges_real he)
    exact ⟨r, by rw [runWords, he]; exact hr, hinv⟩

/-- Settles O36: every run from reset keeps the invariant, which gives the items. -/
theorem reachableStatesInRange : Obligations.ReachableStatesInRange := by
  refine ⟨fun evs => ?_, fun ws => ?_⟩
  · obtain ⟨t, ht, hinv⟩ := run_keeps_inv evs.length (s := { State.reset with pending := evs }) inv_reset
    exact ⟨t, ht, hinv.rangeItems⟩
  · obtain ⟨r, hr, hinv⟩ := runWords_keeps_inv_real ws (invOf_reset keepsRanges_real)
    exact ⟨r, hr, hinv.rangeItems⟩

end Sys2Proof.Machine
end

/-! SUPPORT. The registers after a hardware reset (R180), and a PROCESS while unprepared (R184). Settles O11 and O23. -/

section
namespace Sys2Proof.Machine

open Sys2Proof.Binary32

/-- The parameters' defaults as patterns (R10, R31 to R33). -/
theorem cnum_defaults : cnum Params.vibcore.defFreq = 0x40000000#32 ∧ cnum Params.vibcore.defWidth = 0x3C03126F#32 ∧
    cnum Params.vibcore.defGain = 0x3F800000#32 := by decide +kernel

/-- A machine with the engine of reset shows the values of R180's table, whatever the model's own fields hold. -/
theorem resetValues_of_toEngine {t : State} (h : t.toEngine = State.reset.toEngine) : ResetValues t := by
  obtain ⟨hfreq, hwidth, hgain⟩ := cnum_defaults
  have hengine : t.toEngine = Engine.reset (config 0x7FC00000#32) := h
  have hstatus : readPort t 0x01#8 = t.status.word := rfl
  have hid : readPort t 0x00#8 = 0x56430001#32 := rfl
  have hmaxcap : readPort t 0x13#8 = 131072#32 := rfl
  rw [ResetValues, hstatus, hid, hmaxcap, hengine]
  simp only [Engine.reset, config_cnum, config_toNum, config_toParams, hfreq, hwidth, hgain, toNum_zero, true_and,
    and_true]
  exact (by decide : (Status.mk false false 0#4 0#4 false).word = 0#32)

/-- Settles O11: a reset, between commands or at the start, sets the engine of reset, and the report of a command leaves
the error record of a set STICKY as it is. -/
theorem hardwareResetSetsEverything : Obligations.HardwareResetSetsEverything := by
  refine ⟨resetValues_of_toEngine rfl, fun s rest hp => ?_, fun s t w rest hp hs hsticky => ?_⟩
  · exact ⟨_, step_reset hp, hardwareReset_pending _, resetValues_of_toEngine (hardwareReset_toEngine _)⟩
  · obtain ⟨-, hstickyNext, -, hkeep⟩ := everyCommandReports s t w rest hp hs
    exact ⟨by rw [hstickyNext, hsticky, Bool.true_or], hkeep (.inl hsticky)⟩

/-- Settles O23: an unprepared PROCESS is its report alone, and code 5 is that of a rejected PREPARE, which clears
PREPARED. -/
theorem processUnprepared : Obligations.ProcessUnprepared := by
  refine ⟨fun bits s => exec_process_unprepared, fun sr blk s t h hlast => ?_⟩
  have hcode := exec_prepare_last h
  by_cases hrate : 41 ≤ sr.toNat ∧ sr.toNat ≤ 218453
  · rw [if_pos hrate, hlast] at hcode
    cases hcode
  · have hreject := exec_prepare_rejected (sr := sr) (blk := blk) (s := s) (by omega)
    obtain rfl := Host.Outcome.next.inj (hreject.symm.trans h)
    rfl

end Sys2Proof.Machine
end
